-- ==== Sys2Proof/Word.lean ====
section
/-! DEFINITION. The word types of HSDOT and its two encoded forms (00_scope R10, R11; 30_encoding R90). -/

namespace Sys2Proof

/-- One byte of data memory (20_memory R60). -/
abbrev Byte := BitVec 8

/-- A 16-bit alternate-half code (00_scope R17). -/
abbrev Half := BitVec 16

/-- A binary32 pattern; every single is handled as its 32-bit pattern (00_scope R12, R16). -/
abbrev Single := BitVec 32

/-- A 64-bit window register or address (10_state R31, 00_scope R8). -/
abbrev Word := BitVec 64

/-- The block's two encoded forms, and only these two (30_encoding R90): the 64-bit value the host writes to `CMD`,
and the 2-bit value on `H2S_MODE`. -/
inductive Encoded where
  /-- Format `CMDW`. -/
  | cmdw (v : Word)
  /-- Format `H2SM`. -/
  | h2sm (m : BitVec 2)
  deriving DecidableEq, Repr

end Sys2Proof
end

