-- ==== Sys2Proof/Syntax.lean ====
section
/-! DEFINITION. The instructions of HSDOT: one constructor per row of spec/opcode_table.json. No encoded form carries an
operand other than the fusion factor, which the constructor names (30_encoding R93). -/

namespace Sys2Proof

/-- The commands and converter operations of 30_encoding R91 and R92. The `DOTXF` operands stand in the register window
and the `H2S` operand on the port signal `H2S_IN` (30_encoding R93), so both are read from the state. -/
inductive Instr where
  /-- `DOTXF1`, 41_dotxf R175. -/
  | dotxf1
  /-- `DOTXF2`, 41_dotxf R176. -/
  | dotxf2
  /-- `DOTXF3`, 41_dotxf R177. -/
  | dotxf3
  /-- `DOTXF4`, 41_dotxf R178. -/
  | dotxf4
  /-- `DOTXF5`, 41_dotxf R179. -/
  | dotxf5
  /-- `DOTXF6`, 41_dotxf R180. -/
  | dotxf6
  /-- `DOTXF7`, 41_dotxf R181. -/
  | dotxf7
  /-- `DOTXF8`, 41_dotxf R182. -/
  | dotxf8
  /-- `H2S.S`, 40_h2s R130. -/
  | h2sS
  /-- `H2S.N`, 40_h2s R131. -/
  | h2sN
  /-- `H2S.W`, 40_h2s R132. -/
  | h2sW
  deriving DecidableEq, Repr

/-- The fusion factor F of a `DOTXF` command (30_encoding R91); none for a converter operation. -/
def Instr.fusion : Instr → Option Nat
  | .dotxf1 => some 1
  | .dotxf2 => some 2
  | .dotxf3 => some 3
  | .dotxf4 => some 4
  | .dotxf5 => some 5
  | .dotxf6 => some 6
  | .dotxf7 => some 7
  | .dotxf8 => some 8
  | .h2sS => none
  | .h2sN => none
  | .h2sW => none

/-- The lane width W of a converter operation (30_encoding R92); none for a `DOTXF` command. -/
def Instr.laneWidth : Instr → Option Nat
  | .dotxf1 => none
  | .dotxf2 => none
  | .dotxf3 => none
  | .dotxf4 => none
  | .dotxf5 => none
  | .dotxf6 => none
  | .dotxf7 => none
  | .dotxf8 => none
  | .h2sS => some 1
  | .h2sN => some 4
  | .h2sW => some 8

end Sys2Proof
end

