-- ==== Sys2Proof/WellFormed.lean ====
section
/-! DEFINITION. What an encoded word, an instruction and a window access must satisfy. -/

namespace Sys2Proof

/-- `CMDW.RSV` = bits [63:8] is 0 (30_encoding R90). -/
def cmdwRsvZero (v : Word) : Bool := v.extractLsb' 8 56 == 0#56

/-- `CMDW.CLASS` = bits [7:3] is `0b00010` (30_encoding R90). -/
def cmdwClassDotxf (v : Word) : Bool := v.extractLsb' 3 5 == 0b00010#5

/-- `H2SM.mode` is not the reserved `11` (30_encoding R90, R95). -/
def h2smModeListed (m : BitVec 2) : Bool := m != 0b11#2

/-- An encoded word that stands for an instruction (30_encoding R90 to R95). -/
def Encoded.wellFormed : Encoded → Bool
  | .cmdw v => cmdwRsvZero v && cmdwClassDotxf v
  | .h2sm m => h2smModeListed m

/-- An instruction names a routine or a width the block has: F in 1..8 or W in 1, 4, 8 (00_scope R3). `Instr` has one
constructor for each and no operand field, so every instruction satisfies it. -/
def Instr.wellFormed (i : Instr) : Bool :=
  match i.fusion, i.laneWidth with
  | some f, none => 1 ≤ f && f ≤ 8
  | none, some w => w == 1 || w == 4 || w == 8
  | _, _ => false

/-- A host window access the window has a register for: one 64-bit access at an offset that is a multiple of 8 and not
the reserved 0x38, inside the 0x40-byte window (10_state R31, R35). -/
def windowAccessWellFormed (offset width : Nat) : Bool :=
  width == 64 && offset % 8 == 0 && offset != 0x38 && offset < 0x40

end Sys2Proof
end

