-- ==== Sys2Proof/Decode.lean ====
section
/-! DEFINITION. The decoder of the two encoded forms, total and rejecting by name, and after it the encoder
(30_encoding R90 to R96). -/

namespace Sys2Proof

/-- What the decoder answers: an instruction, or why the encoded word stands for none. -/
inductive Decoded where
  /-- The word is this instruction. -/
  | accepted (i : Instr)
  /-- A `CMDW` value that is no `DOTXF` opcode (30_encoding R94). -/
  | illegalCmd (v : Word)
  /-- `H2S_MODE = 11` (30_encoding R95). -/
  | reservedMode
  deriving DecidableEq, Repr

/-- The instruction, where there is one. -/
def decodedInstr : Decoded → Option Instr
  | .accepted i => some i
  | .illegalCmd _ => none
  | .reservedMode => none

/-- A `CMDW` value is a `DOTXF` command exactly when all its bits but [2:0] read `0x10` (30_encoding R91, R94). -/
def isDotxfCmd (v : Word) : Bool := v &&& 0xFFFFFFFFFFFFFFF8#64 == 0x10#64

/-- The routine of `CMDW.f`: F = f + 1 (30_encoding R90, R93). The last arm is f = 7, the only value left of 3 bits. -/
def dotxfOf (f : BitVec 3) : Instr :=
  match f.toNat with
  | 0 => .dotxf1
  | 1 => .dotxf2
  | 2 => .dotxf3
  | 3 => .dotxf4
  | 4 => .dotxf5
  | 5 => .dotxf6
  | 6 => .dotxf7
  | _ => .dotxf8

/-- The `CMDW` decoder (30_encoding R91, R94). -/
def decodeCmdw (v : Word) : Decoded :=
  if isDotxfCmd v then .accepted (dotxfOf (v.extractLsb' 0 3)) else .illegalCmd v

/-- The `H2SM` decoder (30_encoding R92, R95). The last arm is the reserved mode 11. -/
def decodeH2sm (m : BitVec 2) : Decoded :=
  match m.toNat with
  | 0 => .accepted .h2sS
  | 1 => .accepted .h2sN
  | 2 => .accepted .h2sW
  | _ => .reservedMode

/-- The decoder of both forms. No mode changes it and it makes no length decision (30_encoding R96). -/
def decode : Encoded → Decoded
  | .cmdw v => decodeCmdw v
  | .h2sm m => decodeH2sm m

/-- The encoder, from the opcode maps of 30_encoding R91 and R92. -/
def encode : Instr → Encoded
  | .dotxf1 => .cmdw 0x10#64
  | .dotxf2 => .cmdw 0x11#64
  | .dotxf3 => .cmdw 0x12#64
  | .dotxf4 => .cmdw 0x13#64
  | .dotxf5 => .cmdw 0x14#64
  | .dotxf6 => .cmdw 0x15#64
  | .dotxf7 => .cmdw 0x16#64
  | .dotxf8 => .cmdw 0x17#64
  | .h2sS => .h2sm 0b00#2
  | .h2sN => .h2sm 0b01#2
  | .h2sW => .h2sm 0b10#2

/-- The encoded form of an opcode-table word: bit 0 is the least significant bit. A row of at most one byte whose value
fits 2 bits is an `H2SM` mode (the table gives those rows 2 bits); every other word is a `CMDW`, its bits above `nbits`
zero. The two never collide: no `CMDW` opcode is below 0x10 (30_encoding R91). -/
def encodedOfTableWord (nbits w : Nat) : Encoded :=
  if nbits ≤ 8 && w % 2 ^ nbits < 4 then .h2sm (BitVec.ofNat 2 (w % 2 ^ nbits))
  else .cmdw (BitVec.ofNat 64 (w % 2 ^ nbits))

/-- The instruction the decoder reads from an opcode-table word; none where it refuses. -/
def decodeTableWord (nbits w : Nat) : Option Instr := decodedInstr (decode (encodedOfTableWord nbits w))

end Sys2Proof
end

