-- ==== Sys2Proof/Config.lean ====
section
/-! DEFINITION. The block's fixed parameters, the parameters the spec leaves OPEN (00_scope R8), and the free values. -/

namespace Sys2Proof

/-- `FMAX`: the largest fusion factor (00_scope R8). -/
abbrev Config.fmax : Nat := 8

/-- `VW`: the bulk vector width in lanes (00_scope R8, R9). -/
abbrev Config.vw : Nat := 8

/-- The size in bytes of the data space, 2^`ADDR_W` (00_scope R8, 10_state R42). -/
abbrev Config.memSize : Nat := 2 ^ 64

/-- The two kinds of access `MEM_ADMIT` is asked about (20_memory R64). -/
inductive AccessKind where
  | read
  | write
  deriving DecidableEq, Repr

/-- A run of bytes of the launch memory and what the engine may do there (00_scope R23, 20_memory R64). -/
structure Region where
  base : Nat
  size : Nat
  readable : Bool
  writable : Bool
  deriving DecidableEq, Repr

/-- The parameters a model takes as arguments (00_scope R8). They are plain data in the state, so that a statement about
every state is a statement about every choice of them; no step changes them (log 7, 8, 9). -/
structure Params where
  /-- `MEM_ADMIT` as the set of byte addresses of each kind (20_memory R64). -/
  launch : List Region
  /-- `REM_FUSED` (41_dotxf R167). -/
  remFused : Bool
  /-- `WINDOW_BASE`: where the window sits in the host's address map; no rule reads it (20_memory R69). -/
  windowBase : Word
  deriving DecidableEq, Repr

/-- FREE VALUE (log 10). The bits from which the k-th `NAN_RESULT` is drawn (00_scope R21): nothing constrains them, and
`Sys2Proof.Machine.nanResult` makes a NaN pattern of them, every NaN pattern being the image of some bits. -/
opaque Config.nanDraw : Nat → BitVec 32

/-- FREE VALUE (log 11). The k-th value drawn by a race (20_memory R73): nothing constrains it. -/
opaque Config.raceDraw : Nat → BitVec 32

/-- FREE VALUE (log 14). What the converter port gives while it is driven with the reserved mode 11, to which the spec gives
no meaning (30_encoding R95, 60_exceptions R207): nothing constrains it. -/
opaque Config.portDraw : Nat → BitVec 256

end Sys2Proof
end

