-- ==== Sys2Proof/Machine/State.lean ====
section
/-! DEFINITION. The state of HSDOT as plain data, the reasons a step can stop, and the state after reset
(10_state R31, R38, R40, R43, R44). -/

namespace Sys2Proof.Machine

/-- The seven registers of the host window (10_state R31). -/
inductive WinReg where
  | cmd | status | xBase | yBase | stride | sumBase | n
  deriving DecidableEq, Repr

/-- Which loop the engine is in (10_state R38). -/
inductive Phase where
  | idle | bulk | rem | red
  deriving DecidableEq, Repr

/-- The two agents that take steps (10_state R30). -/
inductive Agent where
  | host | engine
  deriving DecidableEq, Repr

/-- The fault reasons of 60_exceptions R201, with the info each records. `step` takes the fault as a next state whose
fault record holds the reason (R205) and answers `fault` with that reason from then on. Every one is SAFE: the model
stops where the hardware's behaviour is undefined. -/
inductive Fault where
  /-- Code 1, raised by START: the value written to `CMD` is no `DOTXF` opcode. Safe. -/
  | illegalCmd (value : Word)
  /-- Code 2, raised by START: an argument register has not been written since reset. Safe. -/
  | argUnwritten (reg : WinReg)
  /-- Code 3, raised by START: a base is misaligned. Safe. -/
  | misaligned (reg : WinReg) (value : Word)
  /-- Code 4, raised by BULK, REM and RED: an access `MEM_ADMIT` does not admit. Safe. -/
  | mem (kind : AccessKind) (addr size : Nat)
  /-- Code 5, raised by a host window write while `BUSY = 1`. Safe. -/
  | busyWrite (offset : Nat) (value : Word)
  /-- Code 6, raised by a host window access of a wrong width or offset. Safe. -/
  | badReg (offset width : Nat)
  /-- Code 7, raised by a host window read of a register not written since reset: 10_state R35 says that the read raises
  it and gives no value, as do 92_eei_decisions D21 and 93_implementation_defined I6; R43's written mark decides it. Safe. -/
  | unwritten (offset : Nat)
  deriving DecidableEq, Repr

/-- Why the model gives an operation no meaning. -/
inductive Refusal where
  /-- An instruction without a meaning, by its mnemonic. No arm of `exec` answers it now. Safe. -/
  | notModelled (mnemonic : String)
  /-- Raised by `step` where the refusal mark is set and no agent has a step left: the host drove `H2S_MODE = 11` or made
  an interaction the spec does not list, and such a state is never the end of a run (60_exceptions R207, log 14). Safe. -/
  | refusalMarked
  deriving DecidableEq, Repr

/-- The host interactions of 70_reset_and_hazards R236, and the steps of other instances on the same memory (20_memory
R74). -/
inductive HostAction where
  /-- `WREG`: a window write of `value`, `width` bits wide, at byte offset `offset` (30_encoding R97). -/
  | wreg (offset width : Nat) (value : Word)
  /-- `RREG`: a window read (30_encoding R97). -/
  | rreg (offset width : Nat)
  /-- `WAIT`: repeat `RREG STATUS` until `DONE` is set (30_encoding R98). -/
  | wait
  /-- A memory write of `bytes` at `addr` (20_memory R72, R73). -/
  | memWrite (addr : Nat) (bytes : List Byte)
  /-- A memory read of `size` bytes at `addr`. -/
  | memRead (addr size : Nat)
  /-- Drive the converter port: `H2S_MODE` and `H2S_IN` (40_h2s R128). -/
  | driveH2s (mode : BitVec 2) (input : BitVec 128)
  /-- Assert the block's reset (70_reset_and_hazards R230). -/
  | reset
  /-- Another instance on the same memory starts a command of fusion factor `f + 1` whose results go to `sumBase`
  (20_memory R74). -/
  | peerStart (sumBase : Word) (f : BitVec 3)
  /-- The running command at place `p` of `State.peers` makes its next RED step (20_memory R74). -/
  | peerRed (p : Nat)
  /-- The instance of the running command at place `p` of `State.peers` is reset (70_reset_and_hazards R231). -/
  | peerReset (p : Nat)
  /-- Any interaction the spec does not list (60_exceptions R207). -/
  | unlisted
  deriving DecidableEq, Repr

/-- What a host read returned. -/
inductive Observation where
  /-- `RREG` or a poll of `WAIT`: the register's offset and value. -/
  | window (offset : Nat) (value : Word)
  /-- A memory read: its address and the bytes, lowest address first. -/
  | memory (addr : Nat) (bytes : List Byte)
  deriving DecidableEq, Repr

/-- The written marks of the six read/write registers (10_state R43). -/
structure WrittenMarks where
  cmd : Bool
  xBase : Bool
  yBase : Bool
  stride : Bool
  sumBase : Bool
  n : Bool
  deriving DecidableEq, Repr

/-- A command now running on another instance that shares data memory (20_memory R74): where its results go, its fusion
factor less one, and the rows it has written. What else that instance holds is its own (log 20). -/
structure Peer where
  sumBase : Word
  f : BitVec 3
  row : BitVec 3
  deriving DecidableEq, Repr

/-- Eight lanes of one accumulator row (10_state R40). -/
abbrev Lanes := Vector Single 8

/-- Data memory: the bytes that differ from what an unlisted address reads as, by rising address. -/
abbrev Memory := List Host.Cell

/-- What an address that memory does not list reads as (log 6). -/
abbrev unlistedByte : Byte := 0x00#8

/-- The cells from `lo` on are in canonical form. -/
def wfFrom (lo : Nat) : Memory → Bool
  | [] => true
  | (a, v) :: rest => lo ≤ a && a < Config.memSize && v != unlistedByte && wfFrom (a + 1) rest

/-- The canonical form of memory: addresses strictly rise and exist, and no entry is what an unlisted address reads as. -/
def Memory.wf (m : Memory) : Bool := wfFrom 0 m

/-- Everything the spec gives the machine, and the model's own fields (marked so). -/
structure State where
  /-- `CMD`, window offset 0x00 (10_state R33). -/
  cmd : Word
  /-- `STATUS`, offset 0x08: `BUSY` bit 0, `DONE` bit 1 (10_state R34). -/
  status : Word
  /-- `X_BASE`, offset 0x10 (10_state R32). -/
  xBase : Word
  /-- `Y_BASE`, offset 0x18. -/
  yBase : Word
  /-- `STRIDE`, offset 0x20. -/
  stride : Word
  /-- `SUM_BASE`, offset 0x28. -/
  sumBase : Word
  /-- `N`, offset 0x30. -/
  n : Word
  /-- The written marks (10_state R43). -/
  written : WrittenMarks
  /-- `PHASE` (10_state R38). -/
  phase : Phase
  /-- `FF`, the fusion factor of the running command (10_state R38). -/
  ff : BitVec 4
  /-- `K`, the next unconsumed element of each row (10_state R38). -/
  k : Word
  /-- `ROW`, the next row RED reduces (10_state R38). -/
  row : BitVec 4
  /-- `ACC`, eight rows of eight lanes (10_state R40). -/
  acc : Vector Lanes 8
  /-- The fault record (10_state R43, 60_exceptions R205). -/
  faultRec : Option Fault
  /-- The refusal mark (10_state R43, 60_exceptions R207). -/
  refusalMark : Bool
  /-- Data memory (10_state R42). -/
  mem : Memory
  /-- The port input `H2S_MODE` (40_h2s R128). -/
  h2sMode : BitVec 2
  /-- The port input `H2S_IN` (40_h2s R128). -/
  h2sIn : BitVec 128
  /-- The port output `H2S_OUT` for the inputs now driven (40_h2s R128, log 13), a free value for mode 11 (log 14). -/
  h2sOut : BitVec 256
  /-- The commands other instances on the same memory are running: an instance's `BUSY` is 1 exactly while its command
  is listed (20_memory R74, log 20). -/
  peers : List Peer
  /-- The OPEN parameters of this launch (00_scope R8); no step changes them. -/
  params : Params
  /-- MODEL'S OWN: the host interactions still to come, oldest first (log 3). -/
  hostQueue : List HostAction
  /-- MODEL'S OWN: which agent moves at the coming steps (log 2). -/
  schedule : List Agent
  /-- MODEL'S OWN: what the host's latest read returned (log 19). -/
  observed : Option Observation
  /-- MODEL'S OWN: the byte addresses raced in the running command so far: written by the host while `BUSY = 1`, or in
  the `sum` of another instance's command that ran beside it (log 11, 20). -/
  raced : List Nat
  /-- MODEL'S OWN: how many free values have been passed (log 10, 11). No statement rests on its value. -/
  draws : Nat
  deriving DecidableEq, Repr

/-- The state right after reset (10_state R44, 70_reset_and_hazards R230). STATUS, PHASE, the written marks, the fault
record and the refusal mark are the spec's. The values of CMD, the argument registers, FF, K, ROW and ACC, which the spec
leaves unspecified, are the model's (log 4, 5); so are the launch parameters, memory, port inputs, the other instances
and the model's own fields (log 3, 6, 7, 8, 9, 10, 13, 20). -/
def State.reset : State where
  cmd := 0#64
  status := 0#64
  xBase := 0#64
  yBase := 0#64
  stride := 0#64
  sumBase := 0#64
  n := 0#64
  written := ⟨false, false, false, false, false, false⟩
  phase := .idle
  ff := 1#4
  k := 0#64
  row := 0#4
  acc := Vector.replicate 8 (Vector.replicate 8 0#32)
  faultRec := none
  refusalMark := false
  mem := []
  h2sMode := 0#2
  h2sIn := 0#128
  h2sOut := 0#256
  peers := []
  params := ⟨[⟨0, Config.memSize, true, true⟩], true, 0#64⟩
  hostQueue := []
  schedule := []
  observed := none
  raced := []
  draws := 0

end Sys2Proof.Machine
end

