-- ==== Sys2Proof/Machine/Ops.lean ====
section
/-! DEFINITION. The named operations over memory, registers, the fault record and reset. -/

namespace Sys2Proof.Machine

/-- The outcome of one step. -/
abbrev Outcome := Host.Outcome State Fault Refusal

/-! Data memory (20_memory R60, R64). -/

/-- The byte at an address: the listed one, else what an unlisted address reads as. -/
def readByte : Memory → Nat → Byte
  | [], _ => unlistedByte
  | (b, v) :: rest, a => if b = a then v else readByte rest a

/-- Put a byte into the canonical list; the byte an unlisted address reads as removes the entry. -/
def insertByte : Memory → Nat → Byte → Memory
  | [], a, v => if v = unlistedByte then [] else [(a, v)]
  | (b, w) :: rest, a, v =>
    if a < b then (if v = unlistedByte then (b, w) :: rest else (a, v) :: (b, w) :: rest)
    else if a = b then (if v = unlistedByte then rest else (a, v) :: rest)
    else (b, w) :: insertByte rest a v

/-- Write one byte. An address past the data space does not exist (10_state R42): nothing is written there. -/
def writeByte (m : Memory) (a : Nat) (v : Byte) : Memory :=
  if a < Config.memSize then insertByte m a v else m

/-- The `n` bytes from `a` on, lowest address first. -/
def readBytes (m : Memory) (a n : Nat) : List Byte := (List.range n).map fun d => readByte m (a + d)

/-- Write bytes from `a` on, the first at the lowest address. -/
def writeBytes : Memory → Nat → List Byte → Memory
  | m, _, [] => m
  | m, a, v :: rest => writeBytes (writeByte m a v) (a + 1) rest

/-- A 16-bit element: bits [7:0] at `a`, [15:8] at `a + 1` (20_memory R60). -/
def load16 (m : Memory) (a : Nat) : Half := readByte m (a + 1) ++ readByte m a

/-- A 32-bit element: bits [7:0] at `a` up to [31:24] at `a + 3` (20_memory R60). -/
def load32 (m : Memory) (a : Nat) : Single :=
  readByte m (a + 3) ++ readByte m (a + 2) ++ readByte m (a + 1) ++ readByte m a

/-- The four bytes of a single in memory order (20_memory R60). -/
def bytesOf32 (v : Single) : List Byte :=
  [v.extractLsb' 0 8, v.extractLsb' 8 8, v.extractLsb' 16 8, v.extractLsb' 24 8]

/-- Write a 32-bit element (00_scope R13, 20_memory R60). -/
def store32 (m : Memory) (a : Nat) (v : Single) : Memory := writeBytes m a (bytesOf32 v)

/-- The region lets the engine make an access of this kind at the byte `a`. -/
def regionAdmits (r : Region) (kind : AccessKind) (a : Nat) : Bool :=
  r.base ≤ a && a < r.base + r.size &&
    (match kind with
     | .read => r.readable
     | .write => r.writable)

/-- `MEM_ADMIT(kind, a, n)` (20_memory R64): every byte of the access is admitted, and it does not pass 2^64. -/
def admits (s : State) (kind : AccessKind) (a n : Nat) : Bool :=
  a + n ≤ Config.memSize && (List.range n).all fun d => s.params.launch.any fun r => regionAdmits r kind (a + d)

/-- The fault's numeric code (60_exceptions R201). -/
def faultCode : Fault → Nat
  | .illegalCmd _ => 1
  | .argUnwritten _ => 2
  | .misaligned _ _ => 3
  | .mem _ _ _ => 4
  | .busyWrite _ _ => 5
  | .badReg _ _ => 6
  | .unwritten _ => 7

/-! Fault entry, refusal and reset (60_exceptions R205 to R207, 70_reset_and_hazards R230). -/

/-- The state before the step plus the record (60_exceptions R205). -/
def recordFault (f : Fault) (s : State) : State := { s with faultRec := some f }

/-- Fault entry, shared by every step that raises (60_exceptions R205): the step is discarded, so `s` is the state before
it, and the record becomes `f`. There is no handler; the next step answers `fault` (log 1). -/
def raise (f : Fault) (s : State) : Outcome := .next (recordFault f s)

/-- The state with the refusal mark set (60_exceptions R207). -/
def markRefused (s : State) : State := { s with refusalMark := true }

/-- Refusal, shared by every interaction the model gives no meaning (60_exceptions R207): the mark alone; no rule stops an
agent for it (70_reset_and_hazards R239, log 14). -/
def refuse (s : State) : Outcome := .next (markRefused s)

/-- The only way back from a fault or a refusal (60_exceptions R206): the block's reset (70_reset_and_hazards R230). Data
memory is not touched; what is not the block's, or not state, stays: the port signals, the other instances, the launch
parameters, the host's own fields and the free-value counter (log 17). -/
def resetBlock (s : State) : State :=
  { State.reset with
    mem := s.mem
    h2sMode := s.h2sMode
    h2sIn := s.h2sIn
    h2sOut := s.h2sOut
    peers := s.peers
    params := s.params
    hostQueue := s.hostQueue
    schedule := s.schedule
    observed := s.observed
    draws := s.draws }

/-! The register window (10_state R31 to R35). -/

/-- The byte offset of a register in the window (10_state R31). -/
def regOffset : WinReg → Nat
  | .cmd => 0x00
  | .status => 0x08
  | .xBase => 0x10
  | .yBase => 0x18
  | .stride => 0x20
  | .sumBase => 0x28
  | .n => 0x30

/-- The register of a window access; none is `F_BAD_REG`: a width other than 64, a misaligned offset, or 0x38. -/
def windowReg (offset width : Nat) : Option WinReg :=
  if width ≠ 64 then none
  else match offset with
    | 0x00 => some .cmd
    | 0x08 => some .status
    | 0x10 => some .xBase
    | 0x18 => some .yBase
    | 0x20 => some .stride
    | 0x28 => some .sumBase
    | 0x30 => some .n
    | _ => none

/-- A register's value. `STATUS` bits [63:2] read 0 (10_state R31). -/
def regValue (r : WinReg) (s : State) : Word :=
  match r with
  | .cmd => s.cmd
  | .status => s.status &&& 0x3#64
  | .xBase => s.xBase
  | .yBase => s.yBase
  | .stride => s.stride
  | .sumBase => s.sumBase
  | .n => s.n

/-- The register has been written since reset (10_state R43). `STATUS` always holds a value. -/
def isWritten (r : WinReg) (s : State) : Bool :=
  match r with
  | .cmd => s.written.cmd
  | .status => true
  | .xBase => s.written.xBase
  | .yBase => s.written.yBase
  | .stride => s.written.stride
  | .sumBase => s.written.sumBase
  | .n => s.written.n

/-- Store an argument register exactly and set its written mark (10_state R32, R43). `CMD` is written by START alone and
`STATUS` by no host (10_state R33, R34). -/
def storeArg (r : WinReg) (v : Word) (s : State) : State :=
  match r with
  | .cmd => s
  | .status => s
  | .xBase => { s with xBase := v, written := { s.written with xBase := true } }
  | .yBase => { s with yBase := v, written := { s.written with yBase := true } }
  | .stride => { s with stride := v, written := { s.written with stride := true } }
  | .sumBase => { s with sumBase := v, written := { s.written with sumBase := true } }
  | .n => { s with n := v, written := { s.written with n := true } }

/-- The five argument registers have been written since reset (41_dotxf R161). -/
def argsWritten (s : State) : Bool :=
  s.written.xBase && s.written.yBase && s.written.stride && s.written.sumBase && s.written.n

/-- What the host's latest read returned (log 19). -/
def observe (o : Observation) (s : State) : State := { s with observed := some o }

/-- The next interaction is taken from the queue. -/
def popHost (s : State) : State := { s with hostQueue := s.hostQueue.tail }

/-- One entry of the schedule is used up. -/
def popSchedule (s : State) : State := { s with schedule := s.schedule.tail }

end Sys2Proof.Machine
end

