-- ==== Sys2Proof/Machine/Binary32.lean ====
section
/-! DEFINITION. Binary32 arithmetic: RNE32, FMA32, ADD32, SUB32 and the NaN draw (00_scope R16 to R22). No operation
traps or sets a flag (R22). A finite pattern's value is `±sig · 2^(scale - 150)`, so products and sums are exact integers
in units of 2^-300. -/

namespace Sys2Proof.Machine

/-- The sign bit (00_scope R16). -/
def signBit (b : Single) : Bool := b.getLsbD 31

/-- The biased exponent field `b[30:23]`. -/
def expField (b : Single) : Nat := (b.extractLsb' 23 8).toNat

/-- The fraction field `b[22:0]`. -/
def fracField (b : Single) : Nat := (b.extractLsb' 0 23).toNat

/-- `e = 255, m ≠ 0` (00_scope R16). -/
def isNaN (b : Single) : Bool := expField b == 255 && fracField b != 0

/-- `e = 255, m = 0`. -/
def isInf (b : Single) : Bool := expField b == 255 && fracField b == 0

/-- A signed zero. -/
def isZero (b : Single) : Bool := expField b == 0 && fracField b == 0

/-- Neither NaN nor infinite. -/
def isFinite (b : Single) : Bool := expField b != 255

/-- The integer significand: the fraction, with the implicit leading one for a normal pattern. -/
def sig (b : Single) : Nat := if expField b = 0 then fracField b else 2 ^ 23 + fracField b

/-- The exponent of the significand, plus 150: a subnormal has the exponent of `e = 1` (00_scope R16). -/
def scale (b : Single) : Nat := max (expField b) 1

/-- An integer magnitude with a sign. -/
def withSign (neg : Bool) (m : Nat) : Int := if neg then -(m : Int) else (m : Int)

/-- A zero with a sign: `s ++ zext_31(0)`. -/
def signedZero (neg : Bool) : Single := if neg then 0x80000000#32 else 0x00000000#32

/-- An infinity with a sign: `s ++ 0xFF ++ zext_23(0)`. -/
def signedInf (neg : Bool) : Single := if neg then 0xFF800000#32 else 0x7F800000#32

/-- Round `mag / 2^shift` to the nearest integer, ties to even. -/
def roundShift (mag shift : Nat) : Nat :=
  let q := mag / 2 ^ shift
  let r := mag % 2 ^ shift
  if 2 * r > 2 ^ shift || (2 * r == 2 ^ shift && q % 2 == 1) then q + 1 else q

/-- The place, in units of 2^-300, of the last kept bit of a non-zero magnitude: 23 below its leading bit, but not below
the subnormal grid 2^-149, which is 2^151 units (00_scope R18). -/
def ulpPlace (mag : Nat) : Nat := max (Nat.log2 mag - 23) 151

/-- The magnitude bits of RNE32 for `mag · 2^-300`, `mag > 0` (00_scope R18). A carry out of the fraction moves into the
exponent field; a magnitude that rounds to 2^128 or more is the pattern of ∞. -/
def roundMag (mag : Nat) : Nat :=
  min (roundShift mag (ulpPlace mag) + (ulpPlace mag - 151) * 2 ^ 23) 0x7F800000

/-- RNE32 of the non-zero real `t · 2^-300`: nearest, ties to even, full subnormals (00_scope R18). -/
def rne32 (t : Int) : Single :=
  (if t < 0 then 0x80000000#32 else 0x00000000#32) ||| BitVec.ofNat 32 (roundMag t.natAbs)

/-- The exact product of two finite patterns in units of 2^-300. -/
def exactProduct (a b : Single) : Int :=
  withSign (signBit a != signBit b) (sig a * sig b * 2 ^ (scale a + scale b))

/-- A finite pattern's exact value in units of 2^-300. -/
def exactValue (c : Single) : Int := withSign (signBit c) (sig c * 2 ^ (scale c + 150))

/-- FMA32 (00_scope R19), line by line; `none` where the rule returns `NAN_RESULT`. -/
def fmaCore (a b c : Single) : Option Single :=
  let ps := signBit a != signBit b
  if isNaN a || isNaN b || isNaN c then none
  else if (isInf a && isZero b) || (isZero a && isInf b) then none
  else if isInf a || isInf b then
    if isInf c && signBit c != ps then none else some (signedInf ps)
  else if isInf c then some c
  else
    let p := exactProduct a b
    let t := p + exactValue c
    if t ≠ 0 then some (rne32 t)
    else if p = 0 && signBit c == ps then some (signedZero ps)
    else some 0x00000000#32

/-- FMA32 with the pattern a NaN result takes (00_scope R19, R21). -/
def fma32 (nan a b c : Single) : Single := (fmaCore a b c).getD nan

/-- The pattern of 1.0. -/
abbrev one32 : Single := 0x3F800000#32

/-- `ADD32(a, b) = FMA32(a, 1.0, b)`, `none` for `NAN_RESULT` (00_scope R20). -/
def addCore (a b : Single) : Option Single := fmaCore a one32 b

/-- ADD32 with the pattern a NaN result takes (00_scope R20). -/
def add32 (nan a b : Single) : Single := (addCore a b).getD nan

/-- `SUB32(a, b) = ADD32(a, b XOR 0x80000000)`, `none` for `NAN_RESULT` (00_scope R20). -/
def subCore (a b : Single) : Option Single := addCore a (b ^^^ 0x80000000#32)

/-- The rounded product: FMA32 with a zero of the product's sign, which leaves the product's own zero sign (log 8). Used
by the unfused remainder alone (41_dotxf R167). -/
def mulCore (a b : Single) : Option Single := fmaCore a b (signedZero (signBit a != signBit b))

/-- The NaN pattern made of free bits: their sign and their fraction, which is put to 1 if it is 0 (00_scope R21). -/
def nanOf (bits : BitVec 32) : Single :=
  bits.extractLsb' 31 1 ++ 0xFF#8 ++ (if bits.extractLsb' 0 23 = 0#23 then 1#23 else bits.extractLsb' 0 23)

/-- The k-th `NAN_RESULT`: a NaN pattern with free sign and fraction (00_scope R21). -/
def nanResult (k : Nat) : Single := nanOf (Config.nanDraw k)

end Sys2Proof.Machine
end

