-- ==== Sys2Proof/Machine/Flags.lean ====
section
/-! DEFINITION. The only flags of the block: `STATUS.BUSY` and `STATUS.DONE` (10_state R34, R37). -/

namespace Sys2Proof.Machine

/-- `STATUS.BUSY`, bit 0 (10_state R31). -/
def busy (s : State) : Bool := s.status.getLsbD 0

/-- `STATUS.DONE`, bit 1 (10_state R31). -/
def done (s : State) : Bool := s.status.getLsbD 1

/-- `STATUS.BUSY <- 1; STATUS.DONE <- 0` (41_dotxf R161); the reserved bits are kept. -/
def statusStarted (w : Word) : Word := (w &&& 0xFFFFFFFFFFFFFFFC#64) ||| 0x1#64

/-- `STATUS.BUSY <- 0; STATUS.DONE <- 1` (41_dotxf R171); the reserved bits are kept. -/
def statusFinished (w : Word) : Word := (w &&& 0xFFFFFFFFFFFFFFFC#64) ||| 0x2#64

end Sys2Proof.Machine
end

