-- ==== Sys2Proof/Machine/Operands.lean ====
section
/-! DEFINITION. Every operand form: the effective addresses, the engine's element reads with their races, and the lanes of
the converter port (20_memory R63, R73; 40_h2s R128). -/

namespace Sys2Proof.Machine

/-- `addr_x(k) = X_BASE + 4·k` (20_memory R63). -/
def addrX (s : State) (k : Nat) : Nat := s.xBase.toNat + 4 * k

/-- `addr_y(i, k) = Y_BASE + 2·(2·i·STRIDE + k)` (20_memory R63). -/
def addrY (s : State) (i k : Nat) : Nat := s.yBase.toNat + 2 * (2 * i * s.stride.toNat + k)

/-- `addr_sum(i) = SUM_BASE + 4·i` (20_memory R63). -/
def addrSum (s : State) (i : Nat) : Nat := s.sumBase.toNat + 4 * i

/-- `addr_sum(i)` of another instance's command (20_memory R63, R74). -/
def peerAddr (p : Peer) (i : Nat) : Nat := p.sumBase.toNat + 4 * i

/-- The byte `b` belongs to `sum[0..FF-1]` of another instance's command (20_memory R74). -/
def inPeerSum (p : Peer) (b : Nat) : Bool := peerAddr p 0 ≤ b && b < peerAddr p (p.f.toNat + 1)

/-- The byte `b` belongs to the `sum` of a command another instance is running (20_memory R74). -/
def inPeerSums (s : State) (b : Nat) : Bool := s.peers.any fun p => inPeerSum p b

/-- Some byte of the access was raced in this command, or is raced now (20_memory R73, R74). -/
def racedIn (s : State) (a n : Nat) : Bool :=
  (List.range n).any fun d => s.raced.contains (a + d) || inPeerSums s (a + d)

/-- The engine's read of `x[k]`; under a race it is the free value `draw` (20_memory R60, R73). -/
def readX (s : State) (draw k : Nat) : Single :=
  if racedIn s (addrX s k) 4 then Config.raceDraw draw else load32 s.mem (addrX s k)

/-- The engine's read of `y_row_i[k]`; under a race it is the free value `draw` (20_memory R60, R73). -/
def readY (s : State) (draw i k : Nat) : Half :=
  if racedIn s (addrY s i k) 2 then (Config.raceDraw draw).setWidth 16 else load16 s.mem (addrY s i k)

/-- Input lane `j` of the converter port: `H2S_IN[16j+15 : 16j]` (40_h2s R128). -/
def inLane (input : BitVec 128) (j : Nat) : Half := input.extractLsb' (16 * j) 16

/-- Output lane `j` of the converter port: `H2S_OUT[32j+31 : 32j]` (40_h2s R128). -/
def outLane (output : BitVec 256) (j : Nat) : Single := output.extractLsb' (32 * j) 32

/-- Eight lanes as one 256-bit value, lane 0 in the low bits (40_h2s R128). -/
def packLanes (lane : Nat → Single) : BitVec 256 :=
  lane 7 ++ lane 6 ++ lane 5 ++ lane 4 ++ lane 3 ++ lane 2 ++ lane 1 ++ lane 0

end Sys2Proof.Machine
end

