-- ==== Sys2Proof/Machine/Dotxf.lean ====
section
/-! DEFINITION. START and the meanings of DOTXF1 to DOTXF8 (41_dotxf R160 to R162, R175 to R182). A command's other steps
are the engine's (Machine/Engine.lean): the host may act between them (41_dotxf R160). -/

namespace Sys2Proof.Machine

/-- `NEXTPHASE(k)` (41_dotxf R162). -/
def nextPhase (s : State) (k : Nat) : Phase :=
  if 8 ≤ s.n.toNat - k then .bulk
  else if 0 < s.n.toNat - k then .rem
  else .red

/-- START's checks, in their order (41_dotxf R161, 60_exceptions R204). -/
def startFault (v : Word) (s : State) : Option Fault :=
  if !isDotxfCmd v then some (.illegalCmd v)
  else if !s.written.xBase then some (.argUnwritten .xBase)
  else if !s.written.yBase then some (.argUnwritten .yBase)
  else if !s.written.stride then some (.argUnwritten .stride)
  else if !s.written.sumBase then some (.argUnwritten .sumBase)
  else if !s.written.n then some (.argUnwritten .n)
  else if s.xBase.toNat % 4 ≠ 0 then some (.misaligned .xBase s.xBase)
  else if s.yBase.toNat % 2 ≠ 0 then some (.misaligned .yBase s.yBase)
  else if s.sumBase.toNat % 4 ≠ 0 then some (.misaligned .sumBase s.sumBase)
  else none

/-- `FF <- v[2:0] + 1` (41_dotxf R161). -/
def fusionOf (v : Word) : BitVec 4 := (v.extractLsb' 0 3).setWidth 4 + 1#4

/-- `ACC[i][j] <- 0x00000000` for rows `i < f`; the other rows are not touched (41_dotxf R161, 10_state R40). -/
def zeroRows (f : Nat) (acc : Vector Lanes 8) : Vector Lanes 8 :=
  Vector.ofFn fun i => if i.val < f then Vector.replicate 8 0x00000000#32 else acc[i]

/-- The writes of START (41_dotxf R161). No byte has been raced in the new command. -/
def started (v : Word) (s : State) : State :=
  { s with
    cmd := v
    written := { s.written with cmd := true }
    ff := fusionOf v
    acc := zeroRows (fusionOf v).toNat s.acc
    k := 0#64
    row := 0#4
    status := statusStarted s.status
    phase := nextPhase s 0
    raced := [] }

/-- The host's write of `v` to `CMD`: `F_BUSY_WRITE` while busy, else START (10_state R33, 41_dotxf R161, 60_exceptions
R204). -/
def startCommand (v : Word) (s : State) : Outcome :=
  if busy s then raise (.busyWrite 0x00 v) s
  else match startFault v s with
    | some f => raise f s
    | none => .next (started v s)

/-- `DOTXF1`, `CMD = 0x10` (41_dotxf R175). -/
def execDotxf1 (s : State) : Outcome := startCommand 0x10#64 s

/-- `DOTXF2`, `CMD = 0x11` (41_dotxf R176). -/
def execDotxf2 (s : State) : Outcome := startCommand 0x11#64 s

/-- `DOTXF3`, `CMD = 0x12` (41_dotxf R177). -/
def execDotxf3 (s : State) : Outcome := startCommand 0x12#64 s

/-- `DOTXF4`, `CMD = 0x13` (41_dotxf R178). -/
def execDotxf4 (s : State) : Outcome := startCommand 0x13#64 s

/-- `DOTXF5`, `CMD = 0x14` (41_dotxf R179). -/
def execDotxf5 (s : State) : Outcome := startCommand 0x14#64 s

/-- `DOTXF6`, `CMD = 0x15` (41_dotxf R180). -/
def execDotxf6 (s : State) : Outcome := startCommand 0x15#64 s

/-- `DOTXF7`, `CMD = 0x16` (41_dotxf R181). -/
def execDotxf7 (s : State) : Outcome := startCommand 0x16#64 s

/-- `DOTXF8`, `CMD = 0x17` (41_dotxf R182). -/
def execDotxf8 (s : State) : Outcome := startCommand 0x17#64 s

end Sys2Proof.Machine
end

