-- ==== Sys2Proof/Machine/H2s.lean ====
section
/-! DEFINITION. The half-to-single converter and the meanings of H2S.S, H2S.N and H2S.W (40_h2s). -/

namespace Sys2Proof.Machine

/-- Steps 1 to 4 of DECODE16: the code without its sign, aligned so that its fraction meets the binary32 fraction
(40_h2s R121). -/
def shr3Nonsign (h : Half) : Single :=
  let widened : Single := h.setWidth 32 <<< 16
  (widened + widened) >>> 4

/-- Step 2 of DECODE16: the sign bit in place (40_h2s R121). -/
def decodeSign (h : Half) : Single := (h.setWidth 32 <<< 16) &&& 0x80000000#32

/-- Step 5 of DECODE16: the normal path (40_h2s R121, R122). -/
def decodeNorm (h : Half) : Single := shr3Nonsign h + 0x38000000#32

/-- Step 6 of DECODE16: `0x3E80 ++ (h + h)` (40_h2s R121). -/
def denormRaw (h : Half) : Single := 0x3E80#16 ++ (h + h)

/-- Step 6 of DECODE16: the denormal path, `SUB32(denorm_raw, 0.25)`. SUB32 never returns `NAN_RESULT` here, so the value
written after `getD` is never taken (40_h2s R123). -/
def decodeDenorm (h : Half) : Single := (subCore (denormRaw h) 0x3E800000#32).getD 0#32

/-- DECODE16 (40_h2s R121): steps 7 and 8, the select by an unsigned compare and the recombination. -/
def decode16 (h : Half) : Single :=
  (if (shr3Nonsign h).toNat < 0x00800000 then decodeDenorm h else decodeNorm h) ||| decodeSign h

/-- `H2S_OUT` at width `w`: lane `j` is DECODE16 of input lane `j` for `j < w`, else 0 (40_h2s R129). -/
def h2sConvert (w : Nat) (input : BitVec 128) : BitVec 256 :=
  packLanes fun j => if j < w then decode16 (inLane input j) else 0x00000000#32

/-- The port with its mode input and the output that follows; nothing else changes (40_h2s R128, R134). -/
def drivePort (mode : BitVec 2) (output : BitVec 256) (s : State) : State := { s with h2sMode := mode, h2sOut := output }

/-- The port driven with the reserved mode: its output is a free value (30_encoding R95, 60_exceptions R207, log 14). -/
def driveOpen (mode : BitVec 2) (input : BitVec 128) (s : State) : State :=
  { s with h2sMode := mode, h2sIn := input, h2sOut := Config.portDraw s.draws, draws := s.draws + 1 }

/-- `H2S.S`: the scalar conversion of `c_0` (40_h2s R130). -/
def execH2sS (s : State) : Outcome := .next (drivePort 0b00#2 (h2sConvert 1 s.h2sIn) s)

/-- `H2S.N`: the narrow conversion of `c_0..c_3` (40_h2s R131). -/
def execH2sN (s : State) : Outcome := .next (drivePort 0b01#2 (h2sConvert 4 s.h2sIn) s)

/-- `H2S.W`: the wide conversion of `c_0..c_7` (40_h2s R132). -/
def execH2sW (s : State) : Outcome := .next (drivePort 0b10#2 (h2sConvert 8 s.h2sIn) s)

end Sys2Proof.Machine
end

