-- ==== Sys2Proof/Machine/Engine.lean ====
section
/-! DEFINITION. The engine steps BULK, REM and RED and the reduction tree (41_dotxf R163 to R171). Each step first asks
`MEM_ADMIT` for its accesses in their order; the first one not admitted raises `F_MEM` (60_exceptions R204). -/

namespace Sys2Proof.Machine

/-- `F_MEM` for the first access that is not admitted, in the order listed (60_exceptions R201, R204). -/
def firstDenied (s : State) (kind : AccessKind) : List (Nat × Nat) → Option Fault
  | [] => none
  | (a, n) :: rest => if admits s kind a n then firstDenied s kind rest else some (.mem kind a n)

/-- BULK's reads: 32 bytes of `x`, then 16 bytes of each row (41_dotxf R163, 20_memory R66). -/
def bulkReads (s : State) : List (Nat × Nat) :=
  (addrX s s.k.toNat, 32) :: (List.range s.ff.toNat).map fun i => (addrY s i s.k.toNat, 16)

/-- REM's reads: 4 bytes of `x`, then 2 bytes of each row (41_dotxf R166, 20_memory R66). -/
def remReads (s : State) : List (Nat × Nat) :=
  (addrX s s.k.toNat, 4) :: (List.range s.ff.toNat).map fun i => (addrY s i s.k.toNat, 2)

/-- How many free values a BULK step passes: 64 NaN results, 8 reads of `x`, 64 reads of `y`. -/
abbrev bulkDraws : Nat := 136

/-- How many free values a REM step passes: 8 NaN results, one read of `x`, 8 reads of `y`. -/
abbrev remDraws : Nat := 17

/-- How many free values a RED step passes: 7 NaN results, one raced `sum` element. -/
abbrev redDraws : Nat := 8

/-- Lane `j` of row `i` after BULK: `FMA32(x[K+j], DECODE16(y_row_i[K+j]), ACC[i][j])` (41_dotxf R163). The wide
converter's lane `j` is DECODE16 of code `j` (40_h2s R133, R135). -/
def bulkLane (s : State) (i j : Nat) (lane : Single) : Single :=
  fma32 (nanResult (s.draws + 8 * i + j)) (readX s (s.draws + 64 + j) (s.k.toNat + j))
    (decode16 (readY s (s.draws + 72 + 8 * i + j) i (s.k.toNat + j))) lane

/-- The writes of BULK (41_dotxf R163). -/
def bulkNext (s : State) : State :=
  { s with
    acc := Vector.ofFn fun i =>
      if i.val < s.ff.toNat then Vector.ofFn fun j => bulkLane s i.val j.val s.acc[i][j] else s.acc[i]
    k := s.k + 8#64
    phase := nextPhase s (s.k + 8#64).toNat
    draws := s.draws + bulkDraws }

/-- BULK (41_dotxf R163). -/
def engineBulk (s : State) : Outcome :=
  match firstDenied s .read (bulkReads s) with
  | some f => raise f s
  | none => .next (bulkNext s)

/-- One remainder element into a lane: one FMA32, or, when `REM_FUSED` is false, a rounded multiply and a rounded add;
`none` where the result is `NAN_RESULT` (41_dotxf R167). -/
def remCore (fused : Bool) (x d lane : Single) : Option Single :=
  if fused then fmaCore x d lane else (mulCore x d).bind fun p => addCore p lane

/-- Lane 0 of row `i` after REM (41_dotxf R166, R168). -/
def remLane (s : State) (i : Nat) (lane : Single) : Single :=
  (remCore s.params.remFused (readX s (s.draws + 8) s.k.toNat) (decode16 (readY s (s.draws + 9 + i) i s.k.toNat))
    lane).getD (nanResult (s.draws + i))

/-- The writes of REM: lane 0 of each row; lanes 1 to 7 are not written (41_dotxf R166, R168). -/
def remNext (s : State) : State :=
  { s with
    acc := Vector.ofFn fun i => if i.val < s.ff.toNat then s.acc[i].set 0 (remLane s i.val s.acc[i][0]) else s.acc[i]
    k := s.k + 1#64
    phase := nextPhase s (s.k + 1#64).toNat
    draws := s.draws + remDraws }

/-- REM (41_dotxf R166). -/
def engineRem (s : State) : Outcome :=
  match firstDenied s .read (remReads s) with
  | some f => raise f s
  | none => .next (remNext s)

/-- `RTREE`: `((a0+a4) + (a1+a5)) + ((a2+a6) + (a3+a7))`, each sum one ADD32 with a NaN draw of its own (41_dotxf R170). -/
def rtree (nan : Nat → Single) (a : Lanes) : Single :=
  let v0 := add32 (nan 0) a[0] a[4]
  let v1 := add32 (nan 1) a[1] a[5]
  let v2 := add32 (nan 2) a[2] a[6]
  let v3 := add32 (nan 3) a[3] a[7]
  let w0 := add32 (nan 4) v0 v1
  let w1 := add32 (nan 5) v2 v3
  add32 (nan 6) w0 w1

/-- The lanes of accumulator row `i`. No reachable state asks for a row above 7. -/
def accRow (s : State) (i : Nat) : Lanes := s.acc[i]?.getD (Vector.replicate 8 0#32)

/-- The single RED writes: the tree of row `ROW`, or a free value where that `sum` element is raced
(41_dotxf R171, 20_memory R73, R74). -/
def redValue (s : State) : Single :=
  if racedIn s (addrSum s s.row.toNat) 4 then Config.raceDraw (s.draws + 7)
  else rtree (fun j => nanResult (s.draws + j)) (accRow s s.row.toNat)

/-- The writes of RED (41_dotxf R171). The last row ends the command. -/
def redNext (s : State) : State :=
  let mem := store32 s.mem (addrSum s s.row.toNat) (redValue s)
  let last := s.row + 1#4 == s.ff
  { s with
    mem := mem
    row := s.row + 1#4
    phase := if last then .idle else .red
    status := if last then statusFinished s.status else s.status
    draws := s.draws + redDraws }

/-- RED (41_dotxf R171). -/
def engineRed (s : State) : Outcome :=
  match firstDenied s .write [(addrSum s s.row.toNat, 4)] with
  | some f => raise f s
  | none => .next (redNext s)

/-- The engine's one enabled step, chosen by `PHASE` (41_dotxf R160). In IDLE it takes none (60_exceptions R215). -/
def engineStep (s : State) : Outcome :=
  match s.phase with
  | .idle => .next s
  | .bulk => engineBulk s
  | .rem => engineRem s
  | .red => engineRed s

end Sys2Proof.Machine
end

