-- ==== Sys2Proof/Machine/Dispatch.lean ====
section
/-! DEFINITION. One arm per constructor of Instr, each one direct call of its meaning. -/

namespace Sys2Proof.Machine

def exec (i : Instr) (s : State) : Host.Outcome State Fault Refusal :=
  match i with
  | .dotxf1 => Sys2Proof.Machine.execDotxf1 s
  | .dotxf2 => Sys2Proof.Machine.execDotxf2 s
  | .dotxf3 => Sys2Proof.Machine.execDotxf3 s
  | .dotxf4 => Sys2Proof.Machine.execDotxf4 s
  | .dotxf5 => Sys2Proof.Machine.execDotxf5 s
  | .dotxf6 => Sys2Proof.Machine.execDotxf6 s
  | .dotxf7 => Sys2Proof.Machine.execDotxf7 s
  | .dotxf8 => Sys2Proof.Machine.execDotxf8 s
  | .h2sS => Sys2Proof.Machine.execH2sS s
  | .h2sN => Sys2Proof.Machine.execH2sN s
  | .h2sW => Sys2Proof.Machine.execH2sW s

end Sys2Proof.Machine
end

