-- ==== Sys2Proof/Machine/Race.lean ====
section
/-! DEFINITION. The host's memory accesses and their races with running commands (20_memory R72, R73, R74). While
`BUSY = 0`, or outside the command's elements, an access is ordinary. Under a race every affected value is a free value:
- an element the host writes and the engine reads later is drawn at the read (Machine/Operands.lean);
- an element the host writes after the engine read it spoils what was made of it: the lane it went into, or the `sum`
  element already written from that row (log 12);
- a `sum` element the host writes is drawn at once and again when RED writes it. -/

namespace Sys2Proof.Machine

/-- The element at `base + size·e`, `e < count`, that the byte `b` belongs to. -/
def elementAt (base size count b : Nat) : Option Nat :=
  if base ≤ b && (b - base) / size < count then some ((b - base) / size) else none

/-- The lane that element `k` of a row of `n` elements goes into (41_dotxf R169). -/
def laneOf (n k : Nat) : Nat := if k < 8 * (n / 8) then k % 8 else 0

/-- The byte `b` belongs to an element, already consumed by row `i`, of the lane `j`. -/
def byteSpoilsLane (s : State) (i j b : Nat) : Bool :=
  (elementAt s.xBase.toNat 4 s.k.toNat b).map (laneOf s.n.toNat) == some j ||
    (elementAt (addrY s i 0) 2 s.k.toNat b).map (laneOf s.n.toNat) == some j

/-- The byte `b` belongs to an element already consumed by row `i`. -/
def byteSpoilsRow (s : State) (i b : Nat) : Bool :=
  (elementAt s.xBase.toNat 4 s.k.toNat b).isSome || (elementAt (addrY s i 0) 2 s.k.toNat b).isSome

/-- The byte `b` belongs to `sum[i]`. -/
def inSum (s : State) (i b : Nat) : Bool := addrSum s i ≤ b && b < addrSum s i + 4

/-- A raced access of `len` bytes at `a` spoils lane `j` of row `i`, a row RED has not reduced yet. -/
def laneSpoilt (s : State) (a len i j : Nat) : Bool :=
  i < s.ff.toNat && s.row.toNat ≤ i && (List.range len).any fun d => byteSpoilsLane s i j (a + d)

/-- A raced access of `len` bytes at `a` makes `sum[i]` hold any value: it touches `sum[i]`, or it spoils an element of a
row already reduced. -/
def sumSpoilt (s : State) (a len i : Nat) : Bool :=
  i < s.ff.toNat && (List.range len).any fun d =>
    inSum s i (a + d) || (i < s.row.toNat && byteSpoilsRow s i (a + d))

/-- Of `rows` single elements from element `i` of the array at `base`, those that are `hit` now hold any value. -/
def drawElements (base : Nat) (hit : Nat → Bool) (draw : Nat) : Nat → Nat → Memory → Memory
  | 0, _, m => m
  | rows + 1, i, m =>
    drawElements base hit draw rows (i + 1) (if hit i then store32 m (base + 4 * i) (Config.raceDraw (draw + i)) else m)

/-- The `sum` elements of the running command that an access spoils now hold any value (20_memory R73). -/
def drawSums (a len : Nat) (s : State) : Memory :=
  drawElements s.sumBase.toNat (sumSpoilt s a len) (s.draws + 64) 8 0 s.mem

/-- A write of `len` bytes at `a` shares a byte with `sum[i]` of another instance's command; one of no bytes shares none. -/
def touchesPeer (p : Peer) (a len i : Nat) : Bool :=
  0 < len && peerAddr p i < a + len && a < peerAddr p i + 4

/-- The `sum` elements of commands other instances are running that a write of `len` bytes at `a` touches now hold any
value (20_memory R73, R74). -/
def drawPeerSums (a len draw : Nat) : List Peer → Memory → Memory
  | [], m => m
  | p :: rest, m =>
    drawPeerSums a len (draw + 8) rest
      (drawElements p.sumBase.toNat (touchesPeer p a len) draw (p.f.toNat + 1) 0 m)

/-- How many free values the writes to other instances' `sum` elements pass. -/
abbrev peerDraws (s : State) : Nat := 8 * s.peers.length

/-- What becomes of the running command when `len` bytes at `a` are raced: lanes and `sum` elements made of them hold any
value, and later reads of them are drawn (20_memory R73, R74). -/
def raceTouch (a len : Nat) (s : State) : State :=
  { s with
    mem := drawSums a len s
    acc := Vector.ofFn fun i => Vector.ofFn fun j =>
      if laneSpoilt s a len i.val j.val then Config.raceDraw (s.draws + 8 * i.val + j.val) else s.acc[i][j]
    raced := (List.range len).map (fun d => a + d) ++ s.raced
    draws := s.draws + 72 }

/-- A host write to memory: its bytes, and free values in the elements it races in other instances' sums (20_memory R72,
R74). Where it touches none it is an ordinary write. -/
def plainStore (a : Nat) (bytes : List Byte) (s : State) : State :=
  { s with
    mem := drawPeerSums a bytes.length s.draws s.peers (writeBytes s.mem a bytes)
    draws := s.draws + peerDraws s }

/-- A host write while `BUSY = 1` (20_memory R73). -/
def raceStore (a : Nat) (bytes : List Byte) (s : State) : State := raceTouch a bytes.length (plainStore a bytes s)

/-- A host memory write. Bytes past the data space do not exist: such an access is none of the interactions listed, and
is refused (60_exceptions R207, log 16). -/
def hostStore (a : Nat) (bytes : List Byte) (s : State) : Outcome :=
  if Config.memSize < a + bytes.length then refuse s
  else if busy s then .next (raceStore a bytes s)
  else .next (plainStore a bytes s)

/-- The byte `b` belongs to a `sum` element of the running command. -/
def inSums (s : State) (b : Nat) : Bool := (List.range s.ff.toNat).any fun i => inSum s i b

/-- The byte a host read returns: a free value for a `sum` byte of a running command, this instance's or another's
(20_memory R73, R74), else memory's. -/
def hostByte (s : State) (b draw : Nat) : Byte :=
  if (busy s && inSums s b) || inPeerSums s b then (Config.raceDraw draw).setWidth 8 else readByte s.mem b

/-- The state after a host memory read: the bytes observed, memory unchanged (20_memory R68, R72). -/
def loaded (a size : Nat) (s : State) : State :=
  { s with
    observed := some (.memory a ((List.range size).map fun d => hostByte s (a + d) (s.draws + d)))
    draws := s.draws + size }

/-- A host memory read. -/
def hostLoad (a size : Nat) (s : State) : Outcome :=
  if Config.memSize < a + size then refuse s else .next (loaded a size s)

end Sys2Proof.Machine
end

