-- ==== Sys2Proof/Machine/Peers.lean ====
section
/-! DEFINITION. Other HSDOT instances on the same memory (20_memory R74, 60_exceptions R213). An instance is known by the
command it runs: where its results go and how many rows are still to come. Its `sum` may not overlap what this instance's
running command reads or writes; where it does, the draws of R73 follow for every element that overlaps, from the moment
both commands run (log 20). What it computes is its own, so each single it writes is a free value. -/

namespace Sys2Proof.Machine

/-- The bytes of `sum[0..FF-1]` of another instance's command. -/
def peerBytes (p : Peer) : List Nat := (List.range (4 * (p.f.toNat + 1))).map fun d => peerAddr p 0 + d

/-- Another instance's command is listed as running. -/
def addPeer (p : Peer) (s : State) : State := { s with peers := s.peers ++ [p] }

/-- Another instance's command runs no more; its `sum` stays raced for the command running here (20_memory R74). -/
def endPeer (i : Nat) (p : Peer) (s : State) : State :=
  { s with peers := s.peers.eraseIdx i, raced := peerBytes p ++ s.raced }

/-- Another instance's command has written its next row. -/
def advancePeer (i : Nat) (p : Peer) (s : State) : State := { s with peers := s.peers.set i { p with row := p.row + 1#3 } }

/-- A RED step of another instance stores its single, a free value here. -/
def peerStore (p : Peer) (s : State) : State :=
  { s with mem := store32 s.mem (peerAddr p p.row.toNat) (Config.raceDraw s.draws), draws := s.draws + 1 }

/-- START of another instance. With a misaligned base it faults there, and nothing runs (41_dotxf R161, 60_exceptions R205);
with a command running here its whole `sum` is raced from now on (20_memory R74). -/
def peerStarts (sumBase : Word) (f : BitVec 3) (s : State) : Outcome :=
  if sumBase.toNat % 4 ≠ 0 then .next s
  else if busy s then .next (raceTouch sumBase.toNat (4 * (f.toNat + 1)) (addPeer ⟨sumBase, f, 0#3⟩ s))
  else .next (addPeer ⟨sumBase, f, 0#3⟩ s)

/-- RED of another instance (41_dotxf R171): its next row, and after the last one its command has ended. A write not
admitted faults there: that instance takes no step more and this one is not touched (60_exceptions R205). The spec does not
say whether an instance has a `MEM_ADMIT` of its own (00_scope R8, R23); that this launch's is asked for it too is the
model's choice, DESIGN CHOICE (log 29). -/
def peerReds (i : Nat) (s : State) : Outcome :=
  match s.peers[i]? with
  | none => refuse s
  | some p =>
    if !admits s .write (peerAddr p p.row.toNat) 4 then .next s
    else if p.row = p.f then .next (endPeer i p (peerStore p s))
    else .next (advancePeer i p (peerStore p s))

/-- Reset of another instance abandons its command (70_reset_and_hazards R231). -/
def peerResets (i : Nat) (s : State) : Outcome :=
  match s.peers[i]? with
  | none => refuse s
  | some p => .next (endPeer i p s)

end Sys2Proof.Machine
end

