-- ==== Sys2Proof/Machine/Interact.lean ====
section
/-! DEFINITION. The host's interactions (10_state R33 to R35, 30_encoding R97, R98, 70_reset_and_hazards R236). A write of
`CMD` and a drive of the port are where the block meets an instruction: the encoded word is decoded and run by `exec`. -/

namespace Sys2Proof.Machine

/-- A host write of `CMD`: the command it decodes to, or START's own answer to a value that is none (30_encoding R94). -/
def writeCmd (v : Word) (s : State) : Outcome :=
  match decode (.cmdw v) with
  | .accepted i => exec i s
  | .illegalCmd w => startCommand w s
  | .reservedMode => refuse s

/-- A window write to a register that is there, other than `CMD` (10_state R34, R35). -/
def writeReg (r : WinReg) (offset : Nat) (v : Word) (s : State) : Outcome :=
  if busy s then raise (.busyWrite offset v) s else .next (storeArg r v s)

/-- `WREG` (30_encoding R97): `F_BAD_REG`, then `F_BUSY_WRITE`, then START's checks (60_exceptions R204). An offset
outside the 0x40-byte window is no window access, and is refused (log 15). -/
def windowWrite (offset width : Nat) (v : Word) (s : State) : Outcome :=
  if 0x40 ≤ offset then refuse s
  else match windowReg offset width with
    | none => raise (.badReg offset width) s
    | some .cmd => writeCmd v s
    | some .status => writeReg .status offset v s
    | some .xBase => writeReg .xBase offset v s
    | some .yBase => writeReg .yBase offset v s
    | some .stride => writeReg .stride offset v s
    | some .sumBase => writeReg .sumBase offset v s
    | some .n => writeReg .n offset v s

/-- `RREG` (30_encoding R97): `F_BAD_REG`, then `F_UNWRITTEN` (60_exceptions R204), else the current value, also while
busy. 10_state R35: a read of a register "that has not been written since reset raises `F_UNWRITTEN`". -/
def windowRead (offset width : Nat) (s : State) : Outcome :=
  if 0x40 ≤ offset then refuse s
  else match windowReg offset width with
    | none => raise (.badReg offset width) s
    | some r => if isWritten r s then .next (observe (.window offset (regValue r s)) s) else raise (.unwritten offset) s

/-- One poll of `WAIT`: read `STATUS`; while `DONE` is 0 the wait stays at the head of the queue (30_encoding R98,
70_reset_and_hazards R237, log 18). -/
def pollWait (s : State) : State :=
  let polled := observe (.window 0x08 (regValue .status s)) s
  if done s then polled else { polled with hostQueue := .wait :: polled.hostQueue }

/-- Put a value on `H2S_IN`. -/
def setInput (input : BitVec 128) (s : State) : State := { s with h2sIn := input }

/-- Drive the converter port: the operation `H2S_MODE` decodes to, or refused for mode 11, whose output has no meaning
(40_h2s R128, 30_encoding R95, 60_exceptions R207). -/
def drivePins (mode : BitVec 2) (input : BitVec 128) (s : State) : Outcome :=
  match decode (.h2sm mode) with
  | .accepted i => exec i (setInput input s)
  | .illegalCmd _ => refuse s
  | .reservedMode => refuse (driveOpen mode input s)

/-- One host interaction (70_reset_and_hazards R236), or one step of another instance (20_memory R74); `s` is the state
with the interaction taken from the queue. -/
def hostAct (a : HostAction) (s : State) : Outcome :=
  match a with
  | .wreg offset width v => windowWrite offset width v s
  | .rreg offset width => windowRead offset width s
  | .wait => .next (pollWait s)
  | .memWrite addr bytes => hostStore addr bytes s
  | .memRead addr size => hostLoad addr size s
  | .driveH2s mode input => drivePins mode input s
  | .reset => .next (resetBlock s)
  | .peerStart sumBase f => peerStarts sumBase f s
  | .peerRed i => peerReds i s
  | .peerReset i => peerResets i s
  | .unlisted => refuse s

/-- The host interaction that presents an encoded word to the block: the write of `CMD`, or the port driven with that mode
and the input it has (30_encoding R90, R96). -/
def presentWord (e : Encoded) (s : State) : HostAction :=
  match e with
  | .cmdw v => .wreg 0x00 64 v
  | .h2sm m => .driveH2s m s.h2sIn

/-- The expansion of `DOTXF<F> x, y, stride, sum, n` (30_encoding R98). -/
def dotxfProgram (f : Nat) (x y stride sum n : Word) : List HostAction :=
  [.wreg 0x10 64 x, .wreg 0x18 64 y, .wreg 0x20 64 stride, .wreg 0x28 64 sum, .wreg 0x30 64 n,
   .wreg 0x00 64 (BitVec.ofNat 64 (0x10 + (f - 1))), .wait]

end Sys2Proof.Machine
end

