-- ==== Sys2Proof/Machine/Sequencer.lean ====
section
/-! DEFINITION. Whose step comes next, and that step (10_state R30, 20_memory R72, 60_exceptions R205, 70 R239). -/

namespace Sys2Proof.Machine

/-- The host has an interaction to make. -/
def hostReady (s : State) : Bool := !s.hostQueue.isEmpty

/-- The engine has an enabled step (41_dotxf R160). -/
def engineReady (s : State) : Bool := s.phase != .idle

/-- The agent that moves: the schedule's next entry if that agent has a step, else the other. With no entry left the
engine goes first, so a command ends (weak fairness, 70 R239; log 2). None: the block waits in IDLE and the host is
silent. -/
def turn (s : State) : Option Agent :=
  if s.schedule.head? = some .host then
    if hostReady s then some .host else if engineReady s then some .engine else none
  else if engineReady s then some .engine
  else if hostReady s then some .host
  else none

/-- The host's step: its next interaction. -/
def hostStep (s : State) : Outcome :=
  match s.hostQueue with
  | [] => .next s
  | a :: _ => hostAct a (popHost s)

/-- After a fault no agent of the block steps: the outcome is that fault, unless the block is reset (60_exceptions R205,
R206; log 1, 17). R205 says nothing of other instances on the same memory; that their steps, too, are no longer taken here
is the model's choice, DESIGN CHOICE (log 28). -/
def faultedStep (f : Fault) (s : State) : Outcome :=
  match s.hostQueue with
  | .reset :: _ => .next (resetBlock (popHost s))
  | _ => .fault f

/-- No agent has a step. The state stays as it is (60_exceptions R215, log 21); with the refusal mark set it is no end of a
run, and the outcome says so (60_exceptions R207, log 14). -/
def restingStep (s : State) : Outcome := if s.refusalMark then .refused .refusalMarked else .next s

/-- One step of the whole block and its host. A set refusal mark stops no agent (70_reset_and_hazards R239). -/
def blockStep (s : State) : Outcome :=
  match s.faultRec with
  | some f => faultedStep f s
  | none =>
    match turn s with
    | some .engine => engineStep (popSchedule s)
    | some .host => hostStep (popSchedule s)
    | none => restingStep s

/-- `s` with an encoded word as the host's very next interaction and the host to move. -/
def presentNext (e : Encoded) (s : State) : State :=
  { s with hostQueue := presentWord e s :: s.hostQueue, schedule := .host :: s.schedule }

end Sys2Proof.Machine
end

