-- ==== Sys2Proof/Machine/Step.lean ====
section
/-! DEFINITION. One step of the machine, and the state that runs a given table word next. -/

namespace Sys2Proof.Machine

/-- One step. -/
def step (s : State) : Host.Outcome State Fault Refusal := blockStep s

/-- `s` with the instruction of an opcode-table word presented by the host at the very next step: the block fetches
nothing, a command is a write of `CMD` and a conversion a drive of the port (20_memory R61, log 3). -/
def State.withFetchWord (s : State) (nbits w : Nat) : State := presentNext (encodedOfTableWord nbits w) s

end Sys2Proof.Machine
end

