-- ==== Sys2Proof/Safety.lean ====
section
/-! DEFINITION. The terms claims are stated in: a healthy block, a block ready for a command, the invariants every step
keeps, the values of the two number formats, and the result of a row (00_scope R16, R17; 10_state R34, R38, R39; 41_dotxf
R165, R169, R170; 70_reset_and_hazards R232). -/

namespace Sys2Proof.Machine

/-- No fault recorded and the refusal mark clear (70_reset_and_hazards R232). -/
abbrev healthy (s : State) : Prop := s.faultRec = none ∧ s.refusalMark = false

/-- The bases are aligned (20_memory R65). -/
abbrev basesAligned (s : State) : Prop :=
  s.xBase.toNat % 4 = 0 ∧ s.yBase.toNat % 2 = 0 ∧ s.sumBase.toNat % 4 = 0

/-- A `DOTXF` command written now starts: the block is idle, the arguments are written and the bases aligned
(41_dotxf R161). -/
abbrev readyToStart (s : State) : Prop := busy s = false ∧ argsWritten s = true ∧ basesAligned s

/-- `DOTXF1` to `DOTXF8` with the fusion factor and the `CMD` value of each (30_encoding R91). -/
def dotxfTable : List (Instr × Nat × Word) :=
  [(.dotxf1, 1, 0x10#64), (.dotxf2, 2, 0x11#64), (.dotxf3, 3, 0x12#64), (.dotxf4, 4, 0x13#64),
   (.dotxf5, 5, 0x14#64), (.dotxf6, 6, 0x15#64), (.dotxf7, 7, 0x16#64), (.dotxf8, 8, 0x17#64)]

/-- `H2S.S`, `H2S.N` and `H2S.W` with the mode and the width of each (30_encoding R92). -/
def h2sTable : List (Instr × BitVec 2 × Nat) := [(.h2sS, 0b00#2, 1), (.h2sN, 0b01#2, 4), (.h2sW, 0b10#2, 8)]

/-- The sequencing state and STATUS agree, and the counters are in range (10_state R34, R38, R39; 41_dotxf R161 to
R171). -/
structure SeqInv (s : State) : Prop where
  /-- `PHASE = IDLE` exactly when `BUSY = 0` (10_state R38). -/
  idle_iff : s.phase = .idle ↔ busy s = false
  /-- `BUSY` and `DONE` never hold together (10_state R34). -/
  not_both : ¬(busy s = true ∧ done s = true)
  /-- `STATUS` bits [63:2] are 0 (10_state R31). -/
  reserved : s.status.extractLsb' 2 62 = 0#62
  /-- `FF` is in 1..8 (10_state R38). -/
  ff_range : 1 ≤ s.ff.toNat ∧ s.ff.toNat ≤ 8
  /-- In BULK at least eight elements remain and `K` is a multiple of 8 (10_state R39, 41_dotxf R163). -/
  in_bulk : s.phase = .bulk → s.k.toNat + 8 ≤ s.n.toNat ∧ s.k.toNat % 8 = 0 ∧ s.row = 0#4
  /-- In REM one to seven elements remain (41_dotxf R166). -/
  in_rem : s.phase = .rem → s.k.toNat < s.n.toNat ∧ s.n.toNat < s.k.toNat + 8 ∧ s.row = 0#4
  /-- In RED every element is consumed and a row remains (41_dotxf R171). -/
  in_red : s.phase = .red → s.k = s.n ∧ s.row.toNat < s.ff.toNat
  /-- While a command runs its arguments are written, its bases aligned, and `CMD` is its opcode (41_dotxf R161, R187). -/
  args : s.phase ≠ .idle →
    argsWritten s = true ∧ basesAligned s ∧ s.written.cmd = true ∧ s.cmd.toNat = 0x10 + (s.ff.toNat - 1)

/-- Every command another instance runs passed its START's check of `SUM_BASE` and still has a row to write (20_memory R65,
R74, 41_dotxf R171). -/
abbrev peersInv (s : State) : Prop := ∀ p ∈ s.peers, p.sumBase.toNat % 4 = 0 ∧ p.row.toNat ≤ p.f.toNat

/-- Memory is in canonical form (log 6). -/
abbrev memInv (s : State) : Prop := Memory.wf s.mem = true

/-- `H2S_OUT` is a function of the two inputs alone (40_h2s R128): for each listed mode, the conversion of that width. -/
def portInv (s : State) : Prop := ∀ i m w, (i, m, w) ∈ h2sTable → s.h2sMode = m → s.h2sOut = h2sConvert w s.h2sIn

/-- The next host interaction is a reset. -/
abbrev resetNext (s : State) : Prop := s.hostQueue.head? = some .reset

/-- The engine steps a running command has left (41_dotxf R160). -/
def stepsLeft (s : State) : Nat :=
  match s.phase with
  | .idle => 0
  | _ => (s.n.toNat - s.k.toNat) / 8 + (s.n.toNat - s.k.toNat) % 8 + (s.ff.toNat - s.row.toNat)

/-! Values. -/

/-- `halfval(h) · 2^24`, an integer (00_scope R17). -/
def halfScaled (h : Half) : Int :=
  let e := (h.extractLsb' 10 5).toNat
  let m := (h.extractLsb' 0 10).toNat
  withSign (h.getLsbD 15) (if e = 0 then m else (1024 + m) * 2 ^ (e - 1))

/-- The value of a finite single times 2^149, an integer (00_scope R16). -/
def singleScaled (b : Single) : Int := withSign (signBit b) (sig b * 2 ^ (scale b - 1))

/-- DECODE16 in closed form (40_h2s R127). -/
def decode16Closed (h : Half) : Nat :=
  let s := if h.getLsbD 15 then 1 else 0
  let e := (h.extractLsb' 10 5).toNat
  let m := (h.extractLsb' 0 10).toNat
  let p := Nat.log2 m
  if e ≠ 0 then s * 2 ^ 31 + (e + 112) * 2 ^ 23 + m * 2 ^ 13
  else if m = 0 then s * 2 ^ 31
  else s * 2 ^ 31 + (p + 103) * 2 ^ 23 + (m - 2 ^ p) * 2 ^ (23 - p)

/-! The result of one row, as a function of its elements alone (41_dotxf R165, R169, R170, R174). `none` says that some
operation on the way returns `NAN_RESULT`: the row's single is then a NaN of free pattern (00_scope R21). -/

/-- Lane `j` after `t` BULK steps: `A_t[i][j]` (41_dotxf R165). -/
def laneAfterBulk (x : Nat → Single) (y : Nat → Half) (j : Nat) : Nat → Option Single
  | 0 => some 0x00000000#32
  | t + 1 => (laneAfterBulk x y j t).bind fun a => fmaCore (x (8 * t + j)) (decode16 (y (8 * t + j))) a

/-- Lane 0 after `q` REM steps on top of `start`: `R_q` (41_dotxf R169), or its unfused reading (41_dotxf R167). -/
def laneAfterRem (fused : Bool) (x : Nat → Single) (y : Nat → Half) (first : Nat) (start : Option Single) :
    Nat → Option Single
  | 0 => start
  | q + 1 =>
    (laneAfterRem fused x y first start q).bind fun a => remCore fused (x (first + q)) (decode16 (y (first + q))) a

/-- Lane `j` of the row entering RED: `ACC_final[i][j]` (41_dotxf R169). -/
def finalLane (fused : Bool) (n : Nat) (x : Nat → Single) (y : Nat → Half) (j : Nat) : Option Single :=
  if j = 0 then laneAfterRem fused x y (8 * (n / 8)) (laneAfterBulk x y 0 (n / 8)) (n % 8)
  else laneAfterBulk x y j (n / 8)

/-- ADD32 of two lanes. -/
def addLanes (a b : Option Single) : Option Single := a.bind fun u => b.bind fun v => addCore u v

/-- RTREE (41_dotxf R170). -/
def treeOf (a : Nat → Option Single) : Option Single :=
  addLanes (addLanes (addLanes (a 0) (a 4)) (addLanes (a 1) (a 5)))
    (addLanes (addLanes (a 2) (a 6)) (addLanes (a 3) (a 7)))

/-- The single written for a row of `n` elements (41_dotxf R172). -/
def rowResult (fused : Bool) (n : Nat) (x : Nat → Single) (y : Nat → Half) : Option Single :=
  treeOf (finalLane fused n x y)

/-- A pattern agrees with a result: it is that single, or any NaN where the result is `NAN_RESULT` (00_scope R21). -/
def agrees (result : Option Single) (b : Single) : Prop :=
  match result with
  | some r => b = r
  | none => isNaN b = true

/-- No byte of the access is raced: written by the host in this command, or in the `sum` of a command that another instance
runs or ran beside it (20_memory R73, R74). -/
abbrev unraced (s : State) (a n : Nat) : Prop :=
  ∀ d < n, a + d ∉ s.raced ∧ ∀ p ∈ s.peers, a + d < peerAddr p 0 ∨ peerAddr p (p.f.toNat + 1) ≤ a + d

/-- The condition of 20_memory R74 for a command of fusion factor `f` written now: no byte in the `sum` of a command that
another instance is running belongs to its `x`, its rows or its `sum`. -/
abbrev peersApart (s : State) (f : Nat) : Prop :=
  ∀ p ∈ s.peers, ∀ d < 4 * (p.f.toNat + 1),
    (∀ k < s.n.toNat, peerAddr p 0 + d < addrX s k ∨ addrX s k + 4 ≤ peerAddr p 0 + d) ∧
    (∀ i < f, ∀ k < s.n.toNat, peerAddr p 0 + d < addrY s i k ∨ addrY s i k + 2 ≤ peerAddr p 0 + d) ∧
    (∀ i < f, peerAddr p 0 + d < addrSum s i ∨ addrSum s i + 4 ≤ peerAddr p 0 + d)

/-- The element reads of a command of fusion factor `f`, and its writes, are admitted (70_reset_and_hazards R233). -/
abbrev commandAdmitted (s : State) (f : Nat) : Prop :=
  (∀ k < s.n.toNat, admits s .read (addrX s k) 4 = true ∧
    ∀ i < f, admits s .read (addrY s i k) 2 = true) ∧
  ∀ i < f, admits s .write (addrSum s i) 4 = true

end Sys2Proof.Machine
end

