-- ==== Sys2Proof/Certificates/Slice0/Obligations.lean ====
section
/-! DEFINITION. The statements for the provers, from the numbered rules of spec/. A value an operation leaves as
`NAN_RESULT` is compared by `agrees`: it is then any NaN pattern. No statement rests on the value of a free value or of
the counter `draws`. -/

open Sys2Proof Sys2Proof.Machine

/-! Encoding. -/

/-- 30_encoding R91, R92, R94, R95: the words of the two opcode maps, written out, and reserved words beside them. -/
def Obligations.SpecWordsDecode : Prop :=
  decode (.cmdw 0x0000000000000010#64) = .accepted .dotxf1 ∧
  decode (.cmdw 0x0000000000000013#64) = .accepted .dotxf4 ∧
  decode (.cmdw 0x0000000000000017#64) = .accepted .dotxf8 ∧
  decode (.cmdw 0x000000000000000F#64) = .illegalCmd 0x0F#64 ∧
  decode (.cmdw 0x0000000000000018#64) = .illegalCmd 0x18#64 ∧
  decode (.cmdw 0x0000000100000010#64) = .illegalCmd 0x0000000100000010#64 ∧
  decode (.h2sm 0b00#2) = .accepted .h2sS ∧
  decode (.h2sm 0b01#2) = .accepted .h2sN ∧
  decode (.h2sm 0b10#2) = .accepted .h2sW ∧
  decode (.h2sm 0b11#2) = .reservedMode

/-- 30_encoding R91: the eight opcodes, that a value is a command exactly when its bits above [2:0] read `0x10`, and
that then F = v[2:0] + 1. -/
def Obligations.DotxfOpcodeMap : Prop :=
  (∀ i f v, (i, f, v) ∈ dotxfTable → decode (.cmdw v) = .accepted i ∧ i.fusion = some f) ∧
  (∀ v : Word, (∃ i, decode (.cmdw v) = .accepted i) ↔ v &&& 0xFFFFFFFFFFFFFFF8#64 = 0x0000000000000010#64) ∧
  (∀ v i, decode (.cmdw v) = .accepted i → i.fusion = some ((v.extractLsb' 0 3).toNat + 1))

/-- 30_encoding R90 to R96: decode and encode are inverse to each other, and the words that decode are exactly those
whose fields read as the format demands. -/
def Obligations.DecodeEncodeAgree : Prop :=
  (∀ i, decode (encode i) = .accepted i) ∧
  (∀ e i, decode e = .accepted i → encode i = e) ∧
  (∀ e, (∃ i, decode e = .accepted i) ↔ Encoded.wellFormed e = true)

/-- 30_encoding R94: which values are illegal, and that a host write of one while `BUSY = 0` raises `F_ILLEGAL_CMD` and
starts nothing. -/
def Obligations.IllegalCommandFaults : Prop :=
  (∀ v : Word, v &&& 0xFFFFFFFFFFFFFFF8#64 ≠ 0x10#64 ↔ v.extractLsb' 3 5 ≠ 0b00010#5 ∨ v.extractLsb' 8 56 ≠ 0#56) ∧
  (∀ b, b < 0x10 ∨ (0x18 ≤ b ∧ b ≤ 0xFF) → BitVec.ofNat 64 b &&& 0xFFFFFFFFFFFFFFF8#64 ≠ 0x10#64) ∧
  (∀ (v : Word) (s : State), busy s = false → v &&& 0xFFFFFFFFFFFFFFF8#64 ≠ 0x10#64 →
    hostAct (.wreg 0x00 64 v) s = .next { s with faultRec := some (.illegalCmd v) })

/-! Reset, faults and refusals. -/

/-- 70_reset_and_hazards R230, 10_state R44: what reset leaves, and that it does not touch data memory. Where the spec
leaves a value unspecified nothing is stated. That a step with nothing to do leaves the state as it is is the model's
choice (log 21). -/
def Obligations.ResetLeavesSpecValues : Prop :=
  (State.reset.status = 0#64 ∧ State.reset.phase = .idle ∧ State.reset.faultRec = none ∧
    State.reset.refusalMark = false ∧ State.reset.written = ⟨false, false, false, false, false, false⟩) ∧
  ∀ s : State, ∃ t, hostAct .reset s = .next t ∧ t.status = 0#64 ∧ t.phase = .idle ∧ t.faultRec = none ∧
    t.refusalMark = false ∧ t.written = ⟨false, false, false, false, false, false⟩ ∧ t.mem = s.mem ∧
    (t.hostQueue = [] → step t = .next t)

/-- 60_exceptions R206: a step from a faulted state is that fault; no step but a reset gets away from it, and reset
clears the record. That the stop shows as the outcome of the step after the faulting one is the model's choice (log 1),
and so is that the steps of other instances, of which R205 says nothing, are no longer taken here (log 28). -/
def Obligations.FaultIsTerminal : Prop :=
  (∀ (s : State) (f : Fault), s.faultRec = some f → ¬resetNext s → step s = .fault f) ∧
  (∀ (s t : State) (f : Fault), s.faultRec = some f → step s = .next t →
    resetNext s ∧ t.faultRec = none ∧ t.mem = s.mem)

/-- 60_exceptions R205, R207: a step that records a fault changes nothing else, on a block refused before or not; one
that sets the refusal mark changes nothing else of the block, and the port alone where it is driven with mode 11. The
host's queue and schedule are the model's own (log 2, 3). -/
def Obligations.FaultIsPrecise : Prop :=
  ∀ s t : State, step s = .next t → s.faultRec = none →
    (t.faultRec ≠ none →
      t = { s with faultRec := t.faultRec, hostQueue := t.hostQueue, schedule := t.schedule }) ∧
    (s.refusalMark = false → t.refusalMark = true →
      t = { s with
        refusalMark := true
        hostQueue := t.hostQueue
        schedule := t.schedule
        h2sMode := t.h2sMode
        h2sIn := t.h2sIn
        h2sOut := t.h2sOut
        draws := t.draws } ∧
      ((∀ u, s.hostQueue.head? ≠ some (.driveH2s 0b11#2 u)) →
        t.h2sMode = s.h2sMode ∧ t.h2sIn = s.h2sIn ∧ t.h2sOut = s.h2sOut ∧ t.draws = s.draws))

/-- 30_encoding R95, 60_exceptions R207: an unlisted interaction sets the refusal mark and changes nothing else; so does
driving mode 11, but for the port, whose output is then a free value; the mark stops no agent, but a state with it is no
end of a run: where no agent has a step left the outcome is refused. That a window offset of 0x40 or more and a memory
access past 2^64 count as unlisted, and where the outcome shows, is the model's choice (log 14, 15, 16). -/
def Obligations.RefusedInteractions : Prop :=
  (∀ (s : State) (u : BitVec 128), ∃ (t : State) (draw : Nat), hostAct (.driveH2s 0b11#2 u) s = .next t ∧
    t = { s with
      refusalMark := true
      h2sMode := 0b11#2
      h2sIn := u
      h2sOut := Config.portDraw draw
      draws := t.draws }) ∧
  (∀ s : State, hostAct .unlisted s = .next { s with refusalMark := true }) ∧
  (∀ (s : State) (o w : Nat) (v : Word), 0x40 ≤ o →
    hostAct (.wreg o w v) s = .next { s with refusalMark := true } ∧
    hostAct (.rreg o w) s = .next { s with refusalMark := true }) ∧
  (∀ (s : State) (a z : Nat) (bs : List Byte), 2 ^ 64 < a + z → 2 ^ 64 < a + bs.length →
    hostAct (.memRead a z) s = .next { s with refusalMark := true } ∧
    hostAct (.memWrite a bs) s = .next { s with refusalMark := true }) ∧
  (∀ s : State, s.faultRec = none → turn s = some .engine → step s = engineStep (popSchedule s)) ∧
  (∀ s : State, s.faultRec = none → turn s = some .host → step s = hostStep (popSchedule s)) ∧
  (∀ s : State, s.refusalMark = true → s.faultRec = none → turn s = none → step s = .refused .refusalMarked)

/-! The register window. -/

/-- 10_state R35, 60_exceptions R201, R204: a window access of another width than 64, at a misaligned offset, or at 0x38
raises `F_BAD_REG`, whether the block is busy or not. -/
def Obligations.BadWindowAccessFaults : Prop :=
  ∀ (s : State) (o w : Nat) (v : Word), o < 0x40 → w ≠ 64 ∨ o % 8 ≠ 0 ∨ o = 0x38 →
    hostAct (.wreg o w v) s = .next { s with faultRec := some (.badReg o w) } ∧
    hostAct (.rreg o w) s = .next { s with faultRec := some (.badReg o w) }

/-- 10_state R34, R35: while `BUSY = 1` a write to any register, `CMD` and `STATUS` among them, raises `F_BUSY_WRITE`;
so does every `DOTXF` command. -/
def Obligations.WindowWriteWhileBusyFaults : Prop :=
  (∀ (s : State) (r : WinReg) (v : Word), busy s = true →
    hostAct (.wreg (regOffset r) 64 v) s = .next { s with faultRec := some (.busyWrite (regOffset r) v) }) ∧
  (∀ i f v, (i, f, v) ∈ dotxfTable → ∀ s : State, busy s = true →
    exec i s = .next { s with faultRec := some (.busyWrite 0x00 v) })

/-- 10_state R32, R34, 70 R236: while `BUSY = 0` a write of an argument register stores the value and sets its mark, a
write of `STATUS` is ignored, and nothing else changes. -/
def Obligations.WindowWriteStores : Prop :=
  ∀ (s : State) (v : Word), busy s = false →
    hostAct (.wreg 0x08 64 v) s = .next s ∧
    hostAct (.wreg 0x10 64 v) s = .next { s with xBase := v, written := { s.written with xBase := true } } ∧
    hostAct (.wreg 0x18 64 v) s = .next { s with yBase := v, written := { s.written with yBase := true } } ∧
    hostAct (.wreg 0x20 64 v) s = .next { s with stride := v, written := { s.written with stride := true } } ∧
    hostAct (.wreg 0x28 64 v) s = .next { s with sumBase := v, written := { s.written with sumBase := true } } ∧
    hostAct (.wreg 0x30 64 v) s = .next { s with n := v, written := { s.written with n := true } }

/-- 10_state R35: a read of a written register gives its current value, also while busy, and changes nothing the host
cannot see already; a read of a register not written since reset raises `F_UNWRITTEN`. `STATUS` always reads, its bits
[63:2] as 0 (R31). -/
def Obligations.WindowReadReturnsValue : Prop :=
  ∀ (s : State) (o : Nat) (v : Word) (w : Bool),
    (o, v, w) ∈ [(0x00, s.cmd, s.written.cmd), (0x08, s.status.extractLsb' 0 2 |>.setWidth 64, true),
      (0x10, s.xBase, s.written.xBase), (0x18, s.yBase, s.written.yBase), (0x20, s.stride, s.written.stride),
      (0x28, s.sumBase, s.written.sumBase), (0x30, s.n, s.written.n)] →
    hostAct (.rreg o 64) s =
      if w then .next { s with observed := some (.window o v) } else .next { s with faultRec := some (.unwritten o) }

/-! START. -/

/-- 41_dotxf R161: the whole START step of a host write of `CMD` while `BUSY = 0`, its checks in their order and its
writes. `raced` is the model's own. -/
def Obligations.StartStep : Prop :=
  ∀ (v : Word) (s : State), busy s = false →
    hostAct (.wreg 0x00 64 v) s =
      if v &&& 0xFFFFFFFFFFFFFFF8#64 ≠ 0x10#64 then .next { s with faultRec := some (.illegalCmd v) }
      else if s.written.xBase = false then .next { s with faultRec := some (.argUnwritten .xBase) }
      else if s.written.yBase = false then .next { s with faultRec := some (.argUnwritten .yBase) }
      else if s.written.stride = false then .next { s with faultRec := some (.argUnwritten .stride) }
      else if s.written.sumBase = false then .next { s with faultRec := some (.argUnwritten .sumBase) }
      else if s.written.n = false then .next { s with faultRec := some (.argUnwritten .n) }
      else if s.xBase.toNat % 4 ≠ 0 then .next { s with faultRec := some (.misaligned .xBase s.xBase) }
      else if s.yBase.toNat % 2 ≠ 0 then .next { s with faultRec := some (.misaligned .yBase s.yBase) }
      else if s.sumBase.toNat % 4 ≠ 0 then .next { s with faultRec := some (.misaligned .sumBase s.sumBase) }
      else .next
        { s with
          cmd := v
          written := { s.written with cmd := true }
          ff := BitVec.ofNat 4 ((v.extractLsb' 0 3).toNat + 1)
          acc := Vector.ofFn fun i =>
            if i.val < (v.extractLsb' 0 3).toNat + 1 then Vector.replicate 8 0x00000000#32 else s.acc[i]
          k := 0#64
          row := 0#4
          status := (s.status &&& ~~~0x3#64) ||| 0x1#64
          phase := if 8 ≤ s.n.toNat then .bulk else if 0 < s.n.toNat then .rem else .red
          raced := [] }

/-- 41_dotxf R175 to R182 with R161: each of DOTXF1 to DOTXF8, on an idle block with its arguments written and its bases
aligned, starts its command: this next state, in which everything not named is unchanged. -/
def Obligations.DotxfStartsWhenReady : Prop :=
  ∀ i f v, (i, f, v) ∈ dotxfTable → ∀ s : State, readyToStart s →
    exec i s = .next
      { s with
        cmd := v
        written := { s.written with cmd := true }
        ff := BitVec.ofNat 4 f
        acc := Vector.ofFn fun r => if r.val < f then Vector.replicate 8 0x00000000#32 else s.acc[r]
        k := 0#64
        row := 0#4
        status := (s.status &&& ~~~0x3#64) ||| 0x1#64
        phase := if 8 ≤ s.n.toNat then .bulk else if 0 < s.n.toNat then .rem else .red
        raced := [] }

/-- 30_encoding R98: from an idle healthy block the six writes of `DOTXF<F> x, y, stride, sum, n` with aligned bases set
the arguments and start the command, whatever the schedule says. -/
def Obligations.DotxfProgramStarts : Prop :=
  ∀ i f v, (i, f, v) ∈ dotxfTable → ∀ (s : State) (x y stride sum n : Word), SeqInv s → healthy s → s.phase = .idle →
    s.hostQueue = dotxfProgram f x y stride sum n → x.toNat % 4 = 0 → y.toNat % 2 = 0 → sum.toNat % 4 = 0 →
    ∃ t : State, Host.Core.run Sys2Proof.core 6 s = .next t ∧ t.xBase = x ∧ t.yBase = y ∧ t.stride = stride ∧
      t.sumBase = sum ∧ t.n = n ∧ t.cmd = v ∧ t.ff = BitVec.ofNat 4 f ∧ busy t = true ∧ done t = false ∧
      t.hostQueue = [.wait] ∧ healthy t ∧ t.mem = s.mem

/-! Engine steps. -/

/-- 41_dotxf R163: the BULK step. Its reads are `x` first, then rows 0 to FF-1; the first one not admitted raises
`F_MEM` and nothing is written. A read past 2^64 is never admitted, and then `F_MEM` is raised (20_memory R64, 41_dotxf
R185). With all admitted and none raced every lane of the rows in use takes one FMA32. -/
def Obligations.BulkStep : Prop :=
  ∀ s : State, s.faultRec = none → turn s = some .engine → s.phase = .bulk →
    (∀ pre a len post,
      (s.xBase.toNat + 4 * s.k.toNat, 32) :: (List.range s.ff.toNat).map (fun i =>
        (s.yBase.toNat + 2 * (2 * i * s.stride.toNat + s.k.toNat), 16)) = pre ++ (a, len) :: post →
      (∀ c ∈ pre, admits s .read c.1 c.2 = true) → admits s .read a len = false →
      step s = .next { s with schedule := s.schedule.tail, faultRec := some (.mem .read a len) }) ∧
    (∀ c ∈ (s.xBase.toNat + 4 * s.k.toNat, 32) :: (List.range s.ff.toNat).map (fun i =>
        (s.yBase.toNat + 2 * (2 * i * s.stride.toNat + s.k.toNat), 16)),
      2 ^ 64 < c.1 + c.2 → admits s .read c.1 c.2 = false ∧
        ∃ d ∈ (s.xBase.toNat + 4 * s.k.toNat, 32) :: (List.range s.ff.toNat).map (fun i =>
            (s.yBase.toNat + 2 * (2 * i * s.stride.toNat + s.k.toNat), 16)),
          admits s .read d.1 d.2 = false ∧
          step s = .next { s with schedule := s.schedule.tail, faultRec := some (.mem .read d.1 d.2) }) ∧
    (admits s .read (s.xBase.toNat + 4 * s.k.toNat) 32 = true →
      (∀ i < s.ff.toNat, admits s .read (s.yBase.toNat + 2 * (2 * i * s.stride.toNat + s.k.toNat)) 16 = true) →
      unraced s (s.xBase.toNat + 4 * s.k.toNat) 32 →
      (∀ i < s.ff.toNat, unraced s (s.yBase.toNat + 2 * (2 * i * s.stride.toNat + s.k.toNat)) 16) →
      ∃ t : State, step s = .next t ∧
        (∀ i j : Fin 8,
          if i.val < s.ff.toNat then
            agrees (fmaCore (load32 s.mem (s.xBase.toNat + 4 * (s.k.toNat + j.val)))
              (decode16 (load16 s.mem (s.yBase.toNat + 2 * (2 * i.val * s.stride.toNat + (s.k.toNat + j.val)))))
              s.acc[i][j]) t.acc[i][j]
          else t.acc[i][j] = s.acc[i][j]) ∧
        t = { s with
          schedule := s.schedule.tail
          acc := t.acc
          k := s.k + 8#64
          phase :=
            if 8 ≤ s.n.toNat - (s.k + 8#64).toNat then .bulk
            else if 0 < s.n.toNat - (s.k + 8#64).toNat then .rem
            else .red
          draws := t.draws })

/-- 41_dotxf R166, R167: the REM step with `REM_FUSED`: one FMA32 into lane 0 of each row in use; lanes 1 to 7 and the
other rows are not written; the first read not admitted raises `F_MEM`. A read past 2^64 is never admitted, and then
`F_MEM` is raised (20_memory R64, 41_dotxf R185). -/
def Obligations.RemStep : Prop :=
  ∀ s : State, s.faultRec = none → turn s = some .engine → s.phase = .rem →
    (∀ pre a len post,
      (s.xBase.toNat + 4 * s.k.toNat, 4) :: (List.range s.ff.toNat).map (fun i =>
        (s.yBase.toNat + 2 * (2 * i * s.stride.toNat + s.k.toNat), 2)) = pre ++ (a, len) :: post →
      (∀ c ∈ pre, admits s .read c.1 c.2 = true) → admits s .read a len = false →
      step s = .next { s with schedule := s.schedule.tail, faultRec := some (.mem .read a len) }) ∧
    (∀ c ∈ (s.xBase.toNat + 4 * s.k.toNat, 4) :: (List.range s.ff.toNat).map (fun i =>
        (s.yBase.toNat + 2 * (2 * i * s.stride.toNat + s.k.toNat), 2)),
      2 ^ 64 < c.1 + c.2 → admits s .read c.1 c.2 = false ∧
        ∃ d ∈ (s.xBase.toNat + 4 * s.k.toNat, 4) :: (List.range s.ff.toNat).map (fun i =>
            (s.yBase.toNat + 2 * (2 * i * s.stride.toNat + s.k.toNat), 2)),
          admits s .read d.1 d.2 = false ∧
          step s = .next { s with schedule := s.schedule.tail, faultRec := some (.mem .read d.1 d.2) }) ∧
    (admits s .read (s.xBase.toNat + 4 * s.k.toNat) 4 = true →
      (∀ i < s.ff.toNat, admits s .read (s.yBase.toNat + 2 * (2 * i * s.stride.toNat + s.k.toNat)) 2 = true) →
      unraced s (s.xBase.toNat + 4 * s.k.toNat) 4 →
      (∀ i < s.ff.toNat, unraced s (s.yBase.toNat + 2 * (2 * i * s.stride.toNat + s.k.toNat)) 2) →
      s.params.remFused = true →
      ∃ t : State, step s = .next t ∧
        (∀ i j : Fin 8,
          if i.val < s.ff.toNat ∧ j.val = 0 then
            agrees (fmaCore (load32 s.mem (s.xBase.toNat + 4 * s.k.toNat))
              (decode16 (load16 s.mem (s.yBase.toNat + 2 * (2 * i.val * s.stride.toNat + s.k.toNat))))
              s.acc[i][j]) t.acc[i][j]
          else t.acc[i][j] = s.acc[i][j]) ∧
        t = { s with
          schedule := s.schedule.tail
          acc := t.acc
          k := s.k + 1#64
          phase :=
            if 8 ≤ s.n.toNat - (s.k + 1#64).toNat then .bulk
            else if 0 < s.n.toNat - (s.k + 1#64).toNat then .rem
            else .red
          draws := t.draws })

/-- 41_dotxf R167: with `REM_FUSED` false the remainder is a rounded multiply, then a rounded add, into the same lanes.
The rounded product is FMA32 of the factors and a zero, and the rounded sum FMA32 of it, 1.0 and the lane (00_scope
R20); that the zero has the product's sign, so that a zero product keeps it, is the model's reading (log 8). -/
def Obligations.UnfusedRemStep : Prop :=
  ∀ s : State, s.faultRec = none → turn s = some .engine → s.phase = .rem → s.params.remFused = false →
    unraced s (addrX s s.k.toNat) 4 → (∀ i < s.ff.toNat, unraced s (addrY s i s.k.toNat) 2) →
    admits s .read (addrX s s.k.toNat) 4 = true →
    (∀ i < s.ff.toNat, admits s .read (addrY s i s.k.toNat) 2 = true) →
    ∃ t : State, step s = .next t ∧
      (∀ i j : Fin 8,
        if i.val < s.ff.toNat ∧ j.val = 0 then
          let x := load32 s.mem (addrX s s.k.toNat)
          let d := decode16 (load16 s.mem (addrY s i.val s.k.toNat))
          agrees ((fmaCore x d (BitVec.ofBool (signBit x ^^ signBit d) ++ 0#31)).bind fun p =>
            fmaCore p 0x3F800000#32 s.acc[i][j]) t.acc[i][j]
        else t.acc[i][j] = s.acc[i][j]) ∧
      t = { s with
        schedule := s.schedule.tail
        acc := t.acc
        k := s.k + 1#64
        phase :=
          if 8 ≤ s.n.toNat - (s.k + 1#64).toNat then .bulk
          else if 0 < s.n.toNat - (s.k + 1#64).toNat then .rem
          else .red
        draws := t.draws }

/-- 41_dotxf R170, R171: the RED step, in a state that meets the block's invariants: it writes the tree of row `ROW` at
`addr_sum(ROW)` and no other byte; after the last row the command ends; a write not admitted, as none past 2^64 is
(20_memory R64), raises `F_MEM`. -/
def Obligations.RedStep : Prop :=
  ∀ s : State, SeqInv s → memInv s → s.faultRec = none → turn s = some .engine → s.phase = .red →
    (2 ^ 64 < s.sumBase.toNat + 4 * s.row.toNat + 4 →
      admits s .write (s.sumBase.toNat + 4 * s.row.toNat) 4 = false) ∧
    (admits s .write (s.sumBase.toNat + 4 * s.row.toNat) 4 = false →
      step s = .next
        { s with
          schedule := s.schedule.tail
          faultRec := some (.mem .write (s.sumBase.toNat + 4 * s.row.toNat) 4) }) ∧
    (admits s .write (s.sumBase.toNat + 4 * s.row.toNat) 4 = true → unraced s (s.sumBase.toNat + 4 * s.row.toNat) 4 →
      ∃ t : State, step s = .next t ∧
        (∀ r : Fin 8, r.val = s.row.toNat →
          agrees
            (addLanes
              (addLanes (addCore s.acc[r][0] s.acc[r][4]) (addCore s.acc[r][1] s.acc[r][5]))
              (addLanes (addCore s.acc[r][2] s.acc[r][6]) (addCore s.acc[r][3] s.acc[r][7])))
            (load32 t.mem (s.sumBase.toNat + 4 * s.row.toNat))) ∧
        (∀ b, b < s.sumBase.toNat + 4 * s.row.toNat ∨ s.sumBase.toNat + 4 * s.row.toNat + 4 ≤ b →
          readByte t.mem b = readByte s.mem b) ∧
        t = { s with
          schedule := s.schedule.tail
          mem := t.mem
          row := s.row + 1#4
          phase := if s.row + 1#4 = s.ff then .idle else .red
          status := if s.row + 1#4 = s.ff then (s.status &&& ~~~0x3#64) ||| 0x2#64 else s.status
          draws := t.draws })

/-- 10_state R35, R40, 41_dotxf R172, R187: what no engine step changes, races or not: the window registers and marks,
FF, the port, the other instances, the parameters, the host's own fields, the rows of ACC from FF on, and every byte
outside `sum[ROW]`. -/
def Obligations.EngineStepFrame : Prop :=
  ∀ s t : State, engineStep s = .next t →
    t.cmd = s.cmd ∧ t.xBase = s.xBase ∧ t.yBase = s.yBase ∧ t.stride = s.stride ∧ t.sumBase = s.sumBase ∧ t.n = s.n ∧
    t.written = s.written ∧ t.ff = s.ff ∧ t.refusalMark = s.refusalMark ∧ t.h2sMode = s.h2sMode ∧ t.h2sIn = s.h2sIn ∧
    t.h2sOut = s.h2sOut ∧ t.peers = s.peers ∧ t.params = s.params ∧ t.hostQueue = s.hostQueue ∧ t.schedule = s.schedule ∧
    t.observed = s.observed ∧ t.raced = s.raced ∧
    (∀ i j : Fin 8, s.ff.toNat ≤ i.val → t.acc[i][j] = s.acc[i][j]) ∧
    (∀ b, b < addrSum s s.row.toNat ∨ addrSum s s.row.toNat + 4 ≤ b → readByte t.mem b = readByte s.mem b) ∧
    (s.phase ≠ .red → t.mem = s.mem)

/-- 70_reset_and_hazards R239: while a command runs, no fault is recorded and the host is silent, the engine has an
enabled step, a refusal mark set or not: it answers a next state, which records a fault or has one step fewer left. -/
def Obligations.EngineAlwaysProgresses : Prop :=
  ∀ s : State, SeqInv s → s.faultRec = none → s.phase ≠ .idle → s.hostQueue = [] →
    ∃ t : State, step s = .next t ∧ (t.faultRec.isSome = true ∨ stepsLeft t + 1 = stepsLeft s)

/-- 20_memory R65 (its derived part), R66: once START has passed its checks, every access the engine makes in that
command is aligned to its elements: BULK's and REM's reads of `x` (32 and 4 bytes) to 4, of the rows (16 and 2 bytes) to
2, and RED's write to 4; so is each element read and the address an `F_MEM` records. -/
def Obligations.ElementAccessesAligned : Prop :=
  (∀ (v : Word) (s t : State), SeqInv s → busy s = false → hostAct (.wreg 0x00 64 v) s = .next t → busy t = true →
    basesAligned t) ∧
  (∀ s : State, SeqInv s → s.phase ≠ .idle →
    (∀ c ∈ bulkReads s ++ remReads s, c.1 % (if c.2 = 32 ∨ c.2 = 4 then 4 else 2) = 0) ∧
    addrSum s s.row.toNat % 4 = 0 ∧
    ∀ i k, addrX s k % 4 = 0 ∧ addrY s i k % 2 = 0) ∧
  (∀ (s t : State) (kind : AccessKind) (a n : Nat), SeqInv s → s.faultRec = none → engineStep s = .next t →
    t.faultRec = some (.mem kind a n) → a % (if n = 32 ∨ n = 4 then 4 else 2) = 0)

/-! Whole commands. -/

/-- 41_dotxf R160, R165, R169, R172, 70 R239: a command that meets 70 R233's conditions, with a silent host, ends after
1 + floor(N/8) + (N mod 8) + F steps with `STATUS` = 0x2; each `sum[r]` holds the row's result (a NaN where an operation
on the way gives one); no other byte and no window register has changed. `sum` may overlap `x` and `y` (R186). No `sum`
of a running command of another instance overlaps this command's elements (20_memory R74). With `REM_FUSED` false the
sign of a zero product in the remainder is the model's reading (log 8). -/
def Obligations.CommandWritesItsSums : Prop :=
  ∀ i f v, (i, f, v) ∈ dotxfTable → ∀ s : State, SeqInv s → memInv s → healthy s → readyToStart s →
    s.hostQueue = [.wreg 0x00 64 v] → commandAdmitted s f → peersApart s f →
    ∃ t : State, Host.Core.run Sys2Proof.core (1 + s.n.toNat / 8 + s.n.toNat % 8 + f) s = .next t ∧
      t.status = 0x2#64 ∧ t.phase = .idle ∧ healthy t ∧
      (∀ r < f, agrees
        (rowResult s.params.remFused s.n.toNat (fun k => load32 s.mem (addrX s k)) (fun k => load16 s.mem (addrY s r k)))
        (load32 t.mem (addrSum s r))) ∧
      (∀ b, (∀ r < f, b < addrSum s r ∨ addrSum s r + 4 ≤ b) → readByte t.mem b = readByte s.mem b) ∧
      t.xBase = s.xBase ∧ t.yBase = s.yBase ∧ t.stride = s.stride ∧ t.sumBase = s.sumBase ∧ t.n = s.n ∧ t.cmd = v

/-- 70_reset_and_hazards R239, 41_dotxf R160: the number of steps is exact: after START and before the last step the
command is still busy. -/
def Obligations.CommandBusyUntilLastStep : Prop :=
  ∀ i f v, (i, f, v) ∈ dotxfTable → ∀ s : State, SeqInv s → healthy s → readyToStart s →
    s.hostQueue = [.wreg 0x00 64 v] → commandAdmitted s f →
    ∀ m, 1 ≤ m → m < 1 + s.n.toNat / 8 + s.n.toNat % 8 + f →
      ∃ t : State, Host.Core.run Sys2Proof.core m s = .next t ∧ busy t = true ∧ done t = false ∧ healthy t

/-- 41_dotxf R173: with `N = 0` START goes to RED directly, no memory is read (nothing need be admitted for reading),
and every `sum[r]` is `+0`; the alignment checks still apply. -/
def Obligations.ZeroLengthCommand : Prop :=
  (∀ i f v, (i, f, v) ∈ dotxfTable → ∀ s : State, SeqInv s → memInv s → healthy s → readyToStart s → s.n = 0#64 →
    s.hostQueue = [.wreg 0x00 64 v] → (∀ r < f, admits s .write (addrSum s r) 4 = true) → peersApart s f →
    (∃ t : State, Host.Core.run Sys2Proof.core 1 s = .next t ∧ t.phase = .red) ∧
    ∃ t : State, Host.Core.run Sys2Proof.core (1 + f) s = .next t ∧ t.status = 0x2#64 ∧ healthy t ∧
      ∀ r < f, load32 t.mem (addrSum s r) = 0x00000000#32) ∧
  (∀ i f v, (i, f, v) ∈ dotxfTable → ∀ s : State, busy s = false → argsWritten s = true → s.n = 0#64 →
    ¬basesAligned s → ∃ r w, exec i s = .next { s with faultRec := some (.misaligned r w) })

/-- 41_dotxf R174: `DOTXF1` applied to row `r` alone, with `Y_BASE` at that row's start, writes the single that any
`DOTXF<F>` writes for row `r`, or both are NaN. -/
def Obligations.RowsAreIndependent : Prop :=
  ∀ i f v, (i, f, v) ∈ dotxfTable → ∀ (r : Nat) (s u t w : State), r < f →
    SeqInv s → memInv s → healthy s → readyToStart s → s.hostQueue = [.wreg 0x00 64 v] → commandAdmitted s f →
    peersApart s f → SeqInv u → memInv u → healthy u → readyToStart u → u.hostQueue = [.wreg 0x00 64 0x10#64] →
    commandAdmitted u 1 → peersApart u 1 →
    u.mem = s.mem → u.n = s.n → u.xBase = s.xBase → u.params = s.params → u.yBase.toNat = addrY s r 0 →
    Host.Core.run Sys2Proof.core (1 + s.n.toNat / 8 + s.n.toNat % 8 + f) s = .next t →
    Host.Core.run Sys2Proof.core (1 + u.n.toNat / 8 + u.n.toNat % 8 + 1) u = .next w →
    load32 t.mem (addrSum s r) = load32 w.mem (addrSum u 0) ∨
      (isNaN (load32 t.mem (addrSum s r)) = true ∧ isNaN (load32 w.mem (addrSum u 0)) = true)

/-- 70_reset_and_hazards R234, 41_dotxf R187: whatever step a running command's block takes, unless it is a reset, the
arguments, `CMD` and `FF` keep the values they had. -/
def Obligations.RunningCommandKeepsArguments : Prop :=
  ∀ s t : State, SeqInv s → s.phase ≠ .idle → ¬resetNext s → step s = .next t →
    t.xBase = s.xBase ∧ t.yBase = s.yBase ∧ t.stride = s.stride ∧ t.sumBase = s.sumBase ∧ t.n = s.n ∧ t.cmd = s.cmd ∧
    t.ff = s.ff ∧ t.written = s.written

/-! Invariants. -/

/-- 10_state R34, R38, R39: every step keeps the agreement of PHASE, STATUS and the counters. -/
def Obligations.SequencingInvariantKept : Prop :=
  ∀ s t : State, SeqInv s → step s = .next t → SeqInv t

/-- The canonical form of memory (log 6) is kept by every step. -/
def Obligations.MemoryInvariantKept : Prop :=
  ∀ s t : State, memInv s → step s = .next t → memInv t

/-- 40_h2s R128: every step keeps `H2S_OUT` the function of `H2S_MODE` and `H2S_IN`. -/
def Obligations.PortInvariantKept : Prop :=
  ∀ s t : State, portInv s → step s = .next t → portInv t

/-- 20_memory R65, R74: every step keeps the commands of other instances aligned and unfinished, for they are listed
from their START to their last row. -/
def Obligations.InstanceInvariantKept : Prop :=
  ∀ s t : State, peersInv s → step s = .next t → peersInv t

/-- The four invariants hold right after reset. -/
def Obligations.InvariantsHoldAtReset : Prop :=
  SeqInv State.reset ∧ memInv State.reset ∧ portInv State.reset ∧ peersInv State.reset

/-! The converter. -/

/-- 40_h2s R129 with R130, R131, R132: each H2S operation completes; output lane `j` is DECODE16 of input lane `j` for
`j < W` and 0 above, which is also the decode of a zero code; nothing but the mode and the output changes. -/
def Obligations.ConverterLanes : Prop :=
  (∀ i m w, (i, m, w) ∈ h2sTable → ∀ s : State, ∃ t : State, exec i s = .next t ∧
    (∀ j < 8, t.h2sOut.extractLsb' (32 * j) 32 =
      if j < w then decode16 (s.h2sIn.extractLsb' (16 * j) 16) else 0x00000000#32) ∧
    t = { s with h2sMode := m, h2sOut := t.h2sOut }) ∧
  decode16 0x0000#16 = 0x00000000#32

/-- 40_h2s R126, 00_scope R17: on every code DECODE16 is finite, has exactly the code's value (both sides times 2^149),
the code's sign, and is no binary32 subnormal. -/
def Obligations.DecodeIsExact : Prop :=
  ∀ h : Half, isFinite (decode16 h) = true ∧ singleScaled (decode16 h) = halfScaled h * 2 ^ 125 ∧
    signBit (decode16 h) = h.getLsbD 15 ∧ (expField (decode16 h) = 0 → fracField (decode16 h) = 0)

/-- 40_h2s R127: the closed form. -/
def Obligations.DecodeClosedForm : Prop := ∀ h : Half, (decode16 h).toNat = decode16Closed h

/-- 40_h2s R124: DECODE16 takes the denormal path exactly where the exponent field is 0, and the normal path elsewhere;
the compared value is the exponent and fraction fields in their binary32 places, at most 0x0FFFE000, which it reaches,
so it is below 2^31 and a signed comparison would select the same. -/
def Obligations.DecodeSelection : Prop :=
  (∀ h : Half, decode16 h =
    if h.extractLsb' 10 5 = 0#5 then decodeDenorm h ||| decodeSign h else decodeNorm h ||| decodeSign h) ∧
  (∀ h : Half, (shr3Nonsign h).toNat = (h.extractLsb' 10 5).toNat * 2 ^ 23 + (h.extractLsb' 0 10).toNat * 2 ^ 13) ∧
  (∀ h : Half, ((shr3Nonsign h).toNat < 0x00800000 ↔ h.extractLsb' 10 5 = 0#5) ∧ (shr3Nonsign h).toNat ≤ 0x0FFFE000 ∧
    (shr3Nonsign h).msb = false) ∧
  ∃ h : Half, (shr3Nonsign h).toNat = 0x0FFFE000

/-! Binary32 arithmetic. -/

/-- 00_scope R19: FMA32 where an operand is not finite, and R21: any NaN operand gives the NaN result. -/
def Obligations.FmaNonFinite : Prop :=
  ∀ nan a b c : Single,
    (isNaN a = true ∨ isNaN b = true ∨ isNaN c = true → fma32 nan a b c = nan) ∧
    (isInf a = true ∧ isZero b = true ∨ isZero a = true ∧ isInf b = true → fma32 nan a b c = nan) ∧
    (∀ p : Bool, p = (signBit a ^^ signBit b) → isNaN a = false → isNaN b = false → isNaN c = false →
      (isInf a = true ∧ isZero b = false ∨ isInf b = true ∧ isZero a = false →
        (isInf c = true ∧ signBit c ≠ p → fma32 nan a b c = nan) ∧
        (isInf c = false ∨ signBit c = p → fma32 nan a b c = BitVec.ofBool p ++ 0x7F800000#31)) ∧
      (isFinite a = true → isFinite b = true → isInf c = true → fma32 nan a b c = c))

/-- 00_scope R19: an exact zero is `+0` unless both addends are zeros of one sign, which it then takes. Values are in
units of 2^-300; the product is exact. -/
def Obligations.FmaExactZero : Prop :=
  (∀ a b : Single, exactProduct a b * 2 ^ 300 = exactValue a * exactValue b) ∧
  ∀ nan a b c : Single, isFinite a = true → isFinite b = true → isFinite c = true →
    exactValue a * exactValue b + exactValue c * 2 ^ 300 = 0 →
    fma32 nan a b c =
      if (isZero a = true ∨ isZero b = true) ∧ isZero c = true ∧ (signBit a ^^ signBit b) = signBit c
      then BitVec.ofBool (signBit c) ++ 0#31
      else 0x00000000#32

/-- 00_scope R18, R19: FMA32 of finite operands with a non-zero exact value rounds it once, to nearest, ties to even,
with full subnormals: the result has the value's sign; from the midpoint below 2^128 on it is ∞; else it is finite, no
finite pattern is nearer, and one as near with another value leaves the result even. Values are in units of 2^-300: a
finite pattern's is that of R16, and the product is exact. -/
def Obligations.FmaRoundsToNearestEven : Prop :=
  (∀ a b : Single, exactProduct a b * 2 ^ 300 = exactValue a * exactValue b) ∧
  (∀ a : Single, isFinite a = true → exactValue a = (if a.getLsbD 31 then -1 else 1) *
    (if a.extractLsb' 23 8 = 0#8 then (a.extractLsb' 0 23).toNat * 2 ^ 151
      else (2 ^ 23 + (a.extractLsb' 0 23).toNat) * 2 ^ ((a.extractLsb' 23 8).toNat + 150) : Nat)) ∧
  ∀ (nan a b c r : Single) (v : Int), isFinite a = true → isFinite b = true → isFinite c = true →
    v = exactProduct a b + exactValue c → v ≠ 0 → r = fma32 nan a b c →
    (signBit r = true ↔ v < 0) ∧
    (((2 ^ 25 - 1) * 2 ^ 403 ≤ v.natAbs → isInf r = true) ∧
     (v.natAbs < (2 ^ 25 - 1) * 2 ^ 403 → isFinite r = true ∧
       ∀ q : Single, isFinite q = true →
         (v - exactValue r).natAbs ≤ (v - exactValue q).natAbs ∧
         ((v - exactValue r).natAbs = (v - exactValue q).natAbs → exactValue q ≠ exactValue r →
           r.getLsbD 0 = false)))

/-- 00_scope R20: addition is commutative, also where both orders give `NAN_RESULT`. -/
def Obligations.AddIsCommutative : Prop := ∀ a b : Single, addCore a b = addCore b a

/-- 00_scope R21: every draw of `NAN_RESULT` is a NaN pattern, and it is any of them: a draw is `nanOf` of free bits
(log 10), and `nanOf` gives every NaN pattern back as it is, so free bits that are a NaN are the result. -/
def Obligations.NanResultIsNan : Prop :=
  (∀ k : Nat, isNaN (nanResult k) = true) ∧
  (∀ k : Nat, isNaN (Config.nanDraw k) = true → nanResult k = Config.nanDraw k) ∧
  (∀ k : Nat, nanResult k = nanOf (Config.nanDraw k)) ∧
  (∀ b : BitVec 32, isNaN (nanOf b) = true) ∧
  ∀ b : Single, isNaN b = true → nanOf b = b

/-- 41_dotxf R184: RTREE gives `-0` only if all eight lanes are `-0`. -/
def Obligations.TreeGivesMinusZeroOnlyFromMinusZeros : Prop :=
  ∀ a : Nat → Single, treeOf (fun j => some (a j)) = some 0x80000000#32 ↔ ∀ j < 8, a j = 0x80000000#32

/-! Memory. -/

/-- 20_memory R60: the byte order of the elements, read and written; a store inside the data space leaves every other
byte alone. -/
def Obligations.MemoryIsLittleEndian : Prop :=
  (∀ (m : Memory) (a i : Nat), i < 4 → (load32 m a).extractLsb' (8 * i) 8 = readByte m (a + i)) ∧
  (∀ (m : Memory) (a i : Nat), i < 2 → (load16 m a).extractLsb' (8 * i) 8 = readByte m (a + i)) ∧
  (∀ (m : Memory) (a : Nat) (v : Single), Memory.wf m = true → a + 4 ≤ 2 ^ 64 →
    (∀ i < 4, readByte (store32 m a v) (a + i) = v.extractLsb' (8 * i) 8) ∧
    ∀ b, b < a ∨ a + 4 ≤ b → readByte (store32 m a v) b = readByte m b)

/-- 20_memory R72, 70 R236: while `BUSY = 0` a host write stores its bytes and no others, and a host read returns the
bytes memory holds; neither changes anything else. The bytes are in no `sum` of a command another instance is running
(R74). That an access is a string of any length made in one step, without asking `MEM_ADMIT`, is the model's choice
(log 16). -/
def Obligations.HostMemoryAccess : Prop :=
  ∀ s : State, memInv s → busy s = false →
    (∀ (a : Nat) (bs : List Byte), a + bs.length ≤ 2 ^ 64 →
      (∀ d < bs.length, ∀ p ∈ s.peers, ∀ i < p.f.toNat + 1, a + d < peerAddr p i ∨ peerAddr p i + 4 ≤ a + d) →
      ∃ t : State, hostAct (.memWrite a bs) s = .next t ∧
      (∀ d (h : d < bs.length), readByte t.mem (a + d) = bs[d]) ∧
      (∀ b, b < a ∨ a + bs.length ≤ b → readByte t.mem b = readByte s.mem b) ∧
      t = { s with mem := t.mem, draws := t.draws }) ∧
    (∀ a n : Nat, a + n ≤ 2 ^ 64 →
      (∀ d < n, ∀ p ∈ s.peers, ∀ i < p.f.toNat + 1, a + d < peerAddr p i ∨ peerAddr p i + 4 ≤ a + d) →
      ∃ t : State, hostAct (.memRead a n) s = .next t ∧
      t.observed = some (.memory a ((List.range n).map fun d => readByte s.mem (a + d))) ∧
      t = { s with observed := t.observed, draws := t.draws })

/-- 70_reset_and_hazards R236, 20_memory R73: while a command runs, a host write that touches no byte of its `x`, rows
or `sum`, nor of the `sum` of a command another instance is running (R74), is ordinary: it stores its bytes and changes
nothing the command computes from; and a host read that touches no byte of those sums returns memory's bytes and changes
nothing else. That an access is a string of any length made in one step, without asking `MEM_ADMIT`, is the model's
choice (log 16). -/
def Obligations.HostAccessElsewhereIsOrdinary : Prop :=
  ∀ s : State, SeqInv s → busy s = true →
    (∀ (a : Nat) (bs : List Byte), a + bs.length ≤ 2 ^ 64 →
      (∀ d < bs.length,
        (∀ k < s.n.toNat, a + d < addrX s k ∨ addrX s k + 4 ≤ a + d) ∧
        (∀ i < s.ff.toNat, ∀ k < s.n.toNat, a + d < addrY s i k ∨ addrY s i k + 2 ≤ a + d) ∧
        (∀ i < s.ff.toNat, a + d < addrSum s i ∨ addrSum s i + 4 ≤ a + d) ∧
        ∀ p ∈ s.peers, ∀ i < p.f.toNat + 1, a + d < peerAddr p i ∨ peerAddr p i + 4 ≤ a + d) →
      ∃ t : State, hostAct (.memWrite a bs) s = .next t ∧ t.mem = writeBytes s.mem a bs ∧ t.acc = s.acc ∧
        (∀ d k, k < s.n.toNat → readX t d k = readX s d k) ∧
        (∀ d i k, i < s.ff.toNat → k < s.n.toNat → readY t d i k = readY s d i k) ∧
        t = { s with mem := t.mem, raced := t.raced, draws := t.draws }) ∧
    (∀ a n : Nat, a + n ≤ 2 ^ 64 →
      (∀ d < n, (∀ i < s.ff.toNat, a + d < addrSum s i ∨ addrSum s i + 4 ≤ a + d) ∧
        ∀ p ∈ s.peers, ∀ i < p.f.toNat + 1, a + d < peerAddr p i ∨ peerAddr p i + 4 ≤ a + d) →
      ∃ t : State, hostAct (.memRead a n) s = .next t ∧
        t.observed = some (.memory a ((List.range n).map fun d => readByte s.mem (a + d))) ∧
        t = { s with observed := t.observed, draws := t.draws })

/-- 20_memory R73, its three bullets. An element the host writes while `BUSY = 1` is a free value at each engine read of
it in that command; what the engine made of an earlier read, the lane or the `sum` element of the row, is one too (log
12). A `sum` element the host writes then holds a free value, and RED writes one there. A host read of a `sum` byte
returns one. -/
def Obligations.RacesAreDraws : Prop :=
  ∀ s : State, SeqInv s → memInv s → busy s = true →
    (∀ (a : Nat) (bs : List Byte), a + bs.length ≤ 2 ^ 64 →
      ∃ t : State, hostAct (.memWrite a bs) s = .next t ∧ ∀ d < bs.length,
        (∀ draw k, addrX s k ≤ a + d → a + d < addrX s k + 4 → readX t draw k = Config.raceDraw draw) ∧
        (∀ draw i k, addrY s i k ≤ a + d → a + d < addrY s i k + 2 →
          readY t draw i k = (Config.raceDraw draw).setWidth 16) ∧
        (∀ i : Fin 8, ∀ k < s.k.toNat, s.row.toNat ≤ i.val → i.val < s.ff.toNat →
          (addrX s k ≤ a + d ∧ a + d < addrX s k + 4 ∨ addrY s i k ≤ a + d ∧ a + d < addrY s i k + 2) →
          ∀ j : Fin 8, j.val = (if k < 8 * (s.n.toNat / 8) then k % 8 else 0) →
            ∃ draw, t.acc[i][j] = Config.raceDraw draw) ∧
        (∀ i < s.row.toNat, ∀ k < s.k.toNat, addrSum s i + 4 ≤ 2 ^ 64 →
          (addrX s k ≤ a + d ∧ a + d < addrX s k + 4 ∨ addrY s i k ≤ a + d ∧ a + d < addrY s i k + 2) →
          ∃ draw, load32 t.mem (addrSum s i) = Config.raceDraw draw) ∧
        (∀ i < s.ff.toNat, addrSum s i + 4 ≤ 2 ^ 64 → addrSum s i ≤ a + d → a + d < addrSum s i + 4 →
          ∃ draw, load32 t.mem (addrSum s i) = Config.raceDraw draw)) ∧
    (∀ b ∈ s.raced, s.phase = .red → admits s .write (addrSum s s.row.toNat) 4 = true →
      addrSum s s.row.toNat ≤ b → b < addrSum s s.row.toNat + 4 →
      ∃ t draw, engineStep s = .next t ∧ t.row = s.row + 1#4 ∧
        load32 t.mem (addrSum s s.row.toNat) = Config.raceDraw draw) ∧
    (∀ a n : Nat, a + n ≤ 2 ^ 64 →
      ∃ (t : State) (bytes : List Byte), hostAct (.memRead a n) s = .next t ∧
        t.observed = some (.memory a bytes) ∧ bytes.length = n ∧
        ∀ d < n, ∀ i < s.ff.toNat, addrSum s i ≤ a + d → a + d < addrSum s i + 4 →
          ∃ draw, bytes[d]? = some ((Config.raceDraw draw).setWidth 8))

/-- 20_memory R74: while another instance runs a command, an engine read of an element with a byte in that command's
`sum` is a free value, RED writes a free value over such bytes, a host read of them returns free values, and a `sum`
element of it that the host writes then holds a free value. -/
def Obligations.OverlapWithRunningInstanceDraws : Prop :=
  ∀ s : State, SeqInv s → memInv s → peersInv s → ∀ p ∈ s.peers, ∀ b, p.sumBase.toNat ≤ b →
    b < p.sumBase.toNat + 4 * (p.f.toNat + 1) →
    (∀ draw k, addrX s k ≤ b → b < addrX s k + 4 → readX s draw k = Config.raceDraw draw) ∧
    (∀ draw i k, addrY s i k ≤ b → b < addrY s i k + 2 → readY s draw i k = (Config.raceDraw draw).setWidth 16) ∧
    (s.phase = .red → admits s .write (addrSum s s.row.toNat) 4 = true → addrSum s s.row.toNat ≤ b →
      b < addrSum s s.row.toNat + 4 →
      ∃ t draw, engineStep s = .next t ∧ t.row = s.row + 1#4 ∧
        load32 t.mem (addrSum s s.row.toNat) = Config.raceDraw draw) ∧
    (∀ a n : Nat, a + n ≤ 2 ^ 64 → a ≤ b → b < a + n →
      ∃ (t : State) (bytes : List Byte) (draw : Nat), hostAct (.memRead a n) s = .next t ∧
        t.observed = some (.memory a bytes) ∧ bytes.length = n ∧
        bytes[b - a]? = some ((Config.raceDraw draw).setWidth 8)) ∧
    (∀ (a : Nat) (bs : List Byte) (i : Nat), a + bs.length ≤ 2 ^ 64 → a ≤ b → b < a + bs.length →
      p.sumBase.toNat + 4 * i ≤ b → b < p.sumBase.toNat + 4 * i + 4 → p.sumBase.toNat + 4 * i + 4 ≤ 2 ^ 64 →
      ∃ t draw, hostAct (.memWrite a bs) s = .next t ∧
        load32 t.mem (p.sumBase.toNat + 4 * i) = Config.raceDraw draw)

/-- 20_memory R74, 60_exceptions R213, 41_dotxf R161, R171, 70 R231: the steps of another instance. Its START lists its
command; with a command running here, what was made of elements in its `sum` that were read before that START, a lane or
the `sum` element of a reduced row, becomes a free value (the model's choice: the inference of log 12, which log 20 takes
over), so does each `sum` element it overlaps (from that START on, the model's choice of log 20), and no other lane or
byte changes. Its RED writes one single, a free value here (log 20), and no other byte, where this launch's `MEM_ADMIT`
admits it (log 29); after its last row, and at its reset, it is listed no more, and its `sum` stays raced for the command
running here until the next START (the model's choice: logs 12 and 20). None changes a register of this instance. -/
def Obligations.OtherInstanceSteps : Prop :=
  (∀ (s : State) (base : Word) (f : BitVec 3), base.toNat % 4 = 0 → busy s = false →
    hostAct (.peerStart base f) s = .next { s with peers := s.peers ++ [⟨base, f, 0#3⟩] }) ∧
  (∀ (s : State) (base : Word) (f : BitVec 3), base.toNat % 4 = 0 → SeqInv s → memInv s → busy s = true →
    ∃ t : State, hostAct (.peerStart base f) s = .next t ∧
      t = { s with peers := s.peers ++ [⟨base, f, 0#3⟩], mem := t.mem, acc := t.acc, raced := t.raced, draws := t.draws } ∧
      (∀ i j : Fin 8,
        if s.row.toNat ≤ i.val ∧ i.val < s.ff.toNat ∧ ∃ k < s.k.toNat, ∃ d < 4 * (f.toNat + 1),
            j.val = (if k < 8 * (s.n.toNat / 8) then k % 8 else 0) ∧
            (addrX s k ≤ base.toNat + d ∧ base.toNat + d < addrX s k + 4 ∨
              addrY s i k ≤ base.toNat + d ∧ base.toNat + d < addrY s i k + 2)
        then ∃ draw, t.acc[i][j] = Config.raceDraw draw
        else t.acc[i][j] = s.acc[i][j]) ∧
      (∀ i < s.ff.toNat, addrSum s i + 4 ≤ 2 ^ 64 → ∀ d < 4 * (f.toNat + 1),
        (addrSum s i ≤ base.toNat + d ∧ base.toNat + d < addrSum s i + 4 ∨
          i < s.row.toNat ∧ ∃ k < s.k.toNat,
            addrX s k ≤ base.toNat + d ∧ base.toNat + d < addrX s k + 4 ∨
              addrY s i k ≤ base.toNat + d ∧ base.toNat + d < addrY s i k + 2) →
        ∃ draw, load32 t.mem (addrSum s i) = Config.raceDraw draw) ∧
      (∀ b, (∀ i < s.ff.toNat, b < addrSum s i ∨ addrSum s i + 4 ≤ b) → readByte t.mem b = readByte s.mem b)) ∧
  (∀ (s : State) (i : Nat) (p : Peer), memInv s → s.peers[i]? = some p →
    admits s .write (p.sumBase.toNat + 4 * p.row.toNat) 4 = true →
    ∃ t draw, hostAct (.peerRed i) s = .next t ∧
      load32 t.mem (p.sumBase.toNat + 4 * p.row.toNat) = Config.raceDraw draw ∧
      (∀ b, b < p.sumBase.toNat + 4 * p.row.toNat ∨ p.sumBase.toNat + 4 * p.row.toNat + 4 ≤ b →
        readByte t.mem b = readByte s.mem b) ∧
      t = { s with peers := t.peers, mem := t.mem, raced := t.raced, draws := t.draws } ∧
      if p.row = p.f then
        t.peers = s.peers.eraseIdx i ∧ (∀ d < 4 * (p.f.toNat + 1), p.sumBase.toNat + d ∈ t.raced) ∧
          ∀ b ∈ s.raced, b ∈ t.raced
      else t.peers = s.peers.set i ⟨p.sumBase, p.f, p.row + 1#3⟩ ∧ t.raced = s.raced) ∧
  (∀ (s : State) (i : Nat) (p : Peer), s.peers[i]? = some p →
    ∃ t : State, hostAct (.peerReset i) s = .next t ∧
      t = { s with peers := s.peers.eraseIdx i, raced := t.raced } ∧
      ∀ d < 4 * (p.f.toNat + 1), p.sumBase.toNat + d ∈ t.raced)

/-! The step. -/

/-- 10_state R33, 20_memory R61, 40_h2s R128: where the host's next interaction presents a word that decodes, the step
is `exec` of that instruction, on the state with the interaction and one schedule entry taken, and for the port with its
input in place. -/
def Obligations.StepRunsDecodedInstruction : Prop :=
  (∀ (s : State) (v : Word) (i : Instr) (rest : List HostAction), s.faultRec = none → turn s = some .host →
    s.hostQueue = .wreg 0x00 64 v :: rest → decode (.cmdw v) = .accepted i →
    step s = exec i { s with hostQueue := rest, schedule := s.schedule.tail }) ∧
  (∀ (s : State) (m : BitVec 2) (u : BitVec 128) (i : Instr) (rest : List HostAction), s.faultRec = none →
    turn s = some .host → s.hostQueue = .driveH2s m u :: rest → decode (.h2sm m) = .accepted i →
    step s = exec i { s with hostQueue := rest, schedule := s.schedule.tail, h2sIn := u })

/-- 70_reset_and_hazards R237: a `WAIT` with no command since reset never ends: after any number of steps the host still
polls and `DONE` is still 0. -/
def Obligations.WaitWithoutCommandHangs : Prop :=
  ∀ s : State, SeqInv s → healthy s → s.phase = .idle → done s = false → s.hostQueue = [.wait] →
    ∀ m : Nat, ∃ t : State, Host.Core.run Sys2Proof.core m s = .next t ∧ t.hostQueue = [.wait] ∧ done t = false

/-- 70_reset_and_hazards R237, 30_encoding R98: a poll of `WAIT` observes `STATUS` and changes nothing else; one that
reads `DONE = 1` ends the `WAIT`, one that reads `DONE = 0` leaves it. That a step is one poll is the model's choice
(log 18). -/
def Obligations.WaitEndsWhenDone : Prop :=
  ∀ (s : State) (rest : List HostAction), s.faultRec = none → turn s = some .host → s.hostQueue = .wait :: rest →
    step s = .next
      { s with
        hostQueue := if done s = true then rest else .wait :: rest
        schedule := s.schedule.tail
        observed := some (.window 0x08 (s.status &&& 0x3#64)) }
end

