-- ==== Sys2Proof/Laws/Memory.lean ====
section
/-! SUPPORT. The laws of data memory: every operation keeps the canonical form, a write is read back, and a write leaves
every other byte alone. -/

namespace Sys2Proof.Machine

/-- A canonical list stays canonical from any lower address. -/
theorem wfFrom_mono {lo lo' : Nat} (h : lo' ≤ lo) {m : Memory} (hm : wfFrom lo m = true) : wfFrom lo' m = true := by
  cases m with
  | nil => rfl
  | cons c rest =>
    simp only [wfFrom, Bool.and_eq_true, decide_eq_true_eq] at hm ⊢
    exact ⟨⟨⟨by omega, hm.1.1.2⟩, hm.1.2⟩, hm.2⟩

/-- Below its first address a canonical list reads as unlisted. -/
theorem readByte_below {lo a : Nat} {m : Memory} (hm : wfFrom lo m = true) (h : a < lo) :
    readByte m a = unlistedByte := by
  induction m generalizing lo with
  | nil => rfl
  | cons c rest ih =>
    simp only [wfFrom, Bool.and_eq_true, decide_eq_true_eq] at hm
    have hne : c.1 ≠ a := by omega
    simp only [readByte, hne, if_false]
    exact ih hm.2 (by omega)

/-- Inserting a byte keeps the canonical form. -/
theorem insertByte_wf {lo a : Nat} {m : Memory} {v : Byte} (hm : wfFrom lo m = true) (hlo : lo ≤ a)
    (ha : a < Config.memSize) : wfFrom lo (insertByte m a v) = true := by
  induction m generalizing lo with
  | nil =>
    by_cases hv : v = unlistedByte
    · simp [insertByte, hv, wfFrom]
    · simp [insertByte, hv, wfFrom, hlo, ha]
  | cons c rest ih =>
    obtain ⟨b, w⟩ := c
    have hm' := hm
    simp only [wfFrom, Bool.and_eq_true, decide_eq_true_eq] at hm'
    by_cases hab : a < b
    · by_cases hv : v = unlistedByte
      · simpa [insertByte, hab, hv] using hm
      · have : wfFrom (a + 1) ((b, w) :: rest) = true := by
          simp only [wfFrom, Bool.and_eq_true, decide_eq_true_eq]
          exact ⟨⟨⟨by omega, hm'.1.1.2⟩, hm'.1.2⟩, hm'.2⟩
        simp only [insertByte, hab, hv, if_true, if_false]
        rw [wfFrom, this]
        simp [hlo, ha, hv]
    · by_cases hEq : a = b
      · subst hEq
        by_cases hv : v = unlistedByte
        · simp only [insertByte, hab, hv, if_true, if_false]
          exact wfFrom_mono (by omega) hm'.2
        · simp only [insertByte, hab, hv, if_true, if_false]
          simp [wfFrom, hlo, ha, hv, hm'.2]
      · simp only [insertByte, hab, hEq, if_false, wfFrom, Bool.and_eq_true, decide_eq_true_eq]
        exact ⟨hm'.1, ih hm'.2 (by omega)⟩

/-- Inserting a byte leaves every other address alone, in every list. -/
theorem readByte_insertByte_ne {a b : Nat} (h : b ≠ a) (m : Memory) (v : Byte) :
    readByte (insertByte m a v) b = readByte m b := by
  induction m with
  | nil =>
    by_cases hv : v = unlistedByte
    · simp [insertByte, hv]
    · simp [insertByte, hv, readByte, Ne.symm h]
  | cons c rest ih =>
    obtain ⟨d, w⟩ := c
    by_cases hab : a < d
    · by_cases hv : v = unlistedByte
      · simp [insertByte, hab, hv]
      · simp [insertByte, hab, hv, readByte, Ne.symm h]
    · by_cases hEq : a = d
      · subst hEq
        by_cases hv : v = unlistedByte <;> simp [insertByte, hv, readByte, Ne.symm h]
      · simp only [insertByte, hab, hEq, if_false, readByte, ih]

/-- In a canonical list the inserted byte is read back. -/
theorem readByte_insertByte_same {lo a : Nat} {m : Memory} (hm : wfFrom lo m = true) (v : Byte) :
    readByte (insertByte m a v) a = v := by
  induction m generalizing lo with
  | nil =>
    by_cases hv : v = unlistedByte
    · simp [insertByte, hv, readByte]
    · simp [insertByte, hv, readByte]
  | cons c rest ih =>
    obtain ⟨d, w⟩ := c
    have hm' := hm
    simp only [wfFrom, Bool.and_eq_true, decide_eq_true_eq] at hm'
    by_cases hab : a < d
    · by_cases hv : v = unlistedByte
      · have hd : d ≠ a := by omega
        simp only [insertByte, hab, hv, if_true, readByte, hd, if_false]
        exact readByte_below hm'.2 (by omega)
      · simp [insertByte, hab, hv, readByte]
    · by_cases hEq : a = d
      · subst hEq
        by_cases hv : v = unlistedByte
        · simp only [insertByte, hab, hv, if_true, if_false]
          exact readByte_below hm'.2 (by omega)
        · simp [insertByte, hv, readByte]
      · have hd : d ≠ a := Ne.symm hEq
        simp only [insertByte, hab, hEq, if_false, readByte, hd]
        exact ih hm'.2

/-- Writing a byte keeps the canonical form. -/
theorem writeByte_wf {m : Memory} (hm : Memory.wf m = true) (a : Nat) (v : Byte) :
    Memory.wf (writeByte m a v) = true := by
  unfold writeByte
  split
  · exact insertByte_wf hm (Nat.zero_le a) ‹_›
  · exact hm

/-- Writing a byte leaves every other address alone. -/
theorem readByte_writeByte_ne {a b : Nat} (h : b ≠ a) (m : Memory) (v : Byte) :
    readByte (writeByte m a v) b = readByte m b := by
  unfold writeByte
  split
  · exact readByte_insertByte_ne h m v
  · rfl

/-- A byte written inside the data space is read back. -/
theorem readByte_writeByte_same {m : Memory} (hm : Memory.wf m = true) {a : Nat} (ha : a < Config.memSize) (v : Byte) :
    readByte (writeByte m a v) a = v := by
  unfold writeByte
  rw [if_pos ha]
  exact readByte_insertByte_same hm v

/-- Writing bytes keeps the canonical form. -/
theorem writeBytes_wf {m : Memory} (hm : Memory.wf m = true) (a : Nat) (bs : List Byte) :
    Memory.wf (writeBytes m a bs) = true := by
  induction bs generalizing m a with
  | nil => exact hm
  | cons v rest ih => exact ih (writeByte_wf hm a v) (a + 1)

/-- Writing bytes leaves every address outside them alone. -/
theorem readByte_writeBytes_out {a b : Nat} {bs : List Byte} (h : b < a ∨ a + bs.length ≤ b) (m : Memory) :
    readByte (writeBytes m a bs) b = readByte m b := by
  induction bs generalizing m a with
  | nil => rfl
  | cons v rest ih =>
    simp only [List.length_cons] at h
    rw [writeBytes, ih (by omega), readByte_writeByte_ne (by omega)]

/-- Bytes written inside the data space are read back, each at its own address. -/
theorem readByte_writeBytes_in {m : Memory} (hm : Memory.wf m = true) {a : Nat} {bs : List Byte}
    (ha : a + bs.length ≤ Config.memSize) {d : Nat} (hd : d < bs.length) :
    readByte (writeBytes m a bs) (a + d) = bs[d] := by
  induction bs generalizing m a d with
  | nil => simp at hd
  | cons v rest ih =>
    simp only [List.length_cons] at ha hd
    cases d with
    | zero =>
      rw [writeBytes, readByte_writeBytes_out (by omega)]
      exact readByte_writeByte_same hm (by omega) v
    | succ d =>
      rw [writeBytes, show a + (d + 1) = (a + 1) + d by omega,
        ih (writeByte_wf hm a v) (by omega) (by omega)]
      rfl

/-- Storing a single keeps the canonical form. -/
theorem store32_wf {m : Memory} (hm : Memory.wf m = true) (a : Nat) (v : Single) :
    Memory.wf (store32 m a v) = true := writeBytes_wf hm a _

/-- Storing a single leaves every address outside its four bytes alone. -/
theorem readByte_store32_out {a b : Nat} (h : b < a ∨ a + 4 ≤ b) (m : Memory) (v : Single) :
    readByte (store32 m a v) b = readByte m b := readByte_writeBytes_out (by simpa [bytesOf32] using h) m

/-- Drawing elements keeps the canonical form. -/
theorem drawElements_wf (base : Nat) (hit : Nat → Bool) (draw rows i : Nat) {m : Memory} (hm : Memory.wf m = true) :
    Memory.wf (drawElements base hit draw rows i m) = true := by
  induction rows generalizing i m with
  | zero => exact hm
  | succ rows ih =>
    rw [drawElements]
    split
    · exact ih _ (store32_wf hm _ _)
    · exact ih _ hm

/-- Drawing elements of which none is hit leaves memory alone. -/
theorem drawElements_none (base : Nat) (hit : Nat → Bool) (draw rows i : Nat) (m : Memory)
    (h : ∀ r, i ≤ r → r < i + rows → hit r = false) : drawElements base hit draw rows i m = m := by
  induction rows generalizing i with
  | zero => rfl
  | succ rows ih =>
    rw [drawElements, h i (Nat.le_refl i) (by omega)]
    exact ih (i + 1) fun r h1 h2 => h r (by omega) (by omega)

/-- Drawing elements leaves every byte outside the elements hit alone. -/
theorem readByte_drawElements_out (base : Nat) (hit : Nat → Bool) (draw rows i b : Nat) (m : Memory)
    (h : ∀ r, i ≤ r → r < i + rows → hit r = true → b < base + 4 * r ∨ base + 4 * r + 4 ≤ b) :
    readByte (drawElements base hit draw rows i m) b = readByte m b := by
  induction rows generalizing i m with
  | zero => rfl
  | succ rows ih =>
    rw [drawElements, ih (i + 1) _ fun r h1 h2 => h r (by omega) (by omega)]
    split
    · exact readByte_store32_out (h i (Nat.le_refl i) (by omega) ‹_›) _ _
    · rfl

/-- Drawing the raced `sum` elements of the running command keeps the canonical form. -/
theorem drawSums_wf (a len : Nat) {s : State} (hm : Memory.wf s.mem = true) : Memory.wf (drawSums a len s) = true :=
  drawElements_wf _ _ _ _ _ hm

/-- Drawing the raced `sum` elements of other instances keeps the canonical form. -/
theorem drawPeerSums_wf (a len draw : Nat) (ps : List Peer) {m : Memory} (hm : Memory.wf m = true) :
    Memory.wf (drawPeerSums a len draw ps m) = true := by
  induction ps generalizing draw m with
  | nil => exact hm
  | cons p rest ih => exact ih _ (drawElements_wf _ _ _ _ _ hm)

/-- A write that touches no running `sum` of another instance draws none. -/
theorem drawPeerSums_none (a len draw : Nat) (ps : List Peer) (m : Memory)
    (h : ∀ p ∈ ps, ∀ r < p.f.toNat + 1, touchesPeer p a len r = false) : drawPeerSums a len draw ps m = m := by
  induction ps generalizing draw with
  | nil => rfl
  | cons p rest ih =>
    rw [drawPeerSums, drawElements_none _ _ _ _ _ _ fun r _ hr => h p (by simp) r (by omega)]
    exact ih _ fun q hq => h q (by simp [hq])

/-- A byte appended below is added below. -/
theorem toNat_append_byte {n : Nat} (x : BitVec n) (b : Byte) : (x ++ b).toNat = x.toNat * 256 + b.toNat := by
  rw [BitVec.toNat_append, ← Nat.shiftLeft_add_eq_or_of_lt b.isLt, Nat.shiftLeft_eq]

/-- A single put together from its four bytes. -/
theorem bytes_append (v : Single) :
    v.extractLsb' 24 8 ++ v.extractLsb' 16 8 ++ v.extractLsb' 8 8 ++ v.extractLsb' 0 8 = v := by
  apply BitVec.eq_of_toNat_eq
  simp only [toNat_append_byte, BitVec.extractLsb'_toNat, Nat.shiftRight_eq_div_pow]
  have := v.isLt
  omega

/-- A single stored inside the data space is read back. -/
theorem load32_store32_same {m : Memory} (hm : Memory.wf m = true) {a : Nat} (ha : a + 4 ≤ Config.memSize) (v : Single) :
    load32 (store32 m a v) a = v := by
  have byte : ∀ d (hd : d < 4), readByte (store32 m a v) (a + d) = (bytesOf32 v)[d]'hd := fun d hd =>
    readByte_writeBytes_in hm (bs := bytesOf32 v) ha hd
  have b0 := byte 0 (by decide)
  rw [Nat.add_zero] at b0
  rw [load32, byte 3 (by decide), byte 2 (by decide), byte 1 (by decide), b0]
  exact bytes_append v

/-- An element is read as its four bytes are. -/
theorem load32_congr {m m' : Memory} {a : Nat} (h : ∀ d < 4, readByte m (a + d) = readByte m' (a + d)) :
    load32 m a = load32 m' a := by
  have h0 := h 0 (by decide)
  rw [Nat.add_zero] at h0
  rw [load32, load32, h 3 (by decide), h 2 (by decide), h 1 (by decide), h0]

/-- An element that is hit holds its own draw. -/
theorem load32_drawElements_hit {base : Nat} {hit : Nat → Bool} {draw rows i e : Nat} {m : Memory}
    (hm : Memory.wf m = true) (h1 : i ≤ e) (h2 : e < i + rows) (he : hit e = true)
    (ha : base + 4 * e + 4 ≤ Config.memSize) :
    load32 (drawElements base hit draw rows i m) (base + 4 * e) = Config.raceDraw (draw + e) := by
  induction rows generalizing i m with
  | zero => omega
  | succ rows ih =>
    rw [drawElements]
    by_cases hie : i = e
    · subst hie
      rw [if_pos he, load32_congr fun d hd => readByte_drawElements_out _ _ _ _ _ _ _ fun r hr _ _ => by omega]
      exact load32_store32_same hm ha _
    · refine ih ?_ (by omega) (by omega)
      split
      · exact store32_wf hm _ _
      · exact hm

/-- Drawing elements of an aligned array leaves an aligned element as it was, or puts a draw there. -/
theorem load32_drawElements {base : Nat} {hit : Nat → Bool} {draw rows i a : Nat} {m : Memory} (hm : Memory.wf m = true)
    (hb : base % 4 = 0) (ha4 : a % 4 = 0) (ha : a + 4 ≤ Config.memSize) :
    load32 (drawElements base hit draw rows i m) a = load32 m a ∨
      ∃ k, load32 (drawElements base hit draw rows i m) a = Config.raceDraw k := by
  by_cases h : ∃ r, i ≤ r ∧ r < i + rows ∧ hit r = true ∧ a = base + 4 * r
  · obtain ⟨r, h1, h2, h3, rfl⟩ := h
    exact .inr ⟨_, load32_drawElements_hit hm h1 h2 h3 ha⟩
  · refine .inl (load32_congr fun d hd => readByte_drawElements_out _ _ _ _ _ _ _ fun r h1 h2 h3 => ?_)
    by_contra hc
    exact h ⟨r, h1, h2, h3, by omega⟩

/-- A `sum` element of another instance's command that a write touches holds a draw. -/
theorem load32_drawPeerSums_hit {ps : List Peer} {p : Peer} {a len draw i : Nat} {m : Memory} (hm : Memory.wf m = true)
    (hal : ∀ q ∈ ps, q.sumBase.toNat % 4 = 0) (hp : p ∈ ps) (hi : i < p.f.toNat + 1)
    (ht : touchesPeer p a len i = true) (ha : peerAddr p i + 4 ≤ Config.memSize) :
    ∃ k, load32 (drawPeerSums a len draw ps m) (peerAddr p i) = Config.raceDraw k := by
  have keep : ∀ (qs : List Peer) (d : Nat) (n : Memory), Memory.wf n = true → (∀ q ∈ qs, q.sumBase.toNat % 4 = 0) →
      (∃ k, load32 n (peerAddr p i) = Config.raceDraw k) →
      ∃ k, load32 (drawPeerSums a len d qs n) (peerAddr p i) = Config.raceDraw k := by
    intro qs
    induction qs with
    | nil => exact fun _ _ _ _ h => h
    | cons q rest ih =>
      intro d n hn hq h
      refine ih _ _ (drawElements_wf _ _ _ _ _ hn) (fun r hr => hq r (by simp [hr])) ?_
      have h4 : peerAddr p i % 4 = 0 := by have := hal p hp; unfold peerAddr; omega
      rcases load32_drawElements (hit := touchesPeer q a len) (draw := d) (rows := q.f.toNat + 1) (i := 0) hn
        (hq q (by simp)) h4 ha with e | e
      · rw [e]; exact h
      · exact e
  induction ps generalizing draw m with
  | nil => simp at hp
  | cons q rest ih =>
    rcases List.mem_cons.mp hp with rfl | hr
    · rw [drawPeerSums]
      exact keep rest _ _ (drawElements_wf _ _ _ _ _ hm) (fun r hr => hal r (by simp [hr]))
        ⟨_, load32_drawElements_hit hm (Nat.zero_le i) (by omega) ht ha⟩
    · rw [drawPeerSums]
      exact ih (drawElements_wf _ _ _ _ _ hm) (fun r hr' => hal r (by simp [hr'])) hr

end Sys2Proof.Machine
end

