-- ==== Sys2Proof/Laws/PerInstr.lean ====
section
/-! SUPPORT. Statements made per instruction: every instruction is well-formed and so is its encoding. -/

namespace Sys2Proof.Laws.Formed

/-- The instruction and its encoded word pass their checks. -/
def Statement (i : Instr) : Prop := i.wellFormed = true ∧ (encode i).wellFormed = true

theorem dotxf1 : Statement .dotxf1 := by unfold Statement; decide
theorem dotxf2 : Statement .dotxf2 := by unfold Statement; decide
theorem dotxf3 : Statement .dotxf3 := by unfold Statement; decide
theorem dotxf4 : Statement .dotxf4 := by unfold Statement; decide
theorem dotxf5 : Statement .dotxf5 := by unfold Statement; decide
theorem dotxf6 : Statement .dotxf6 := by unfold Statement; decide
theorem dotxf7 : Statement .dotxf7 := by unfold Statement; decide
theorem dotxf8 : Statement .dotxf8 := by unfold Statement; decide
theorem h2sS : Statement .h2sS := by unfold Statement; decide
theorem h2sN : Statement .h2sN := by unfold Statement; decide
theorem h2sW : Statement .h2sW := by unfold Statement; decide

end Sys2Proof.Laws.Formed
end

