-- ==== Sys2Proof/Laws/State.lean ====
section
/-! SUPPORT. One lemma per field per update of the state, true by rfl, so that no later proof unfolds a record update. -/

namespace Sys2Proof.Machine

variable (s : State)

@[simp] theorem recordFault_cmd (f : Fault) : (recordFault f s).cmd = s.cmd := rfl
@[simp] theorem recordFault_status (f : Fault) : (recordFault f s).status = s.status := rfl
@[simp] theorem recordFault_xBase (f : Fault) : (recordFault f s).xBase = s.xBase := rfl
@[simp] theorem recordFault_yBase (f : Fault) : (recordFault f s).yBase = s.yBase := rfl
@[simp] theorem recordFault_stride (f : Fault) : (recordFault f s).stride = s.stride := rfl
@[simp] theorem recordFault_sumBase (f : Fault) : (recordFault f s).sumBase = s.sumBase := rfl
@[simp] theorem recordFault_n (f : Fault) : (recordFault f s).n = s.n := rfl
@[simp] theorem recordFault_written (f : Fault) : (recordFault f s).written = s.written := rfl
@[simp] theorem recordFault_phase (f : Fault) : (recordFault f s).phase = s.phase := rfl
@[simp] theorem recordFault_ff (f : Fault) : (recordFault f s).ff = s.ff := rfl
@[simp] theorem recordFault_k (f : Fault) : (recordFault f s).k = s.k := rfl
@[simp] theorem recordFault_row (f : Fault) : (recordFault f s).row = s.row := rfl
@[simp] theorem recordFault_acc (f : Fault) : (recordFault f s).acc = s.acc := rfl
@[simp] theorem recordFault_faultRec (f : Fault) : (recordFault f s).faultRec = some f := rfl
@[simp] theorem recordFault_refusalMark (f : Fault) : (recordFault f s).refusalMark = s.refusalMark := rfl
@[simp] theorem recordFault_mem (f : Fault) : (recordFault f s).mem = s.mem := rfl
@[simp] theorem recordFault_h2sMode (f : Fault) : (recordFault f s).h2sMode = s.h2sMode := rfl
@[simp] theorem recordFault_h2sIn (f : Fault) : (recordFault f s).h2sIn = s.h2sIn := rfl
@[simp] theorem recordFault_h2sOut (f : Fault) : (recordFault f s).h2sOut = s.h2sOut := rfl
@[simp] theorem recordFault_peers (f : Fault) : (recordFault f s).peers = s.peers := rfl
@[simp] theorem recordFault_params (f : Fault) : (recordFault f s).params = s.params := rfl
@[simp] theorem recordFault_hostQueue (f : Fault) : (recordFault f s).hostQueue = s.hostQueue := rfl
@[simp] theorem recordFault_schedule (f : Fault) : (recordFault f s).schedule = s.schedule := rfl
@[simp] theorem recordFault_observed (f : Fault) : (recordFault f s).observed = s.observed := rfl
@[simp] theorem recordFault_raced (f : Fault) : (recordFault f s).raced = s.raced := rfl
@[simp] theorem recordFault_draws (f : Fault) : (recordFault f s).draws = s.draws := rfl

@[simp] theorem markRefused_cmd : (markRefused s).cmd = s.cmd := rfl
@[simp] theorem markRefused_status : (markRefused s).status = s.status := rfl
@[simp] theorem markRefused_xBase : (markRefused s).xBase = s.xBase := rfl
@[simp] theorem markRefused_yBase : (markRefused s).yBase = s.yBase := rfl
@[simp] theorem markRefused_stride : (markRefused s).stride = s.stride := rfl
@[simp] theorem markRefused_sumBase : (markRefused s).sumBase = s.sumBase := rfl
@[simp] theorem markRefused_n : (markRefused s).n = s.n := rfl
@[simp] theorem markRefused_written : (markRefused s).written = s.written := rfl
@[simp] theorem markRefused_phase : (markRefused s).phase = s.phase := rfl
@[simp] theorem markRefused_ff : (markRefused s).ff = s.ff := rfl
@[simp] theorem markRefused_k : (markRefused s).k = s.k := rfl
@[simp] theorem markRefused_row : (markRefused s).row = s.row := rfl
@[simp] theorem markRefused_acc : (markRefused s).acc = s.acc := rfl
@[simp] theorem markRefused_faultRec : (markRefused s).faultRec = s.faultRec := rfl
@[simp] theorem markRefused_refusalMark : (markRefused s).refusalMark = true := rfl
@[simp] theorem markRefused_mem : (markRefused s).mem = s.mem := rfl
@[simp] theorem markRefused_h2sMode : (markRefused s).h2sMode = s.h2sMode := rfl
@[simp] theorem markRefused_h2sIn : (markRefused s).h2sIn = s.h2sIn := rfl
@[simp] theorem markRefused_h2sOut : (markRefused s).h2sOut = s.h2sOut := rfl
@[simp] theorem markRefused_peers : (markRefused s).peers = s.peers := rfl
@[simp] theorem markRefused_params : (markRefused s).params = s.params := rfl
@[simp] theorem markRefused_hostQueue : (markRefused s).hostQueue = s.hostQueue := rfl
@[simp] theorem markRefused_schedule : (markRefused s).schedule = s.schedule := rfl
@[simp] theorem markRefused_observed : (markRefused s).observed = s.observed := rfl
@[simp] theorem markRefused_raced : (markRefused s).raced = s.raced := rfl
@[simp] theorem markRefused_draws : (markRefused s).draws = s.draws := rfl

@[simp] theorem observe_cmd (o : Observation) : (observe o s).cmd = s.cmd := rfl
@[simp] theorem observe_status (o : Observation) : (observe o s).status = s.status := rfl
@[simp] theorem observe_xBase (o : Observation) : (observe o s).xBase = s.xBase := rfl
@[simp] theorem observe_yBase (o : Observation) : (observe o s).yBase = s.yBase := rfl
@[simp] theorem observe_stride (o : Observation) : (observe o s).stride = s.stride := rfl
@[simp] theorem observe_sumBase (o : Observation) : (observe o s).sumBase = s.sumBase := rfl
@[simp] theorem observe_n (o : Observation) : (observe o s).n = s.n := rfl
@[simp] theorem observe_written (o : Observation) : (observe o s).written = s.written := rfl
@[simp] theorem observe_phase (o : Observation) : (observe o s).phase = s.phase := rfl
@[simp] theorem observe_ff (o : Observation) : (observe o s).ff = s.ff := rfl
@[simp] theorem observe_k (o : Observation) : (observe o s).k = s.k := rfl
@[simp] theorem observe_row (o : Observation) : (observe o s).row = s.row := rfl
@[simp] theorem observe_acc (o : Observation) : (observe o s).acc = s.acc := rfl
@[simp] theorem observe_faultRec (o : Observation) : (observe o s).faultRec = s.faultRec := rfl
@[simp] theorem observe_refusalMark (o : Observation) : (observe o s).refusalMark = s.refusalMark := rfl
@[simp] theorem observe_mem (o : Observation) : (observe o s).mem = s.mem := rfl
@[simp] theorem observe_h2sMode (o : Observation) : (observe o s).h2sMode = s.h2sMode := rfl
@[simp] theorem observe_h2sIn (o : Observation) : (observe o s).h2sIn = s.h2sIn := rfl
@[simp] theorem observe_h2sOut (o : Observation) : (observe o s).h2sOut = s.h2sOut := rfl
@[simp] theorem observe_peers (o : Observation) : (observe o s).peers = s.peers := rfl
@[simp] theorem observe_params (o : Observation) : (observe o s).params = s.params := rfl
@[simp] theorem observe_hostQueue (o : Observation) : (observe o s).hostQueue = s.hostQueue := rfl
@[simp] theorem observe_schedule (o : Observation) : (observe o s).schedule = s.schedule := rfl
@[simp] theorem observe_observed (o : Observation) : (observe o s).observed = some o := rfl
@[simp] theorem observe_raced (o : Observation) : (observe o s).raced = s.raced := rfl
@[simp] theorem observe_draws (o : Observation) : (observe o s).draws = s.draws := rfl

@[simp] theorem popHost_cmd : (popHost s).cmd = s.cmd := rfl
@[simp] theorem popHost_status : (popHost s).status = s.status := rfl
@[simp] theorem popHost_xBase : (popHost s).xBase = s.xBase := rfl
@[simp] theorem popHost_yBase : (popHost s).yBase = s.yBase := rfl
@[simp] theorem popHost_stride : (popHost s).stride = s.stride := rfl
@[simp] theorem popHost_sumBase : (popHost s).sumBase = s.sumBase := rfl
@[simp] theorem popHost_n : (popHost s).n = s.n := rfl
@[simp] theorem popHost_written : (popHost s).written = s.written := rfl
@[simp] theorem popHost_phase : (popHost s).phase = s.phase := rfl
@[simp] theorem popHost_ff : (popHost s).ff = s.ff := rfl
@[simp] theorem popHost_k : (popHost s).k = s.k := rfl
@[simp] theorem popHost_row : (popHost s).row = s.row := rfl
@[simp] theorem popHost_acc : (popHost s).acc = s.acc := rfl
@[simp] theorem popHost_faultRec : (popHost s).faultRec = s.faultRec := rfl
@[simp] theorem popHost_refusalMark : (popHost s).refusalMark = s.refusalMark := rfl
@[simp] theorem popHost_mem : (popHost s).mem = s.mem := rfl
@[simp] theorem popHost_h2sMode : (popHost s).h2sMode = s.h2sMode := rfl
@[simp] theorem popHost_h2sIn : (popHost s).h2sIn = s.h2sIn := rfl
@[simp] theorem popHost_h2sOut : (popHost s).h2sOut = s.h2sOut := rfl
@[simp] theorem popHost_peers : (popHost s).peers = s.peers := rfl
@[simp] theorem popHost_params : (popHost s).params = s.params := rfl
@[simp] theorem popHost_hostQueue : (popHost s).hostQueue = s.hostQueue.tail := rfl
@[simp] theorem popHost_schedule : (popHost s).schedule = s.schedule := rfl
@[simp] theorem popHost_observed : (popHost s).observed = s.observed := rfl
@[simp] theorem popHost_raced : (popHost s).raced = s.raced := rfl
@[simp] theorem popHost_draws : (popHost s).draws = s.draws := rfl

@[simp] theorem popSchedule_cmd : (popSchedule s).cmd = s.cmd := rfl
@[simp] theorem popSchedule_status : (popSchedule s).status = s.status := rfl
@[simp] theorem popSchedule_xBase : (popSchedule s).xBase = s.xBase := rfl
@[simp] theorem popSchedule_yBase : (popSchedule s).yBase = s.yBase := rfl
@[simp] theorem popSchedule_stride : (popSchedule s).stride = s.stride := rfl
@[simp] theorem popSchedule_sumBase : (popSchedule s).sumBase = s.sumBase := rfl
@[simp] theorem popSchedule_n : (popSchedule s).n = s.n := rfl
@[simp] theorem popSchedule_written : (popSchedule s).written = s.written := rfl
@[simp] theorem popSchedule_phase : (popSchedule s).phase = s.phase := rfl
@[simp] theorem popSchedule_ff : (popSchedule s).ff = s.ff := rfl
@[simp] theorem popSchedule_k : (popSchedule s).k = s.k := rfl
@[simp] theorem popSchedule_row : (popSchedule s).row = s.row := rfl
@[simp] theorem popSchedule_acc : (popSchedule s).acc = s.acc := rfl
@[simp] theorem popSchedule_faultRec : (popSchedule s).faultRec = s.faultRec := rfl
@[simp] theorem popSchedule_refusalMark : (popSchedule s).refusalMark = s.refusalMark := rfl
@[simp] theorem popSchedule_mem : (popSchedule s).mem = s.mem := rfl
@[simp] theorem popSchedule_h2sMode : (popSchedule s).h2sMode = s.h2sMode := rfl
@[simp] theorem popSchedule_h2sIn : (popSchedule s).h2sIn = s.h2sIn := rfl
@[simp] theorem popSchedule_h2sOut : (popSchedule s).h2sOut = s.h2sOut := rfl
@[simp] theorem popSchedule_peers : (popSchedule s).peers = s.peers := rfl
@[simp] theorem popSchedule_params : (popSchedule s).params = s.params := rfl
@[simp] theorem popSchedule_hostQueue : (popSchedule s).hostQueue = s.hostQueue := rfl
@[simp] theorem popSchedule_schedule : (popSchedule s).schedule = s.schedule.tail := rfl
@[simp] theorem popSchedule_observed : (popSchedule s).observed = s.observed := rfl
@[simp] theorem popSchedule_raced : (popSchedule s).raced = s.raced := rfl
@[simp] theorem popSchedule_draws : (popSchedule s).draws = s.draws := rfl

@[simp] theorem setInput_cmd (u : BitVec 128) : (setInput u s).cmd = s.cmd := rfl
@[simp] theorem setInput_status (u : BitVec 128) : (setInput u s).status = s.status := rfl
@[simp] theorem setInput_xBase (u : BitVec 128) : (setInput u s).xBase = s.xBase := rfl
@[simp] theorem setInput_yBase (u : BitVec 128) : (setInput u s).yBase = s.yBase := rfl
@[simp] theorem setInput_stride (u : BitVec 128) : (setInput u s).stride = s.stride := rfl
@[simp] theorem setInput_sumBase (u : BitVec 128) : (setInput u s).sumBase = s.sumBase := rfl
@[simp] theorem setInput_n (u : BitVec 128) : (setInput u s).n = s.n := rfl
@[simp] theorem setInput_written (u : BitVec 128) : (setInput u s).written = s.written := rfl
@[simp] theorem setInput_phase (u : BitVec 128) : (setInput u s).phase = s.phase := rfl
@[simp] theorem setInput_ff (u : BitVec 128) : (setInput u s).ff = s.ff := rfl
@[simp] theorem setInput_k (u : BitVec 128) : (setInput u s).k = s.k := rfl
@[simp] theorem setInput_row (u : BitVec 128) : (setInput u s).row = s.row := rfl
@[simp] theorem setInput_acc (u : BitVec 128) : (setInput u s).acc = s.acc := rfl
@[simp] theorem setInput_faultRec (u : BitVec 128) : (setInput u s).faultRec = s.faultRec := rfl
@[simp] theorem setInput_refusalMark (u : BitVec 128) : (setInput u s).refusalMark = s.refusalMark := rfl
@[simp] theorem setInput_mem (u : BitVec 128) : (setInput u s).mem = s.mem := rfl
@[simp] theorem setInput_h2sMode (u : BitVec 128) : (setInput u s).h2sMode = s.h2sMode := rfl
@[simp] theorem setInput_h2sIn (u : BitVec 128) : (setInput u s).h2sIn = u := rfl
@[simp] theorem setInput_h2sOut (u : BitVec 128) : (setInput u s).h2sOut = s.h2sOut := rfl
@[simp] theorem setInput_peers (u : BitVec 128) : (setInput u s).peers = s.peers := rfl
@[simp] theorem setInput_params (u : BitVec 128) : (setInput u s).params = s.params := rfl
@[simp] theorem setInput_hostQueue (u : BitVec 128) : (setInput u s).hostQueue = s.hostQueue := rfl
@[simp] theorem setInput_schedule (u : BitVec 128) : (setInput u s).schedule = s.schedule := rfl
@[simp] theorem setInput_observed (u : BitVec 128) : (setInput u s).observed = s.observed := rfl
@[simp] theorem setInput_raced (u : BitVec 128) : (setInput u s).raced = s.raced := rfl
@[simp] theorem setInput_draws (u : BitVec 128) : (setInput u s).draws = s.draws := rfl

@[simp] theorem drivePort_cmd (m : BitVec 2) (o : BitVec 256) : (drivePort m o s).cmd = s.cmd := rfl
@[simp] theorem drivePort_status (m : BitVec 2) (o : BitVec 256) : (drivePort m o s).status = s.status := rfl
@[simp] theorem drivePort_xBase (m : BitVec 2) (o : BitVec 256) : (drivePort m o s).xBase = s.xBase := rfl
@[simp] theorem drivePort_yBase (m : BitVec 2) (o : BitVec 256) : (drivePort m o s).yBase = s.yBase := rfl
@[simp] theorem drivePort_stride (m : BitVec 2) (o : BitVec 256) : (drivePort m o s).stride = s.stride := rfl
@[simp] theorem drivePort_sumBase (m : BitVec 2) (o : BitVec 256) : (drivePort m o s).sumBase = s.sumBase := rfl
@[simp] theorem drivePort_n (m : BitVec 2) (o : BitVec 256) : (drivePort m o s).n = s.n := rfl
@[simp] theorem drivePort_written (m : BitVec 2) (o : BitVec 256) : (drivePort m o s).written = s.written := rfl
@[simp] theorem drivePort_phase (m : BitVec 2) (o : BitVec 256) : (drivePort m o s).phase = s.phase := rfl
@[simp] theorem drivePort_ff (m : BitVec 2) (o : BitVec 256) : (drivePort m o s).ff = s.ff := rfl
@[simp] theorem drivePort_k (m : BitVec 2) (o : BitVec 256) : (drivePort m o s).k = s.k := rfl
@[simp] theorem drivePort_row (m : BitVec 2) (o : BitVec 256) : (drivePort m o s).row = s.row := rfl
@[simp] theorem drivePort_acc (m : BitVec 2) (o : BitVec 256) : (drivePort m o s).acc = s.acc := rfl
@[simp] theorem drivePort_faultRec (m : BitVec 2) (o : BitVec 256) : (drivePort m o s).faultRec = s.faultRec := rfl
@[simp] theorem drivePort_refusalMark (m : BitVec 2) (o : BitVec 256) : (drivePort m o s).refusalMark = s.refusalMark := rfl
@[simp] theorem drivePort_mem (m : BitVec 2) (o : BitVec 256) : (drivePort m o s).mem = s.mem := rfl
@[simp] theorem drivePort_h2sMode (m : BitVec 2) (o : BitVec 256) : (drivePort m o s).h2sMode = m := rfl
@[simp] theorem drivePort_h2sIn (m : BitVec 2) (o : BitVec 256) : (drivePort m o s).h2sIn = s.h2sIn := rfl
@[simp] theorem drivePort_h2sOut (m : BitVec 2) (o : BitVec 256) : (drivePort m o s).h2sOut = o := rfl
@[simp] theorem drivePort_peers (m : BitVec 2) (o : BitVec 256) : (drivePort m o s).peers = s.peers := rfl
@[simp] theorem drivePort_params (m : BitVec 2) (o : BitVec 256) : (drivePort m o s).params = s.params := rfl
@[simp] theorem drivePort_hostQueue (m : BitVec 2) (o : BitVec 256) : (drivePort m o s).hostQueue = s.hostQueue := rfl
@[simp] theorem drivePort_schedule (m : BitVec 2) (o : BitVec 256) : (drivePort m o s).schedule = s.schedule := rfl
@[simp] theorem drivePort_observed (m : BitVec 2) (o : BitVec 256) : (drivePort m o s).observed = s.observed := rfl
@[simp] theorem drivePort_raced (m : BitVec 2) (o : BitVec 256) : (drivePort m o s).raced = s.raced := rfl
@[simp] theorem drivePort_draws (m : BitVec 2) (o : BitVec 256) : (drivePort m o s).draws = s.draws := rfl

@[simp] theorem driveOpen_cmd (m : BitVec 2) (u : BitVec 128) : (driveOpen m u s).cmd = s.cmd := rfl
@[simp] theorem driveOpen_status (m : BitVec 2) (u : BitVec 128) : (driveOpen m u s).status = s.status := rfl
@[simp] theorem driveOpen_xBase (m : BitVec 2) (u : BitVec 128) : (driveOpen m u s).xBase = s.xBase := rfl
@[simp] theorem driveOpen_yBase (m : BitVec 2) (u : BitVec 128) : (driveOpen m u s).yBase = s.yBase := rfl
@[simp] theorem driveOpen_stride (m : BitVec 2) (u : BitVec 128) : (driveOpen m u s).stride = s.stride := rfl
@[simp] theorem driveOpen_sumBase (m : BitVec 2) (u : BitVec 128) : (driveOpen m u s).sumBase = s.sumBase := rfl
@[simp] theorem driveOpen_n (m : BitVec 2) (u : BitVec 128) : (driveOpen m u s).n = s.n := rfl
@[simp] theorem driveOpen_written (m : BitVec 2) (u : BitVec 128) : (driveOpen m u s).written = s.written := rfl
@[simp] theorem driveOpen_phase (m : BitVec 2) (u : BitVec 128) : (driveOpen m u s).phase = s.phase := rfl
@[simp] theorem driveOpen_ff (m : BitVec 2) (u : BitVec 128) : (driveOpen m u s).ff = s.ff := rfl
@[simp] theorem driveOpen_k (m : BitVec 2) (u : BitVec 128) : (driveOpen m u s).k = s.k := rfl
@[simp] theorem driveOpen_row (m : BitVec 2) (u : BitVec 128) : (driveOpen m u s).row = s.row := rfl
@[simp] theorem driveOpen_acc (m : BitVec 2) (u : BitVec 128) : (driveOpen m u s).acc = s.acc := rfl
@[simp] theorem driveOpen_faultRec (m : BitVec 2) (u : BitVec 128) : (driveOpen m u s).faultRec = s.faultRec := rfl
@[simp] theorem driveOpen_refusalMark (m : BitVec 2) (u : BitVec 128) : (driveOpen m u s).refusalMark = s.refusalMark := rfl
@[simp] theorem driveOpen_mem (m : BitVec 2) (u : BitVec 128) : (driveOpen m u s).mem = s.mem := rfl
@[simp] theorem driveOpen_h2sMode (m : BitVec 2) (u : BitVec 128) : (driveOpen m u s).h2sMode = m := rfl
@[simp] theorem driveOpen_h2sIn (m : BitVec 2) (u : BitVec 128) : (driveOpen m u s).h2sIn = u := rfl
@[simp] theorem driveOpen_h2sOut (m : BitVec 2) (u : BitVec 128) : (driveOpen m u s).h2sOut = Config.portDraw s.draws := rfl
@[simp] theorem driveOpen_peers (m : BitVec 2) (u : BitVec 128) : (driveOpen m u s).peers = s.peers := rfl
@[simp] theorem driveOpen_params (m : BitVec 2) (u : BitVec 128) : (driveOpen m u s).params = s.params := rfl
@[simp] theorem driveOpen_hostQueue (m : BitVec 2) (u : BitVec 128) : (driveOpen m u s).hostQueue = s.hostQueue := rfl
@[simp] theorem driveOpen_schedule (m : BitVec 2) (u : BitVec 128) : (driveOpen m u s).schedule = s.schedule := rfl
@[simp] theorem driveOpen_observed (m : BitVec 2) (u : BitVec 128) : (driveOpen m u s).observed = s.observed := rfl
@[simp] theorem driveOpen_raced (m : BitVec 2) (u : BitVec 128) : (driveOpen m u s).raced = s.raced := rfl
@[simp] theorem driveOpen_draws (m : BitVec 2) (u : BitVec 128) : (driveOpen m u s).draws = s.draws + 1 := rfl

@[simp] theorem started_cmd (v : Word) : (started v s).cmd = v := rfl
@[simp] theorem started_status (v : Word) : (started v s).status = statusStarted s.status := rfl
@[simp] theorem started_xBase (v : Word) : (started v s).xBase = s.xBase := rfl
@[simp] theorem started_yBase (v : Word) : (started v s).yBase = s.yBase := rfl
@[simp] theorem started_stride (v : Word) : (started v s).stride = s.stride := rfl
@[simp] theorem started_sumBase (v : Word) : (started v s).sumBase = s.sumBase := rfl
@[simp] theorem started_n (v : Word) : (started v s).n = s.n := rfl
@[simp] theorem started_written (v : Word) : (started v s).written = { s.written with cmd := true } := rfl
@[simp] theorem started_phase (v : Word) : (started v s).phase = nextPhase s 0 := rfl
@[simp] theorem started_ff (v : Word) : (started v s).ff = fusionOf v := rfl
@[simp] theorem started_k (v : Word) : (started v s).k = 0#64 := rfl
@[simp] theorem started_row (v : Word) : (started v s).row = 0#4 := rfl
@[simp] theorem started_acc (v : Word) : (started v s).acc = zeroRows (fusionOf v).toNat s.acc := rfl
@[simp] theorem started_faultRec (v : Word) : (started v s).faultRec = s.faultRec := rfl
@[simp] theorem started_refusalMark (v : Word) : (started v s).refusalMark = s.refusalMark := rfl
@[simp] theorem started_mem (v : Word) : (started v s).mem = s.mem := rfl
@[simp] theorem started_h2sMode (v : Word) : (started v s).h2sMode = s.h2sMode := rfl
@[simp] theorem started_h2sIn (v : Word) : (started v s).h2sIn = s.h2sIn := rfl
@[simp] theorem started_h2sOut (v : Word) : (started v s).h2sOut = s.h2sOut := rfl
@[simp] theorem started_peers (v : Word) : (started v s).peers = s.peers := rfl
@[simp] theorem started_params (v : Word) : (started v s).params = s.params := rfl
@[simp] theorem started_hostQueue (v : Word) : (started v s).hostQueue = s.hostQueue := rfl
@[simp] theorem started_schedule (v : Word) : (started v s).schedule = s.schedule := rfl
@[simp] theorem started_observed (v : Word) : (started v s).observed = s.observed := rfl
@[simp] theorem started_raced (v : Word) : (started v s).raced = [] := rfl
@[simp] theorem started_draws (v : Word) : (started v s).draws = s.draws := rfl

@[simp] theorem bulkNext_cmd : (bulkNext s).cmd = s.cmd := rfl
@[simp] theorem bulkNext_status : (bulkNext s).status = s.status := rfl
@[simp] theorem bulkNext_xBase : (bulkNext s).xBase = s.xBase := rfl
@[simp] theorem bulkNext_yBase : (bulkNext s).yBase = s.yBase := rfl
@[simp] theorem bulkNext_stride : (bulkNext s).stride = s.stride := rfl
@[simp] theorem bulkNext_sumBase : (bulkNext s).sumBase = s.sumBase := rfl
@[simp] theorem bulkNext_n : (bulkNext s).n = s.n := rfl
@[simp] theorem bulkNext_written : (bulkNext s).written = s.written := rfl
@[simp] theorem bulkNext_phase : (bulkNext s).phase = nextPhase s (s.k + 8#64).toNat := rfl
@[simp] theorem bulkNext_ff : (bulkNext s).ff = s.ff := rfl
@[simp] theorem bulkNext_k : (bulkNext s).k = s.k + 8#64 := rfl
@[simp] theorem bulkNext_row : (bulkNext s).row = s.row := rfl
@[simp] theorem bulkNext_faultRec : (bulkNext s).faultRec = s.faultRec := rfl
@[simp] theorem bulkNext_refusalMark : (bulkNext s).refusalMark = s.refusalMark := rfl
@[simp] theorem bulkNext_mem : (bulkNext s).mem = s.mem := rfl
@[simp] theorem bulkNext_h2sMode : (bulkNext s).h2sMode = s.h2sMode := rfl
@[simp] theorem bulkNext_h2sIn : (bulkNext s).h2sIn = s.h2sIn := rfl
@[simp] theorem bulkNext_h2sOut : (bulkNext s).h2sOut = s.h2sOut := rfl
@[simp] theorem bulkNext_peers : (bulkNext s).peers = s.peers := rfl
@[simp] theorem bulkNext_params : (bulkNext s).params = s.params := rfl
@[simp] theorem bulkNext_hostQueue : (bulkNext s).hostQueue = s.hostQueue := rfl
@[simp] theorem bulkNext_schedule : (bulkNext s).schedule = s.schedule := rfl
@[simp] theorem bulkNext_observed : (bulkNext s).observed = s.observed := rfl
@[simp] theorem bulkNext_raced : (bulkNext s).raced = s.raced := rfl
@[simp] theorem bulkNext_draws : (bulkNext s).draws = s.draws + bulkDraws := rfl

@[simp] theorem remNext_cmd : (remNext s).cmd = s.cmd := rfl
@[simp] theorem remNext_status : (remNext s).status = s.status := rfl
@[simp] theorem remNext_xBase : (remNext s).xBase = s.xBase := rfl
@[simp] theorem remNext_yBase : (remNext s).yBase = s.yBase := rfl
@[simp] theorem remNext_stride : (remNext s).stride = s.stride := rfl
@[simp] theorem remNext_sumBase : (remNext s).sumBase = s.sumBase := rfl
@[simp] theorem remNext_n : (remNext s).n = s.n := rfl
@[simp] theorem remNext_written : (remNext s).written = s.written := rfl
@[simp] theorem remNext_phase : (remNext s).phase = nextPhase s (s.k + 1#64).toNat := rfl
@[simp] theorem remNext_ff : (remNext s).ff = s.ff := rfl
@[simp] theorem remNext_k : (remNext s).k = s.k + 1#64 := rfl
@[simp] theorem remNext_row : (remNext s).row = s.row := rfl
@[simp] theorem remNext_faultRec : (remNext s).faultRec = s.faultRec := rfl
@[simp] theorem remNext_refusalMark : (remNext s).refusalMark = s.refusalMark := rfl
@[simp] theorem remNext_mem : (remNext s).mem = s.mem := rfl
@[simp] theorem remNext_h2sMode : (remNext s).h2sMode = s.h2sMode := rfl
@[simp] theorem remNext_h2sIn : (remNext s).h2sIn = s.h2sIn := rfl
@[simp] theorem remNext_h2sOut : (remNext s).h2sOut = s.h2sOut := rfl
@[simp] theorem remNext_peers : (remNext s).peers = s.peers := rfl
@[simp] theorem remNext_params : (remNext s).params = s.params := rfl
@[simp] theorem remNext_hostQueue : (remNext s).hostQueue = s.hostQueue := rfl
@[simp] theorem remNext_schedule : (remNext s).schedule = s.schedule := rfl
@[simp] theorem remNext_observed : (remNext s).observed = s.observed := rfl
@[simp] theorem remNext_raced : (remNext s).raced = s.raced := rfl
@[simp] theorem remNext_draws : (remNext s).draws = s.draws + remDraws := rfl

@[simp] theorem redNext_cmd : (redNext s).cmd = s.cmd := rfl
@[simp] theorem redNext_status : (redNext s).status = if s.row + 1#4 == s.ff then statusFinished s.status else s.status := rfl
@[simp] theorem redNext_xBase : (redNext s).xBase = s.xBase := rfl
@[simp] theorem redNext_yBase : (redNext s).yBase = s.yBase := rfl
@[simp] theorem redNext_stride : (redNext s).stride = s.stride := rfl
@[simp] theorem redNext_sumBase : (redNext s).sumBase = s.sumBase := rfl
@[simp] theorem redNext_n : (redNext s).n = s.n := rfl
@[simp] theorem redNext_written : (redNext s).written = s.written := rfl
@[simp] theorem redNext_phase : (redNext s).phase = if s.row + 1#4 == s.ff then .idle else .red := rfl
@[simp] theorem redNext_ff : (redNext s).ff = s.ff := rfl
@[simp] theorem redNext_k : (redNext s).k = s.k := rfl
@[simp] theorem redNext_row : (redNext s).row = s.row + 1#4 := rfl
@[simp] theorem redNext_acc : (redNext s).acc = s.acc := rfl
@[simp] theorem redNext_faultRec : (redNext s).faultRec = s.faultRec := rfl
@[simp] theorem redNext_refusalMark : (redNext s).refusalMark = s.refusalMark := rfl
@[simp] theorem redNext_mem : (redNext s).mem = store32 s.mem (addrSum s s.row.toNat) (redValue s) := rfl
@[simp] theorem redNext_h2sMode : (redNext s).h2sMode = s.h2sMode := rfl
@[simp] theorem redNext_h2sIn : (redNext s).h2sIn = s.h2sIn := rfl
@[simp] theorem redNext_h2sOut : (redNext s).h2sOut = s.h2sOut := rfl
@[simp] theorem redNext_peers : (redNext s).peers = s.peers := rfl
@[simp] theorem redNext_params : (redNext s).params = s.params := rfl
@[simp] theorem redNext_hostQueue : (redNext s).hostQueue = s.hostQueue := rfl
@[simp] theorem redNext_schedule : (redNext s).schedule = s.schedule := rfl
@[simp] theorem redNext_observed : (redNext s).observed = s.observed := rfl
@[simp] theorem redNext_raced : (redNext s).raced = s.raced := rfl
@[simp] theorem redNext_draws : (redNext s).draws = s.draws + redDraws := rfl

@[simp] theorem plainStore_cmd (a : Nat) (bs : List Byte) : (plainStore a bs s).cmd = s.cmd := rfl
@[simp] theorem plainStore_status (a : Nat) (bs : List Byte) : (plainStore a bs s).status = s.status := rfl
@[simp] theorem plainStore_xBase (a : Nat) (bs : List Byte) : (plainStore a bs s).xBase = s.xBase := rfl
@[simp] theorem plainStore_yBase (a : Nat) (bs : List Byte) : (plainStore a bs s).yBase = s.yBase := rfl
@[simp] theorem plainStore_stride (a : Nat) (bs : List Byte) : (plainStore a bs s).stride = s.stride := rfl
@[simp] theorem plainStore_sumBase (a : Nat) (bs : List Byte) : (plainStore a bs s).sumBase = s.sumBase := rfl
@[simp] theorem plainStore_n (a : Nat) (bs : List Byte) : (plainStore a bs s).n = s.n := rfl
@[simp] theorem plainStore_written (a : Nat) (bs : List Byte) : (plainStore a bs s).written = s.written := rfl
@[simp] theorem plainStore_phase (a : Nat) (bs : List Byte) : (plainStore a bs s).phase = s.phase := rfl
@[simp] theorem plainStore_ff (a : Nat) (bs : List Byte) : (plainStore a bs s).ff = s.ff := rfl
@[simp] theorem plainStore_k (a : Nat) (bs : List Byte) : (plainStore a bs s).k = s.k := rfl
@[simp] theorem plainStore_row (a : Nat) (bs : List Byte) : (plainStore a bs s).row = s.row := rfl
@[simp] theorem plainStore_acc (a : Nat) (bs : List Byte) : (plainStore a bs s).acc = s.acc := rfl
@[simp] theorem plainStore_faultRec (a : Nat) (bs : List Byte) : (plainStore a bs s).faultRec = s.faultRec := rfl
@[simp] theorem plainStore_refusalMark (a : Nat) (bs : List Byte) : (plainStore a bs s).refusalMark = s.refusalMark := rfl
@[simp] theorem plainStore_mem (a : Nat) (bs : List Byte) : (plainStore a bs s).mem = drawPeerSums a bs.length s.draws s.peers (writeBytes s.mem a bs) := rfl
@[simp] theorem plainStore_h2sMode (a : Nat) (bs : List Byte) : (plainStore a bs s).h2sMode = s.h2sMode := rfl
@[simp] theorem plainStore_h2sIn (a : Nat) (bs : List Byte) : (plainStore a bs s).h2sIn = s.h2sIn := rfl
@[simp] theorem plainStore_h2sOut (a : Nat) (bs : List Byte) : (plainStore a bs s).h2sOut = s.h2sOut := rfl
@[simp] theorem plainStore_peers (a : Nat) (bs : List Byte) : (plainStore a bs s).peers = s.peers := rfl
@[simp] theorem plainStore_params (a : Nat) (bs : List Byte) : (plainStore a bs s).params = s.params := rfl
@[simp] theorem plainStore_hostQueue (a : Nat) (bs : List Byte) : (plainStore a bs s).hostQueue = s.hostQueue := rfl
@[simp] theorem plainStore_schedule (a : Nat) (bs : List Byte) : (plainStore a bs s).schedule = s.schedule := rfl
@[simp] theorem plainStore_observed (a : Nat) (bs : List Byte) : (plainStore a bs s).observed = s.observed := rfl
@[simp] theorem plainStore_raced (a : Nat) (bs : List Byte) : (plainStore a bs s).raced = s.raced := rfl
@[simp] theorem plainStore_draws (a : Nat) (bs : List Byte) : (plainStore a bs s).draws = s.draws + peerDraws s := rfl

@[simp] theorem raceTouch_cmd (a z : Nat) : (raceTouch a z s).cmd = s.cmd := rfl
@[simp] theorem raceTouch_status (a z : Nat) : (raceTouch a z s).status = s.status := rfl
@[simp] theorem raceTouch_xBase (a z : Nat) : (raceTouch a z s).xBase = s.xBase := rfl
@[simp] theorem raceTouch_yBase (a z : Nat) : (raceTouch a z s).yBase = s.yBase := rfl
@[simp] theorem raceTouch_stride (a z : Nat) : (raceTouch a z s).stride = s.stride := rfl
@[simp] theorem raceTouch_sumBase (a z : Nat) : (raceTouch a z s).sumBase = s.sumBase := rfl
@[simp] theorem raceTouch_n (a z : Nat) : (raceTouch a z s).n = s.n := rfl
@[simp] theorem raceTouch_written (a z : Nat) : (raceTouch a z s).written = s.written := rfl
@[simp] theorem raceTouch_phase (a z : Nat) : (raceTouch a z s).phase = s.phase := rfl
@[simp] theorem raceTouch_ff (a z : Nat) : (raceTouch a z s).ff = s.ff := rfl
@[simp] theorem raceTouch_k (a z : Nat) : (raceTouch a z s).k = s.k := rfl
@[simp] theorem raceTouch_row (a z : Nat) : (raceTouch a z s).row = s.row := rfl
@[simp] theorem raceTouch_faultRec (a z : Nat) : (raceTouch a z s).faultRec = s.faultRec := rfl
@[simp] theorem raceTouch_refusalMark (a z : Nat) : (raceTouch a z s).refusalMark = s.refusalMark := rfl
@[simp] theorem raceTouch_mem (a z : Nat) : (raceTouch a z s).mem = drawSums a z s := rfl
@[simp] theorem raceTouch_h2sMode (a z : Nat) : (raceTouch a z s).h2sMode = s.h2sMode := rfl
@[simp] theorem raceTouch_h2sIn (a z : Nat) : (raceTouch a z s).h2sIn = s.h2sIn := rfl
@[simp] theorem raceTouch_h2sOut (a z : Nat) : (raceTouch a z s).h2sOut = s.h2sOut := rfl
@[simp] theorem raceTouch_peers (a z : Nat) : (raceTouch a z s).peers = s.peers := rfl
@[simp] theorem raceTouch_params (a z : Nat) : (raceTouch a z s).params = s.params := rfl
@[simp] theorem raceTouch_hostQueue (a z : Nat) : (raceTouch a z s).hostQueue = s.hostQueue := rfl
@[simp] theorem raceTouch_schedule (a z : Nat) : (raceTouch a z s).schedule = s.schedule := rfl
@[simp] theorem raceTouch_observed (a z : Nat) : (raceTouch a z s).observed = s.observed := rfl
@[simp] theorem raceTouch_raced (a z : Nat) : (raceTouch a z s).raced = (List.range z).map (fun d => a + d) ++ s.raced := rfl
@[simp] theorem raceTouch_draws (a z : Nat) : (raceTouch a z s).draws = s.draws + 72 := rfl

@[simp] theorem raceStore_cmd (a : Nat) (bs : List Byte) : (raceStore a bs s).cmd = s.cmd := rfl
@[simp] theorem raceStore_status (a : Nat) (bs : List Byte) : (raceStore a bs s).status = s.status := rfl
@[simp] theorem raceStore_xBase (a : Nat) (bs : List Byte) : (raceStore a bs s).xBase = s.xBase := rfl
@[simp] theorem raceStore_yBase (a : Nat) (bs : List Byte) : (raceStore a bs s).yBase = s.yBase := rfl
@[simp] theorem raceStore_stride (a : Nat) (bs : List Byte) : (raceStore a bs s).stride = s.stride := rfl
@[simp] theorem raceStore_sumBase (a : Nat) (bs : List Byte) : (raceStore a bs s).sumBase = s.sumBase := rfl
@[simp] theorem raceStore_n (a : Nat) (bs : List Byte) : (raceStore a bs s).n = s.n := rfl
@[simp] theorem raceStore_written (a : Nat) (bs : List Byte) : (raceStore a bs s).written = s.written := rfl
@[simp] theorem raceStore_phase (a : Nat) (bs : List Byte) : (raceStore a bs s).phase = s.phase := rfl
@[simp] theorem raceStore_ff (a : Nat) (bs : List Byte) : (raceStore a bs s).ff = s.ff := rfl
@[simp] theorem raceStore_k (a : Nat) (bs : List Byte) : (raceStore a bs s).k = s.k := rfl
@[simp] theorem raceStore_row (a : Nat) (bs : List Byte) : (raceStore a bs s).row = s.row := rfl
@[simp] theorem raceStore_faultRec (a : Nat) (bs : List Byte) : (raceStore a bs s).faultRec = s.faultRec := rfl
@[simp] theorem raceStore_refusalMark (a : Nat) (bs : List Byte) : (raceStore a bs s).refusalMark = s.refusalMark := rfl
@[simp] theorem raceStore_mem (a : Nat) (bs : List Byte) : (raceStore a bs s).mem = drawSums a bs.length (plainStore a bs s) := rfl
@[simp] theorem raceStore_h2sMode (a : Nat) (bs : List Byte) : (raceStore a bs s).h2sMode = s.h2sMode := rfl
@[simp] theorem raceStore_h2sIn (a : Nat) (bs : List Byte) : (raceStore a bs s).h2sIn = s.h2sIn := rfl
@[simp] theorem raceStore_h2sOut (a : Nat) (bs : List Byte) : (raceStore a bs s).h2sOut = s.h2sOut := rfl
@[simp] theorem raceStore_peers (a : Nat) (bs : List Byte) : (raceStore a bs s).peers = s.peers := rfl
@[simp] theorem raceStore_params (a : Nat) (bs : List Byte) : (raceStore a bs s).params = s.params := rfl
@[simp] theorem raceStore_hostQueue (a : Nat) (bs : List Byte) : (raceStore a bs s).hostQueue = s.hostQueue := rfl
@[simp] theorem raceStore_schedule (a : Nat) (bs : List Byte) : (raceStore a bs s).schedule = s.schedule := rfl
@[simp] theorem raceStore_observed (a : Nat) (bs : List Byte) : (raceStore a bs s).observed = s.observed := rfl
@[simp] theorem raceStore_raced (a : Nat) (bs : List Byte) : (raceStore a bs s).raced = (List.range bs.length).map (fun d => a + d) ++ s.raced := rfl
@[simp] theorem raceStore_draws (a : Nat) (bs : List Byte) : (raceStore a bs s).draws = s.draws + peerDraws s + 72 := rfl

@[simp] theorem addPeer_cmd (p : Peer) : (addPeer p s).cmd = s.cmd := rfl
@[simp] theorem addPeer_status (p : Peer) : (addPeer p s).status = s.status := rfl
@[simp] theorem addPeer_xBase (p : Peer) : (addPeer p s).xBase = s.xBase := rfl
@[simp] theorem addPeer_yBase (p : Peer) : (addPeer p s).yBase = s.yBase := rfl
@[simp] theorem addPeer_stride (p : Peer) : (addPeer p s).stride = s.stride := rfl
@[simp] theorem addPeer_sumBase (p : Peer) : (addPeer p s).sumBase = s.sumBase := rfl
@[simp] theorem addPeer_n (p : Peer) : (addPeer p s).n = s.n := rfl
@[simp] theorem addPeer_written (p : Peer) : (addPeer p s).written = s.written := rfl
@[simp] theorem addPeer_phase (p : Peer) : (addPeer p s).phase = s.phase := rfl
@[simp] theorem addPeer_ff (p : Peer) : (addPeer p s).ff = s.ff := rfl
@[simp] theorem addPeer_k (p : Peer) : (addPeer p s).k = s.k := rfl
@[simp] theorem addPeer_row (p : Peer) : (addPeer p s).row = s.row := rfl
@[simp] theorem addPeer_acc (p : Peer) : (addPeer p s).acc = s.acc := rfl
@[simp] theorem addPeer_faultRec (p : Peer) : (addPeer p s).faultRec = s.faultRec := rfl
@[simp] theorem addPeer_refusalMark (p : Peer) : (addPeer p s).refusalMark = s.refusalMark := rfl
@[simp] theorem addPeer_mem (p : Peer) : (addPeer p s).mem = s.mem := rfl
@[simp] theorem addPeer_h2sMode (p : Peer) : (addPeer p s).h2sMode = s.h2sMode := rfl
@[simp] theorem addPeer_h2sIn (p : Peer) : (addPeer p s).h2sIn = s.h2sIn := rfl
@[simp] theorem addPeer_h2sOut (p : Peer) : (addPeer p s).h2sOut = s.h2sOut := rfl
@[simp] theorem addPeer_peers (p : Peer) : (addPeer p s).peers = s.peers ++ [p] := rfl
@[simp] theorem addPeer_params (p : Peer) : (addPeer p s).params = s.params := rfl
@[simp] theorem addPeer_hostQueue (p : Peer) : (addPeer p s).hostQueue = s.hostQueue := rfl
@[simp] theorem addPeer_schedule (p : Peer) : (addPeer p s).schedule = s.schedule := rfl
@[simp] theorem addPeer_observed (p : Peer) : (addPeer p s).observed = s.observed := rfl
@[simp] theorem addPeer_raced (p : Peer) : (addPeer p s).raced = s.raced := rfl
@[simp] theorem addPeer_draws (p : Peer) : (addPeer p s).draws = s.draws := rfl

@[simp] theorem endPeer_cmd (i : Nat) (p : Peer) : (endPeer i p s).cmd = s.cmd := rfl
@[simp] theorem endPeer_status (i : Nat) (p : Peer) : (endPeer i p s).status = s.status := rfl
@[simp] theorem endPeer_xBase (i : Nat) (p : Peer) : (endPeer i p s).xBase = s.xBase := rfl
@[simp] theorem endPeer_yBase (i : Nat) (p : Peer) : (endPeer i p s).yBase = s.yBase := rfl
@[simp] theorem endPeer_stride (i : Nat) (p : Peer) : (endPeer i p s).stride = s.stride := rfl
@[simp] theorem endPeer_sumBase (i : Nat) (p : Peer) : (endPeer i p s).sumBase = s.sumBase := rfl
@[simp] theorem endPeer_n (i : Nat) (p : Peer) : (endPeer i p s).n = s.n := rfl
@[simp] theorem endPeer_written (i : Nat) (p : Peer) : (endPeer i p s).written = s.written := rfl
@[simp] theorem endPeer_phase (i : Nat) (p : Peer) : (endPeer i p s).phase = s.phase := rfl
@[simp] theorem endPeer_ff (i : Nat) (p : Peer) : (endPeer i p s).ff = s.ff := rfl
@[simp] theorem endPeer_k (i : Nat) (p : Peer) : (endPeer i p s).k = s.k := rfl
@[simp] theorem endPeer_row (i : Nat) (p : Peer) : (endPeer i p s).row = s.row := rfl
@[simp] theorem endPeer_acc (i : Nat) (p : Peer) : (endPeer i p s).acc = s.acc := rfl
@[simp] theorem endPeer_faultRec (i : Nat) (p : Peer) : (endPeer i p s).faultRec = s.faultRec := rfl
@[simp] theorem endPeer_refusalMark (i : Nat) (p : Peer) : (endPeer i p s).refusalMark = s.refusalMark := rfl
@[simp] theorem endPeer_mem (i : Nat) (p : Peer) : (endPeer i p s).mem = s.mem := rfl
@[simp] theorem endPeer_h2sMode (i : Nat) (p : Peer) : (endPeer i p s).h2sMode = s.h2sMode := rfl
@[simp] theorem endPeer_h2sIn (i : Nat) (p : Peer) : (endPeer i p s).h2sIn = s.h2sIn := rfl
@[simp] theorem endPeer_h2sOut (i : Nat) (p : Peer) : (endPeer i p s).h2sOut = s.h2sOut := rfl
@[simp] theorem endPeer_peers (i : Nat) (p : Peer) : (endPeer i p s).peers = s.peers.eraseIdx i := rfl
@[simp] theorem endPeer_params (i : Nat) (p : Peer) : (endPeer i p s).params = s.params := rfl
@[simp] theorem endPeer_hostQueue (i : Nat) (p : Peer) : (endPeer i p s).hostQueue = s.hostQueue := rfl
@[simp] theorem endPeer_schedule (i : Nat) (p : Peer) : (endPeer i p s).schedule = s.schedule := rfl
@[simp] theorem endPeer_observed (i : Nat) (p : Peer) : (endPeer i p s).observed = s.observed := rfl
@[simp] theorem endPeer_raced (i : Nat) (p : Peer) : (endPeer i p s).raced = peerBytes p ++ s.raced := rfl
@[simp] theorem endPeer_draws (i : Nat) (p : Peer) : (endPeer i p s).draws = s.draws := rfl

@[simp] theorem advancePeer_cmd (i : Nat) (p : Peer) : (advancePeer i p s).cmd = s.cmd := rfl
@[simp] theorem advancePeer_status (i : Nat) (p : Peer) : (advancePeer i p s).status = s.status := rfl
@[simp] theorem advancePeer_xBase (i : Nat) (p : Peer) : (advancePeer i p s).xBase = s.xBase := rfl
@[simp] theorem advancePeer_yBase (i : Nat) (p : Peer) : (advancePeer i p s).yBase = s.yBase := rfl
@[simp] theorem advancePeer_stride (i : Nat) (p : Peer) : (advancePeer i p s).stride = s.stride := rfl
@[simp] theorem advancePeer_sumBase (i : Nat) (p : Peer) : (advancePeer i p s).sumBase = s.sumBase := rfl
@[simp] theorem advancePeer_n (i : Nat) (p : Peer) : (advancePeer i p s).n = s.n := rfl
@[simp] theorem advancePeer_written (i : Nat) (p : Peer) : (advancePeer i p s).written = s.written := rfl
@[simp] theorem advancePeer_phase (i : Nat) (p : Peer) : (advancePeer i p s).phase = s.phase := rfl
@[simp] theorem advancePeer_ff (i : Nat) (p : Peer) : (advancePeer i p s).ff = s.ff := rfl
@[simp] theorem advancePeer_k (i : Nat) (p : Peer) : (advancePeer i p s).k = s.k := rfl
@[simp] theorem advancePeer_row (i : Nat) (p : Peer) : (advancePeer i p s).row = s.row := rfl
@[simp] theorem advancePeer_acc (i : Nat) (p : Peer) : (advancePeer i p s).acc = s.acc := rfl
@[simp] theorem advancePeer_faultRec (i : Nat) (p : Peer) : (advancePeer i p s).faultRec = s.faultRec := rfl
@[simp] theorem advancePeer_refusalMark (i : Nat) (p : Peer) : (advancePeer i p s).refusalMark = s.refusalMark := rfl
@[simp] theorem advancePeer_mem (i : Nat) (p : Peer) : (advancePeer i p s).mem = s.mem := rfl
@[simp] theorem advancePeer_h2sMode (i : Nat) (p : Peer) : (advancePeer i p s).h2sMode = s.h2sMode := rfl
@[simp] theorem advancePeer_h2sIn (i : Nat) (p : Peer) : (advancePeer i p s).h2sIn = s.h2sIn := rfl
@[simp] theorem advancePeer_h2sOut (i : Nat) (p : Peer) : (advancePeer i p s).h2sOut = s.h2sOut := rfl
@[simp] theorem advancePeer_peers (i : Nat) (p : Peer) : (advancePeer i p s).peers = s.peers.set i { p with row := p.row + 1#3 } := rfl
@[simp] theorem advancePeer_params (i : Nat) (p : Peer) : (advancePeer i p s).params = s.params := rfl
@[simp] theorem advancePeer_hostQueue (i : Nat) (p : Peer) : (advancePeer i p s).hostQueue = s.hostQueue := rfl
@[simp] theorem advancePeer_schedule (i : Nat) (p : Peer) : (advancePeer i p s).schedule = s.schedule := rfl
@[simp] theorem advancePeer_observed (i : Nat) (p : Peer) : (advancePeer i p s).observed = s.observed := rfl
@[simp] theorem advancePeer_raced (i : Nat) (p : Peer) : (advancePeer i p s).raced = s.raced := rfl
@[simp] theorem advancePeer_draws (i : Nat) (p : Peer) : (advancePeer i p s).draws = s.draws := rfl

@[simp] theorem peerStore_cmd (p : Peer) : (peerStore p s).cmd = s.cmd := rfl
@[simp] theorem peerStore_status (p : Peer) : (peerStore p s).status = s.status := rfl
@[simp] theorem peerStore_xBase (p : Peer) : (peerStore p s).xBase = s.xBase := rfl
@[simp] theorem peerStore_yBase (p : Peer) : (peerStore p s).yBase = s.yBase := rfl
@[simp] theorem peerStore_stride (p : Peer) : (peerStore p s).stride = s.stride := rfl
@[simp] theorem peerStore_sumBase (p : Peer) : (peerStore p s).sumBase = s.sumBase := rfl
@[simp] theorem peerStore_n (p : Peer) : (peerStore p s).n = s.n := rfl
@[simp] theorem peerStore_written (p : Peer) : (peerStore p s).written = s.written := rfl
@[simp] theorem peerStore_phase (p : Peer) : (peerStore p s).phase = s.phase := rfl
@[simp] theorem peerStore_ff (p : Peer) : (peerStore p s).ff = s.ff := rfl
@[simp] theorem peerStore_k (p : Peer) : (peerStore p s).k = s.k := rfl
@[simp] theorem peerStore_row (p : Peer) : (peerStore p s).row = s.row := rfl
@[simp] theorem peerStore_acc (p : Peer) : (peerStore p s).acc = s.acc := rfl
@[simp] theorem peerStore_faultRec (p : Peer) : (peerStore p s).faultRec = s.faultRec := rfl
@[simp] theorem peerStore_refusalMark (p : Peer) : (peerStore p s).refusalMark = s.refusalMark := rfl
@[simp] theorem peerStore_mem (p : Peer) : (peerStore p s).mem = store32 s.mem (peerAddr p p.row.toNat) (Config.raceDraw s.draws) := rfl
@[simp] theorem peerStore_h2sMode (p : Peer) : (peerStore p s).h2sMode = s.h2sMode := rfl
@[simp] theorem peerStore_h2sIn (p : Peer) : (peerStore p s).h2sIn = s.h2sIn := rfl
@[simp] theorem peerStore_h2sOut (p : Peer) : (peerStore p s).h2sOut = s.h2sOut := rfl
@[simp] theorem peerStore_peers (p : Peer) : (peerStore p s).peers = s.peers := rfl
@[simp] theorem peerStore_params (p : Peer) : (peerStore p s).params = s.params := rfl
@[simp] theorem peerStore_hostQueue (p : Peer) : (peerStore p s).hostQueue = s.hostQueue := rfl
@[simp] theorem peerStore_schedule (p : Peer) : (peerStore p s).schedule = s.schedule := rfl
@[simp] theorem peerStore_observed (p : Peer) : (peerStore p s).observed = s.observed := rfl
@[simp] theorem peerStore_raced (p : Peer) : (peerStore p s).raced = s.raced := rfl
@[simp] theorem peerStore_draws (p : Peer) : (peerStore p s).draws = s.draws + 1 := rfl

@[simp] theorem loaded_cmd (a z : Nat) : (loaded a z s).cmd = s.cmd := rfl
@[simp] theorem loaded_status (a z : Nat) : (loaded a z s).status = s.status := rfl
@[simp] theorem loaded_xBase (a z : Nat) : (loaded a z s).xBase = s.xBase := rfl
@[simp] theorem loaded_yBase (a z : Nat) : (loaded a z s).yBase = s.yBase := rfl
@[simp] theorem loaded_stride (a z : Nat) : (loaded a z s).stride = s.stride := rfl
@[simp] theorem loaded_sumBase (a z : Nat) : (loaded a z s).sumBase = s.sumBase := rfl
@[simp] theorem loaded_n (a z : Nat) : (loaded a z s).n = s.n := rfl
@[simp] theorem loaded_written (a z : Nat) : (loaded a z s).written = s.written := rfl
@[simp] theorem loaded_phase (a z : Nat) : (loaded a z s).phase = s.phase := rfl
@[simp] theorem loaded_ff (a z : Nat) : (loaded a z s).ff = s.ff := rfl
@[simp] theorem loaded_k (a z : Nat) : (loaded a z s).k = s.k := rfl
@[simp] theorem loaded_row (a z : Nat) : (loaded a z s).row = s.row := rfl
@[simp] theorem loaded_acc (a z : Nat) : (loaded a z s).acc = s.acc := rfl
@[simp] theorem loaded_faultRec (a z : Nat) : (loaded a z s).faultRec = s.faultRec := rfl
@[simp] theorem loaded_refusalMark (a z : Nat) : (loaded a z s).refusalMark = s.refusalMark := rfl
@[simp] theorem loaded_mem (a z : Nat) : (loaded a z s).mem = s.mem := rfl
@[simp] theorem loaded_h2sMode (a z : Nat) : (loaded a z s).h2sMode = s.h2sMode := rfl
@[simp] theorem loaded_h2sIn (a z : Nat) : (loaded a z s).h2sIn = s.h2sIn := rfl
@[simp] theorem loaded_h2sOut (a z : Nat) : (loaded a z s).h2sOut = s.h2sOut := rfl
@[simp] theorem loaded_peers (a z : Nat) : (loaded a z s).peers = s.peers := rfl
@[simp] theorem loaded_params (a z : Nat) : (loaded a z s).params = s.params := rfl
@[simp] theorem loaded_hostQueue (a z : Nat) : (loaded a z s).hostQueue = s.hostQueue := rfl
@[simp] theorem loaded_schedule (a z : Nat) : (loaded a z s).schedule = s.schedule := rfl
@[simp] theorem loaded_raced (a z : Nat) : (loaded a z s).raced = s.raced := rfl
@[simp] theorem loaded_draws (a z : Nat) : (loaded a z s).draws = s.draws + z := rfl

@[simp] theorem resetBlock_cmd : (resetBlock s).cmd = 0#64 := rfl
@[simp] theorem resetBlock_status : (resetBlock s).status = 0#64 := rfl
@[simp] theorem resetBlock_written : (resetBlock s).written = ⟨false, false, false, false, false, false⟩ := rfl
@[simp] theorem resetBlock_phase : (resetBlock s).phase = .idle := rfl
@[simp] theorem resetBlock_ff : (resetBlock s).ff = 1#4 := rfl
@[simp] theorem resetBlock_k : (resetBlock s).k = 0#64 := rfl
@[simp] theorem resetBlock_row : (resetBlock s).row = 0#4 := rfl
@[simp] theorem resetBlock_faultRec : (resetBlock s).faultRec = none := rfl
@[simp] theorem resetBlock_refusalMark : (resetBlock s).refusalMark = false := rfl
@[simp] theorem resetBlock_mem : (resetBlock s).mem = s.mem := rfl
@[simp] theorem resetBlock_h2sMode : (resetBlock s).h2sMode = s.h2sMode := rfl
@[simp] theorem resetBlock_h2sIn : (resetBlock s).h2sIn = s.h2sIn := rfl
@[simp] theorem resetBlock_h2sOut : (resetBlock s).h2sOut = s.h2sOut := rfl
@[simp] theorem resetBlock_peers : (resetBlock s).peers = s.peers := rfl
@[simp] theorem resetBlock_params : (resetBlock s).params = s.params := rfl
@[simp] theorem resetBlock_hostQueue : (resetBlock s).hostQueue = s.hostQueue := rfl
@[simp] theorem resetBlock_schedule : (resetBlock s).schedule = s.schedule := rfl
@[simp] theorem resetBlock_observed : (resetBlock s).observed = s.observed := rfl
@[simp] theorem resetBlock_raced : (resetBlock s).raced = [] := rfl
@[simp] theorem resetBlock_draws : (resetBlock s).draws = s.draws := rfl

/-- Storing an argument changes the argument registers and their marks alone. -/
theorem storeArg_frame (r : WinReg) (v : Word) :
    storeArg r v s =
      { s with
        xBase := (storeArg r v s).xBase
        yBase := (storeArg r v s).yBase
        stride := (storeArg r v s).stride
        sumBase := (storeArg r v s).sumBase
        n := (storeArg r v s).n
        written := (storeArg r v s).written } := by
  cases r <;> rfl

@[simp] theorem storeArg_cmd (r : WinReg) (v : Word) : (storeArg r v s).cmd = s.cmd := by cases r <;> rfl
@[simp] theorem storeArg_status (r : WinReg) (v : Word) : (storeArg r v s).status = s.status := by cases r <;> rfl
@[simp] theorem storeArg_phase (r : WinReg) (v : Word) : (storeArg r v s).phase = s.phase := by cases r <;> rfl
@[simp] theorem storeArg_ff (r : WinReg) (v : Word) : (storeArg r v s).ff = s.ff := by cases r <;> rfl
@[simp] theorem storeArg_k (r : WinReg) (v : Word) : (storeArg r v s).k = s.k := by cases r <;> rfl
@[simp] theorem storeArg_row (r : WinReg) (v : Word) : (storeArg r v s).row = s.row := by cases r <;> rfl
@[simp] theorem storeArg_acc (r : WinReg) (v : Word) : (storeArg r v s).acc = s.acc := by cases r <;> rfl
@[simp] theorem storeArg_faultRec (r : WinReg) (v : Word) : (storeArg r v s).faultRec = s.faultRec := by cases r <;> rfl
@[simp] theorem storeArg_refusalMark (r : WinReg) (v : Word) : (storeArg r v s).refusalMark = s.refusalMark := by cases r <;> rfl
@[simp] theorem storeArg_mem (r : WinReg) (v : Word) : (storeArg r v s).mem = s.mem := by cases r <;> rfl
@[simp] theorem storeArg_h2sMode (r : WinReg) (v : Word) : (storeArg r v s).h2sMode = s.h2sMode := by cases r <;> rfl
@[simp] theorem storeArg_h2sIn (r : WinReg) (v : Word) : (storeArg r v s).h2sIn = s.h2sIn := by cases r <;> rfl
@[simp] theorem storeArg_h2sOut (r : WinReg) (v : Word) : (storeArg r v s).h2sOut = s.h2sOut := by cases r <;> rfl
@[simp] theorem storeArg_peers (r : WinReg) (v : Word) : (storeArg r v s).peers = s.peers := by cases r <;> rfl
@[simp] theorem storeArg_params (r : WinReg) (v : Word) : (storeArg r v s).params = s.params := by cases r <;> rfl
@[simp] theorem storeArg_hostQueue (r : WinReg) (v : Word) : (storeArg r v s).hostQueue = s.hostQueue := by cases r <;> rfl
@[simp] theorem storeArg_schedule (r : WinReg) (v : Word) : (storeArg r v s).schedule = s.schedule := by cases r <;> rfl
@[simp] theorem storeArg_observed (r : WinReg) (v : Word) : (storeArg r v s).observed = s.observed := by cases r <;> rfl
@[simp] theorem storeArg_raced (r : WinReg) (v : Word) : (storeArg r v s).raced = s.raced := by cases r <;> rfl
@[simp] theorem storeArg_draws (r : WinReg) (v : Word) : (storeArg r v s).draws = s.draws := by cases r <;> rfl

end Sys2Proof.Machine
end

