-- ==== Sys2Proof/Laws/Steps.lean ====
section
/-! SUPPORT. One inversion lemma per shared operation: everything it can do if it answers a next state. Later proofs cite
these instead of unfolding the operations. -/

namespace Sys2Proof.Machine

variable {s t : State}

/-- Raising answers the state before the step plus the record. -/
@[simp] theorem raise_eq (f : Fault) (s : State) : raise f s = .next (recordFault f s) := rfl

/-- Refusing answers the state before the step plus the mark. -/
@[simp] theorem refuse_eq (s : State) : refuse s = .next (markRefused s) := rfl

/-- A write of `CMD` records a fault or starts the command. -/
theorem startCommand_cases {v : Word} (h : startCommand v s = .next t) :
    (busy s = true ∧ t = recordFault (.busyWrite 0x00 v) s) ∨
    (busy s = false ∧ ∃ f, startFault v s = some f ∧ t = recordFault f s) ∨
    (busy s = false ∧ startFault v s = none ∧ t = started v s) := by
  unfold startCommand at h
  split at h
  · exact .inl ⟨‹_›, by simpa [eq_comm] using h⟩
  · have hb : busy s = false := by simpa using ‹¬busy s = true›
    split at h
    · exact .inr (.inl ⟨hb, _, ‹_›, by simpa [eq_comm] using h⟩)
    · exact .inr (.inr ⟨hb, ‹_›, by simpa [eq_comm] using h⟩)

/-- START finds no fault exactly on a `DOTXF` value with the arguments written and the bases aligned. -/
theorem startFault_none_iff {v : Word} :
    startFault v s = none ↔ isDotxfCmd v = true ∧ argsWritten s = true ∧ basesAligned s := by
  unfold startFault argsWritten basesAligned
  cases isDotxfCmd v <;> cases s.written.xBase <;> cases s.written.yBase <;> cases s.written.stride <;>
    cases s.written.sumBase <;> cases s.written.n <;> simp
  constructor
  · intro h
    split at h <;> first | contradiction | (split at h <;> first | contradiction | skip)
    rename_i h1 h2
    exact ⟨by omega, by omega, by simpa using h⟩
  · rintro ⟨h1, h2, h3⟩
    simp [h1, h2, h3]

/-- Every `DOTXF` meaning is START with its own opcode. -/
theorem exec_dotxf {i : Instr} {f : Nat} {v : Word} (h : (i, f, v) ∈ dotxfTable) (s : State) :
    exec i s = startCommand v s := by
  simp only [dotxfTable, List.mem_cons, Prod.mk.injEq, List.not_mem_nil, or_false] at h
  rcases h with ⟨rfl, -, rfl⟩ | ⟨rfl, -, rfl⟩ | ⟨rfl, -, rfl⟩ | ⟨rfl, -, rfl⟩ | ⟨rfl, -, rfl⟩ | ⟨rfl, -, rfl⟩ |
    ⟨rfl, -, rfl⟩ | ⟨rfl, -, rfl⟩ <;> rfl

/-- Every `H2S` meaning drives the port with its own mode and width. -/
theorem exec_h2s {i : Instr} {m : BitVec 2} {w : Nat} (h : (i, m, w) ∈ h2sTable) (s : State) :
    exec i s = .next (drivePort m (h2sConvert w s.h2sIn) s) := by
  simp only [h2sTable, List.mem_cons, Prod.mk.injEq, List.not_mem_nil, or_false] at h
  rcases h with ⟨rfl, rfl, rfl⟩ | ⟨rfl, rfl, rfl⟩ | ⟨rfl, rfl, rfl⟩ <;> rfl

/-- What `exec` can do: START of a `DOTXF` value, or a drive of the port in a listed mode. -/
theorem exec_cases (i : Instr) (s : State) :
    (∃ f v, (i, f, v) ∈ dotxfTable ∧ exec i s = startCommand v s) ∨
    (∃ m w, (i, m, w) ∈ h2sTable ∧ exec i s = .next (drivePort m (h2sConvert w s.h2sIn) s)) := by
  cases i
  case dotxf1 => exact .inl ⟨1, 0x10#64, by decide, rfl⟩
  case dotxf2 => exact .inl ⟨2, 0x11#64, by decide, rfl⟩
  case dotxf3 => exact .inl ⟨3, 0x12#64, by decide, rfl⟩
  case dotxf4 => exact .inl ⟨4, 0x13#64, by decide, rfl⟩
  case dotxf5 => exact .inl ⟨5, 0x14#64, by decide, rfl⟩
  case dotxf6 => exact .inl ⟨6, 0x15#64, by decide, rfl⟩
  case dotxf7 => exact .inl ⟨7, 0x16#64, by decide, rfl⟩
  case dotxf8 => exact .inl ⟨8, 0x17#64, by decide, rfl⟩
  case h2sS => exact .inr ⟨0b00#2, 1, by decide, rfl⟩
  case h2sN => exact .inr ⟨0b01#2, 4, by decide, rfl⟩
  case h2sW => exact .inr ⟨0b10#2, 8, by decide, rfl⟩

/-- An engine step records a fault or makes the writes of its phase; in IDLE it changes nothing. -/
theorem engineStep_cases (h : engineStep s = .next t) :
    (s.phase = .idle ∧ t = s) ∨
    (s.phase ≠ .idle ∧ ∃ kind a n, t = recordFault (.mem kind a n) s) ∨
    (s.phase = .bulk ∧ firstDenied s .read (bulkReads s) = none ∧ t = bulkNext s) ∨
    (s.phase = .rem ∧ firstDenied s .read (remReads s) = none ∧ t = remNext s) ∨
    (s.phase = .red ∧ admits s .write (addrSum s s.row.toNat) 4 = true ∧ t = redNext s) := by
  have denied : ∀ {kind l f}, firstDenied s kind l = some f → ∃ a n, f = .mem kind a n := by
    intro kind l
    induction l with
    | nil => intro f hf; simp [firstDenied] at hf
    | cons c rest ih =>
      intro f hf
      simp only [firstDenied] at hf
      split at hf
      · exact ih hf
      · exact ⟨c.1, c.2, by simpa [eq_comm] using hf⟩
  unfold engineStep at h
  split at h
  · exact .inl ⟨‹_›, by simpa [eq_comm] using h⟩
  · rename_i hp
    unfold engineBulk at h
    split at h
    · rename_i f hf
      obtain ⟨a, n, rfl⟩ := denied hf
      exact .inr (.inl ⟨by simp [hp], .read, a, n, by simpa [eq_comm] using h⟩)
    · exact .inr (.inr (.inl ⟨hp, ‹_›, by simpa [eq_comm] using h⟩))
  · rename_i hp
    unfold engineRem at h
    split at h
    · rename_i f hf
      obtain ⟨a, n, rfl⟩ := denied hf
      exact .inr (.inl ⟨by simp [hp], .read, a, n, by simpa [eq_comm] using h⟩)
    · exact .inr (.inr (.inr (.inl ⟨hp, ‹_›, by simpa [eq_comm] using h⟩)))
  · rename_i hp
    unfold engineRed at h
    split at h
    · rename_i f hf
      obtain ⟨a, n, rfl⟩ := denied hf
      exact .inr (.inl ⟨by simp [hp], .write, a, n, by simpa [eq_comm] using h⟩)
    · rename_i hn
      refine .inr (.inr (.inr (.inr ⟨hp, ?_, by simpa [eq_comm] using h⟩)))
      simpa [firstDenied] using hn

/-- A decoded word is an instruction of the table with that word. -/
theorem decode_cmdw_accepted {v : Word} {i : Instr} (h : decode (.cmdw v) = .accepted i) :
    isDotxfCmd v = true ∧ i = dotxfOf (v.extractLsb' 0 3) := by
  simp only [decode, decodeCmdw] at h
  split at h
  · exact ⟨‹_›, by simpa [eq_comm] using h⟩
  · simp at h

/-- The `CMD` value of a `DOTXF` command is its table word. -/
theorem dotxf_word {v : Word} (h : isDotxfCmd v = true) :
    (dotxfOf (v.extractLsb' 0 3), (v.extractLsb' 0 3).toNat + 1, v) ∈ dotxfTable := by
  have hv : v &&& 0xFFFFFFFFFFFFFFF8#64 = 0x10#64 := by simpa [isDotxfCmd] using h
  have h8 : v.toNat / 8 = 2 := by
    have hbits : (v >>> 3) = 2#64 := by
      have : (v &&& 0xFFFFFFFFFFFFFFF8#64) >>> 3 = v >>> 3 := by
        apply BitVec.eq_of_getLsbD_eq
        intro i hi
        simp only [BitVec.getLsbD_ushiftRight, BitVec.getLsbD_and]
        by_cases hk : 3 + i < 64
        · have : (0xFFFFFFFFFFFFFFF8#64).getLsbD (3 + i) = true := by
            have : ∀ j < 64, 3 ≤ j → (0xFFFFFFFFFFFFFFF8#64).getLsbD j = true := by decide
            exact this _ hk (by omega)
          simp [this]
        · simp [BitVec.getLsbD_of_ge v (3 + i) (by omega)]
      rw [← this, hv]
      decide
    have := congrArg BitVec.toNat hbits
    simpa [Nat.shiftRight_eq_div_pow] using this
  obtain ⟨d, hd, hvd⟩ : ∃ d, d < 8 ∧ v = BitVec.ofNat 64 (16 + d) := by
    refine ⟨v.toNat - 16, by omega, BitVec.eq_of_toNat_eq ?_⟩
    simp
    omega
  subst hvd
  have : ∀ d < 8, (dotxfOf ((BitVec.ofNat 64 (16 + d)).extractLsb' 0 3),
      ((BitVec.ofNat 64 (16 + d)).extractLsb' 0 3).toNat + 1, BitVec.ofNat 64 (16 + d)) ∈ dotxfTable := by decide
  exact this d hd

/-- A host write of `CMD` is START with the value written, in every case. -/
theorem writeCmd_eq (v : Word) (s : State) : writeCmd v s = startCommand v s := by
  unfold writeCmd
  split
  · rename_i i h
    obtain ⟨hv, rfl⟩ := decode_cmdw_accepted h
    exact exec_dotxf (dotxf_word hv) s
  · rename_i w h
    simp only [decode, decodeCmdw] at h
    split at h
    · simp at h
    · rw [show w = v by simpa [eq_comm] using h]
  · rename_i h
    simp only [decode, decodeCmdw] at h
    split at h <;> simp at h

/-- Driving the port sets the input and runs the decoded conversion, or refuses with an open output. -/
theorem drivePins_cases (m : BitVec 2) (u : BitVec 128) (s : State) :
    (m = 0b11#2 ∧ drivePins m u s = .next (markRefused (driveOpen m u s))) ∨
    (∃ i w, (i, m, w) ∈ h2sTable ∧ drivePins m u s = .next (drivePort m (h2sConvert w u) (setInput u s))) := by
  have hm : m = 0b00#2 ∨ m = 0b01#2 ∨ m = 0b10#2 ∨ m = 0b11#2 := by
    have : ∀ m : BitVec 2, m = 0b00#2 ∨ m = 0b01#2 ∨ m = 0b10#2 ∨ m = 0b11#2 := by decide
    exact this m
  rcases hm with rfl | rfl | rfl | rfl
  · exact .inr ⟨.h2sS, 1, by decide, rfl⟩
  · exact .inr ⟨.h2sN, 4, by decide, rfl⟩
  · exact .inr ⟨.h2sW, 8, by decide, rfl⟩
  · exact .inl ⟨rfl, rfl⟩

/-- What a step of another instance can make of the state. -/
inductive PeerMoves (s : State) : State → Prop where
  /-- It faults there. -/
  | none : PeerMoves s s
  /-- It starts a command while one runs here. -/
  | starts (b : Word) (f : BitVec 3) (hb : busy s = true) :
      PeerMoves s (raceTouch b.toNat (4 * (f.toNat + 1)) (addPeer ⟨b, f, 0#3⟩ s))
  /-- It starts a command while none runs here. -/
  | startsIdle (b : Word) (f : BitVec 3) (hb : busy s = false) : PeerMoves s (addPeer ⟨b, f, 0#3⟩ s)
  /-- It writes its last row. -/
  | lastRow (i : Nat) (p : Peer) (hp : s.peers[i]? = some p)
      (ha : admits s .write (peerAddr p p.row.toNat) 4 = true) : PeerMoves s (endPeer i p (peerStore p s))
  /-- It writes a row before its last. -/
  | row (i : Nat) (p : Peer) (hp : s.peers[i]? = some p)
      (ha : admits s .write (peerAddr p p.row.toNat) 4 = true) : PeerMoves s (advancePeer i p (peerStore p s))
  /-- It is reset. -/
  | ends (i : Nat) (p : Peer) (hp : s.peers[i]? = some p) : PeerMoves s (endPeer i p s)

/-- A START of another instance faults there, or lists its command and, with one running here, races its `sum`. -/
theorem peerStarts_cases {b : Word} {f : BitVec 3} (h : peerStarts b f s = .next t) :
    t = s ∨ (busy s = true ∧ t = raceTouch b.toNat (4 * (f.toNat + 1)) (addPeer ⟨b, f, 0#3⟩ s)) ∨
    (busy s = false ∧ t = addPeer ⟨b, f, 0#3⟩ s) := by
  unfold peerStarts at h
  split at h
  · exact .inl (by simpa [eq_comm] using h)
  · split at h
    · exact .inr (.inl ⟨‹_›, by simpa [eq_comm] using h⟩)
    · exact .inr (.inr ⟨by simpa using ‹¬busy s = true›, by simpa [eq_comm] using h⟩)

/-- A RED of another instance is refused where none runs, faults there, or stores a row and ends or goes on. -/
theorem peerReds_cases {i : Nat} (h : peerReds i s = .next t) :
    t = markRefused s ∨ t = s ∨
    (∃ p, s.peers[i]? = some p ∧ admits s .write (peerAddr p p.row.toNat) 4 = true ∧ t = endPeer i p (peerStore p s)) ∨
    (∃ p, s.peers[i]? = some p ∧ admits s .write (peerAddr p p.row.toNat) 4 = true ∧
      t = advancePeer i p (peerStore p s)) := by
  unfold peerReds at h
  split at h
  · exact .inl (by simpa [eq_comm] using h)
  · rename_i p hp
    split at h
    · exact .inr (.inl (by simpa [eq_comm] using h))
    · have ha : admits s .write (peerAddr p p.row.toNat) 4 = true := by simp_all
      split at h
      · exact .inr (.inr (.inl ⟨p, hp, ha, by simpa [eq_comm] using h⟩))
      · exact .inr (.inr (.inr ⟨p, hp, ha, by simpa [eq_comm] using h⟩))

/-- A reset of another instance is refused where none runs, or ends its command. -/
theorem peerResets_cases {i : Nat} (h : peerResets i s = .next t) :
    t = markRefused s ∨ ∃ p, s.peers[i]? = some p ∧ t = endPeer i p s := by
  unfold peerResets at h
  split at h
  · exact .inl (by simpa [eq_comm] using h)
  · exact .inr ⟨_, ‹_›, by simpa [eq_comm] using h⟩

/-- Everything a host interaction, or a step of another instance, can do if it answers a next state. -/
theorem hostAct_cases {a : HostAction} (h : hostAct a s = .next t) :
    (∃ f, t = recordFault f s) ∨
    (t = markRefused s ∨ ∃ u, a = .driveH2s 0b11#2 u ∧ t = markRefused (driveOpen 0b11#2 u s)) ∨
    (∃ v, a = .wreg 0x00 64 v ∧ busy s = false ∧ startFault v s = none ∧ t = started v s) ∨
    (∃ r v, r ≠ .cmd ∧ a = .wreg (regOffset r) 64 v ∧ busy s = false ∧ t = storeArg r v s) ∨
    (∃ r, a = .rreg (regOffset r) 64 ∧ isWritten r s = true ∧
      t = observe (.window (regOffset r) (regValue r s)) s) ∨
    (a = .wait ∧ t = pollWait s) ∨
    (∃ p bs, a = .memWrite p bs ∧ p + bs.length ≤ Config.memSize ∧ busy s = true ∧ t = raceStore p bs s) ∨
    (∃ p bs, a = .memWrite p bs ∧ p + bs.length ≤ Config.memSize ∧ busy s = false ∧ t = plainStore p bs s) ∨
    (∃ p n, a = .memRead p n ∧ p + n ≤ Config.memSize ∧ t = loaded p n s) ∨
    (∃ m u i w, a = .driveH2s m u ∧ (i, m, w) ∈ h2sTable ∧ t = drivePort m (h2sConvert w u) (setInput u s)) ∨
    (a = .reset ∧ t = resetBlock s) ∨
    ((∃ b f, a = .peerStart b f) ∨ (∃ i, a = .peerRed i) ∨ ∃ i, a = .peerReset i) ∧ PeerMoves s t := by
  have reg_of : ∀ {o w r}, windowReg o w = some r → w = 64 ∧ o = regOffset r := by
    intro o w r hr
    unfold windowReg at hr
    split at hr
    · simp at hr
    · refine ⟨by simpa using ‹¬w ≠ 64›, ?_⟩
      split at hr <;> first | (simp at hr; done) | (obtain rfl := Option.some.inj hr; rfl)
  have wr : ∀ {r o v}, r ≠ .cmd → windowReg o 64 = some r → writeReg r o v s = .next t →
      (∃ f, t = recordFault f s) ∨ (busy s = false ∧ t = storeArg r v s) := by
    intro r o v _ _ hw
    unfold writeReg at hw
    split at hw
    · exact .inl ⟨_, by simpa [eq_comm] using hw⟩
    · exact .inr ⟨by simpa using ‹¬busy s = true›, by simpa [eq_comm] using hw⟩
  cases a with
  | wreg o w v =>
    simp only [hostAct, windowWrite] at h
    split at h
    · exact .inr (.inl (.inl (by simpa [eq_comm] using h)))
    · cases hr : windowReg o w with
      | none => rw [hr] at h; exact .inl ⟨_, by simpa [eq_comm] using h⟩
      | some r =>
        obtain ⟨rfl, rfl⟩ := reg_of hr
        rw [hr] at h
        by_cases hc : r = .cmd
        · subst hc
          simp only [writeCmd_eq] at h
          rcases startCommand_cases h with ⟨-, rfl⟩ | ⟨-, f, -, rfl⟩ | ⟨hb, hf, rfl⟩
          · exact .inl ⟨_, rfl⟩
          · exact .inl ⟨_, rfl⟩
          · exact .inr (.inr (.inl ⟨v, rfl, hb, hf, rfl⟩))
        · have h' : writeReg r (regOffset r) v s = .next t := by
            cases r <;> first | exact h | exact absurd rfl hc
          rcases wr hc hr h' with hf | ⟨hb, rfl⟩
          · exact .inl hf
          · exact .inr (.inr (.inr (.inl ⟨r, v, hc, rfl, hb, rfl⟩)))
  | rreg o w =>
    simp only [hostAct, windowRead] at h
    split at h
    · exact .inr (.inl (.inl (by simpa [eq_comm] using h)))
    · cases hr : windowReg o w with
      | none => rw [hr] at h; exact .inl ⟨_, by simpa [eq_comm] using h⟩
      | some r =>
        obtain ⟨rfl, rfl⟩ := reg_of hr
        rw [hr] at h
        simp only at h
        split at h
        · exact .inr (.inr (.inr (.inr (.inl ⟨r, rfl, ‹_›, by simpa [eq_comm] using h⟩))))
        · exact .inl ⟨_, by simpa [eq_comm] using h⟩
  | wait => exact .inr (.inr (.inr (.inr (.inr (.inl ⟨rfl, by simpa [hostAct, eq_comm] using h⟩)))))
  | memWrite p bs =>
    simp only [hostAct, hostStore] at h
    split at h
    · exact .inr (.inl (.inl (by simpa [eq_comm] using h)))
    · have hp : p + bs.length ≤ Config.memSize := by omega
      split at h
      · exact .inr (.inr (.inr (.inr (.inr (.inr (.inl ⟨p, bs, rfl, hp, ‹_›, by simpa [eq_comm] using h⟩))))))
      · exact .inr (.inr (.inr (.inr (.inr (.inr (.inr (.inl
          ⟨p, bs, rfl, hp, by simpa using ‹¬busy s = true›, by simpa [eq_comm] using h⟩)))))))
  | memRead p n =>
    simp only [hostAct, hostLoad] at h
    split at h
    · exact .inr (.inl (.inl (by simpa [eq_comm] using h)))
    · exact .inr (.inr (.inr (.inr (.inr (.inr (.inr (.inr (.inl
        ⟨p, n, rfl, by omega, by simpa [eq_comm] using h⟩))))))))
  | driveH2s m u =>
    simp only [hostAct] at h
    rcases drivePins_cases m u s with ⟨rfl, e⟩ | ⟨i, w, hi, e⟩
    · rw [e] at h
      exact .inr (.inl (.inr ⟨u, rfl, by simpa [eq_comm] using h⟩))
    · rw [e] at h
      exact .inr (.inr (.inr (.inr (.inr (.inr (.inr (.inr (.inr (.inl
        ⟨m, u, i, w, rfl, hi, by simpa [eq_comm] using h⟩)))))))))
  | reset => exact .inr (.inr (.inr (.inr (.inr (.inr (.inr (.inr (.inr (.inr (.inl
      ⟨rfl, by simpa [hostAct, eq_comm] using h⟩))))))))))
  | peerStart b f =>
    rcases peerStarts_cases h with rfl | ⟨hb, rfl⟩ | ⟨hb, rfl⟩
    · iterate 11 right
      exact ⟨.inl ⟨b, f, rfl⟩, .none⟩
    · iterate 11 right
      exact ⟨.inl ⟨b, f, rfl⟩, .starts b f hb⟩
    · iterate 11 right
      exact ⟨.inl ⟨b, f, rfl⟩, .startsIdle b f hb⟩
  | peerRed i =>
    rcases peerReds_cases h with rfl | rfl | ⟨p, hp, ha, rfl⟩ | ⟨p, hp, ha, rfl⟩
    · exact .inr (.inl (.inl rfl))
    · iterate 11 right
      exact ⟨.inr (.inl ⟨i, rfl⟩), .none⟩
    · iterate 11 right
      exact ⟨.inr (.inl ⟨i, rfl⟩), .lastRow i p hp ha⟩
    · iterate 11 right
      exact ⟨.inr (.inl ⟨i, rfl⟩), .row i p hp ha⟩
  | peerReset i =>
    rcases peerResets_cases h with rfl | ⟨p, hp, rfl⟩
    · exact .inr (.inl (.inl rfl))
    · iterate 11 right
      exact ⟨.inr (.inr ⟨i, rfl⟩), .ends i p hp⟩
  | unlisted => exact .inr (.inl (.inl (by simpa [hostAct, eq_comm] using h)))

/-- Everything a step can do if it answers a next state: reset a faulted block, let the engine move, let the host or
another instance move, or rest. -/
theorem step_cases (h : step s = .next t) :
    (s.faultRec.isSome = true ∧ resetNext s ∧ t = resetBlock (popHost s)) ∨
    (s.faultRec = none ∧ turn s = some .engine ∧ engineStep (popSchedule s) = .next t) ∨
    (s.faultRec = none ∧ turn s = some .host ∧ ∃ a rest, s.hostQueue = a :: rest ∧
      hostAct a (popHost (popSchedule s)) = .next t) ∨
    (s.faultRec = none ∧ turn s = none ∧ s.refusalMark = false ∧ t = s) := by
  unfold step blockStep at h
  split at h
  · rename_i f hs
    unfold faultedStep at h
    split at h
    · rename_i rest hq
      exact .inl ⟨by simp [hs], by simp [resetNext, hq], by simpa [eq_comm] using h⟩
    · simp at h
  · rename_i hs
    split at h
    · exact .inr (.inl ⟨hs, ‹_›, h⟩)
    · rename_i ht
      refine .inr (.inr (.inl ⟨hs, ht, ?_⟩))
      unfold hostStep at h
      simp only [popSchedule_hostQueue] at h
      split at h
      · rename_i hq
        simp [turn, hostReady, hq] at ht
      · exact ⟨_, _, ‹_›, h⟩
    · rename_i ht
      unfold restingStep at h
      split at h
      · simp at h
      · exact .inr (.inr (.inr ⟨hs, ht, by simpa using ‹¬s.refusalMark = true›, by simpa [eq_comm] using h⟩))

end Sys2Proof.Machine
end

