-- ==== Sys2Proof/Laws/Races.lean ====
section
/-! SUPPORT. When an access is raced, and what a race makes of the running command (20_memory R73, R74): one lemma per
predicate of Machine/Race.lean and Machine/Operands.lean, in plain arithmetic. -/

namespace Sys2Proof.Machine

variable {s : State} {p : Peer} {a b n len d i k : Nat}

/-- The bytes of another instance's `sum`. -/
theorem inPeerSum_iff : inPeerSum p b = true ↔ p.sumBase.toNat ≤ b ∧ b < p.sumBase.toNat + 4 * (p.f.toNat + 1) := by
  simp only [inPeerSum, Bool.and_eq_true, decide_eq_true_eq]
  rfl

/-- A write that shares a byte with another instance's `sum[i]`. -/
theorem touchesPeer_iff :
    touchesPeer p a len i = true ↔
      0 < len ∧ p.sumBase.toNat + 4 * i < a + len ∧ a < p.sumBase.toNat + 4 * i + 4 := by
  simp only [touchesPeer, Bool.and_eq_true, decide_eq_true_eq, and_assoc]
  rfl

/-- A byte in the `sum` of some running command of another instance. -/
theorem inPeerSums_iff :
    inPeerSums s b = true ↔
      ∃ p ∈ s.peers, p.sumBase.toNat ≤ b ∧ b < p.sumBase.toNat + 4 * (p.f.toNat + 1) := by
  simp only [inPeerSums, List.any_eq_true, inPeerSum_iff]

/-- An access is raced exactly if one of its bytes is. -/
theorem racedIn_iff :
    racedIn s a n = true ↔ ∃ b, a ≤ b ∧ b < a + n ∧ (b ∈ s.raced ∨ inPeerSums s b = true) := by
  simp only [racedIn, List.any_eq_true, List.mem_range, Bool.or_eq_true, List.contains_iff_mem]
  constructor
  · rintro ⟨d, hd, h⟩
    exact ⟨a + d, by omega, by omega, h⟩
  · rintro ⟨b, h1, h2, h⟩
    exact ⟨b - a, by omega, by rwa [show a + (b - a) = b by omega]⟩

/-- An unraced access is not raced. -/
theorem racedIn_of_unraced (h : unraced s a n) : racedIn s a n = false := by
  by_contra hc
  obtain ⟨b, h1, h2, hb⟩ := racedIn_iff.mp (by simpa using hc)
  obtain ⟨hr, hp⟩ := h (b - a) (by omega)
  rw [show a + (b - a) = b by omega] at hr hp
  rcases hb with hb | hb
  · exact hr hb
  · obtain ⟨p, hm, h3, h4⟩ := inPeerSums_iff.mp hb
    have := hp p hm
    unfold peerAddr at this
    omega

/-- The element a byte belongs to. -/
theorem elementAt_eq_some {base size count : Nat} (h1 : base + size * k ≤ b) (h2 : b < base + size * k + size)
    (hk : k < count) : elementAt base size count b = some k := by
  have hq : (b - base) / size = k := by
    rw [show b - base = size * k + (b - base - size * k) by omega, Nat.mul_add_div (by omega),
      Nat.div_eq_of_lt (by omega), Nat.add_zero]
  have hb : base ≤ b := by omega
  simp [elementAt, hq, hk, hb]

/-- A raced byte of an element already consumed by row `i` spoils the lane it went into (41_dotxf R169). -/
theorem laneSpoilt_of_consumed (hd : d < len) (hk : k < s.k.toNat) (hr : s.row.toNat ≤ i) (hi : i < s.ff.toNat)
    (h : addrX s k ≤ a + d ∧ a + d < addrX s k + 4 ∨ addrY s i k ≤ a + d ∧ a + d < addrY s i k + 2) :
    laneSpoilt s a len i (laneOf s.n.toNat k) = true := by
  simp only [laneSpoilt, Bool.and_eq_true, decide_eq_true_eq, List.any_eq_true, List.mem_range]
  refine ⟨⟨hi, hr⟩, d, hd, ?_⟩
  rcases h with ⟨h1, h2⟩ | ⟨h1, h2⟩
  · simp [byteSpoilsLane, elementAt_eq_some (size := 4) (base := s.xBase.toNat) h1 h2 hk]
  · unfold addrY at h1 h2
    simp [byteSpoilsLane,
      elementAt_eq_some (size := 2) (base := addrY s i 0) (b := a + d) (by unfold addrY; omega) (by unfold addrY; omega) hk]

/-- A raced byte of an element already consumed by a row already reduced spoils that row's `sum` element. -/
theorem sumSpoilt_of_consumed (hd : d < len) (hk : k < s.k.toNat) (hr : i < s.row.toNat) (hi : i < s.ff.toNat)
    (h : addrX s k ≤ a + d ∧ a + d < addrX s k + 4 ∨ addrY s i k ≤ a + d ∧ a + d < addrY s i k + 2) :
    sumSpoilt s a len i = true := by
  simp only [sumSpoilt, Bool.and_eq_true, decide_eq_true_eq, List.any_eq_true, List.mem_range]
  refine ⟨hi, d, hd, ?_⟩
  rcases h with ⟨h1, h2⟩ | ⟨h1, h2⟩
  · simp [byteSpoilsRow, elementAt_eq_some (size := 4) (base := s.xBase.toNat) h1 h2 hk, hr]
  · unfold addrY at h1 h2
    simp [byteSpoilsRow, hr,
      elementAt_eq_some (size := 2) (base := addrY s i 0) (b := a + d) (by unfold addrY; omega) (by unfold addrY; omega) hk]

/-- A raced byte of a `sum` element spoils it. -/
theorem sumSpoilt_of_touched (hd : d < len) (hi : i < s.ff.toNat) (h1 : addrSum s i ≤ a + d)
    (h2 : a + d < addrSum s i + 4) : sumSpoilt s a len i = true := by
  simp only [sumSpoilt, Bool.and_eq_true, decide_eq_true_eq, List.any_eq_true, List.mem_range]
  exact ⟨hi, d, hd, by simp [inSum, h1, h2]⟩

/-- The byte lies in the element found for it. -/
theorem of_elementAt_eq_some {base size count : Nat} (hs : 0 < size) (h : elementAt base size count b = some k) :
    base + size * k ≤ b ∧ b < base + size * k + size ∧ k < count := by
  unfold elementAt at h
  split at h
  · rename_i hc
    simp only [Bool.and_eq_true, decide_eq_true_eq] at hc
    obtain rfl := Option.some.inj h
    have := Nat.div_add_mod (b - base) size
    have := Nat.mod_lt (b - base) hs
    exact ⟨by omega, by omega, hc.2⟩
  · simp at h

/-- A spoilt lane is one that a raced byte's element, already consumed by a row still to reduce, went into. -/
theorem consumed_of_laneSpoilt {j : Nat} (h : laneSpoilt s a len i j = true) :
    i < s.ff.toNat ∧ s.row.toNat ≤ i ∧ ∃ d < len, ∃ k < s.k.toNat, laneOf s.n.toNat k = j ∧
      (addrX s k ≤ a + d ∧ a + d < addrX s k + 4 ∨ addrY s i k ≤ a + d ∧ a + d < addrY s i k + 2) := by
  simp only [laneSpoilt, Bool.and_eq_true, decide_eq_true_eq, List.any_eq_true, List.mem_range, byteSpoilsLane,
    Bool.or_eq_true, beq_iff_eq, Option.map_eq_some_iff] at h
  obtain ⟨⟨hi, hr⟩, d, hd, ⟨k, hk, hj⟩ | ⟨k, hk, hj⟩⟩ := h
  · obtain ⟨h1, h2, h3⟩ := of_elementAt_eq_some (by decide) hk
    exact ⟨hi, hr, d, hd, k, h3, hj, .inl ⟨h1, h2⟩⟩
  · obtain ⟨h1, h2, h3⟩ := of_elementAt_eq_some (by decide) hk
    refine ⟨hi, hr, d, hd, k, h3, hj, .inr ⟨?_, ?_⟩⟩ <;> unfold addrY at * <;> omega

/-- A lane that is not spoilt keeps its value. -/
theorem raceTouch_acc_kept {i j : Fin 8} (h : laneSpoilt s a len i j = false) :
    (raceTouch a len s).acc[i][j] = s.acc[i][j] := by
  have h' : laneSpoilt s a len i.val j.val = false := h
  simp [raceTouch, h']

/-- A race leaves every byte outside the `sum` elements of the running command alone. -/
theorem readByte_raceTouch_out (h : ∀ i < s.ff.toNat, b < addrSum s i ∨ addrSum s i + 4 ≤ b) :
    readByte (raceTouch a len s).mem b = readByte s.mem b := by
  refine readByte_drawElements_out _ _ _ _ _ _ _ fun r _ _ hr => ?_
  have : r < s.ff.toNat := by
    simp only [sumSpoilt, Bool.and_eq_true, decide_eq_true_eq] at hr
    exact hr.1
  exact h r this

/-- A spoilt lane holds a draw. -/
theorem raceTouch_acc_spoilt {i j : Fin 8} (h : laneSpoilt s a len i j = true) :
    (raceTouch a len s).acc[i][j] = Config.raceDraw (s.draws + 8 * i.val + j.val) := by
  simp [raceTouch, h]

/-- A spoilt `sum` element holds a draw. -/
theorem raceTouch_sum_spoilt (hm : Memory.wf s.mem = true) (h8 : i < 8) (h : sumSpoilt s a len i = true)
    (ha : addrSum s i + 4 ≤ Config.memSize) :
    load32 (raceTouch a len s).mem (addrSum s i) = Config.raceDraw (s.draws + 64 + i) :=
  load32_drawElements_hit hm (Nat.zero_le i) (by omega) h ha

end Sys2Proof.Machine
end

