-- ==== Sys2Proof/Tests/Slice0.lean ====
section
/-! SUPPORT. The model's own tests: the WellFormed smoke test, words written out from the spec's encodings, single steps
against the vectors of 95_test_vectors, and for each statement with hypotheses a state that meets them. -/

namespace Sys2Proof.Tests

open Sys2Proof Sys2Proof.Machine

/-! Helpers. -/

/-- The next state of an outcome. -/
def nextOf : Outcome → Option State
  | .next t => some t
  | .fault _ => none
  | .refused _ => none

/-- A reading of the next state. -/
def after {α : Type} (o : Outcome) (read : State → α) : Option α := (nextOf o).map read

/-- The bytes of singles in memory order. -/
def singles (l : List Single) : List Byte := l.flatMap bytesOf32

/-- The bytes of codes in memory order. -/
def codes (l : List Half) : List Byte := l.flatMap fun h => [h.extractLsb' 0 8, h.extractLsb' 8 8]

/-- An idle block with its arguments written: `x` at 0x1000, `y` at 0x2000, `sum` at 0x3000. -/
def ready (n stride : Word) (x : List Single) (y : List Half) : State :=
  { State.reset with
    xBase := 0x1000#64
    yBase := 0x2000#64
    stride := stride
    sumBase := 0x3000#64
    n := n
    written := ⟨false, true, true, true, true, true⟩
    mem := writeBytes (writeBytes [] 0x1000 (singles x)) 0x2000 (codes y) }

/-- The block just after START of the command `v`. -/
def running (v n stride : Word) (x : List Single) (y : List Half) : State := started v (ready n stride x y)

/-- `s` with its queue replaced; no invariant reads the queue. -/
def withQueue (q : List HostAction) (s : State) : State := { s with hostQueue := q }

/-- A command of another instance with three rows, of which it has written one, and its results at `base`. -/
def peerAt (base : Word) : Peer := ⟨base, 2#3, 1#3⟩

/-- A lane of an accumulator row. -/
def lane (i j : Nat) (s : State) : Single := (accRow s i)[j]?.getD 0#32

/-! WellFormed: an ill-formed term for each check. -/

theorem test_wf_rsv_nonzero_refused : Encoded.wellFormed (.cmdw 0x0000000100000010#64) = false := by decide
theorem test_wf_class_wrong_refused : Encoded.wellFormed (.cmdw 0x18#64) = false := by decide
theorem test_wf_mode_11_refused : Encoded.wellFormed (.h2sm 0b11#2) = false := by decide
theorem test_wf_window_width_refused : windowAccessWellFormed 0x10 32 = false := by decide
theorem test_wf_window_offset_refused : windowAccessWellFormed 0x0C 64 = false := by decide
theorem test_wf_window_reserved_refused : windowAccessWellFormed 0x38 64 = false := by decide
theorem test_wf_window_outside_refused : windowAccessWellFormed 0x40 64 = false := by decide
/-- The same access read by the machine: 0x38 and 0x0C have no register, 0x30 has N. -/
theorem test_window_registers :
    windowReg 0x38 64 = none ∧ windowReg 0x0C 64 = none ∧ windowReg 0x10 32 = none ∧ windowReg 0x30 64 = some .n := by
  decide

/-! Decoding, from words written out bit by bit: CLASS 00010 in bits [7:3], f in bits [2:0] (30_encoding R90, R91), and the
modes of R92. -/

theorem test_decode_dotxf1 : decode (.cmdw 0b00010000#64) = .accepted .dotxf1 := by decide
theorem test_decode_dotxf2 : decode (.cmdw 0b00010001#64) = .accepted .dotxf2 := by decide
theorem test_decode_dotxf3 : decode (.cmdw 0b00010010#64) = .accepted .dotxf3 := by decide
theorem test_decode_dotxf4 : decode (.cmdw 0b00010011#64) = .accepted .dotxf4 := by decide
theorem test_decode_dotxf5 : decode (.cmdw 0b00010100#64) = .accepted .dotxf5 := by decide
theorem test_decode_dotxf6 : decode (.cmdw 0b00010101#64) = .accepted .dotxf6 := by decide
theorem test_decode_dotxf7 : decode (.cmdw 0b00010110#64) = .accepted .dotxf7 := by decide
theorem test_decode_dotxf8 : decode (.cmdw 0b00010111#64) = .accepted .dotxf8 := by decide
theorem test_decode_h2s :
    decode (.h2sm 0b00#2) = .accepted .h2sS ∧ decode (.h2sm 0b01#2) = .accepted .h2sN ∧
      decode (.h2sm 0b10#2) = .accepted .h2sW := by decide
/-- V-FLT-1, V-FLT-2, V-H2S-23: refused words, by name. -/
theorem test_decode_refused :
    decode (.cmdw 0x18#64) = .illegalCmd 0x18#64 ∧ decode (.cmdw 0x0F#64) = .illegalCmd 0x0F#64 ∧
      decode (.cmdw 0x0000000100000010#64) = .illegalCmd 0x0000000100000010#64 ∧
      decode (.h2sm 0b11#2) = .reservedMode := by decide
theorem test_table_words :
    decodeTableWord 64 0x10 = some .dotxf1 ∧ decodeTableWord 64 0x17 = some .dotxf8 ∧
      decodeTableWord 64 0x00 = none ∧ decodeTableWord 8 0 = some .h2sS ∧ decodeTableWord 8 2 = some .h2sW ∧
      decodeTableWord 8 3 = none := by decide

/-! The converter, from section 2 of 95_test_vectors. -/

/-- V-H2S-1 to V-H2S-8. -/
theorem test_decode16_denormals :
    decode16 0x0000#16 = 0x00000000#32 ∧ decode16 0x8000#16 = 0x80000000#32 ∧ decode16 0x0001#16 = 0x33800000#32 ∧
      decode16 0x83FF#16 = 0xB87FC000#32 ∧ decode16 0x0400#16 = 0x38800000#32 := by decide +kernel
/-- V-H2S-10, V-H2S-14, V-H2S-16, V-H2S-17, V-H2S-19. -/
theorem test_decode16_normals :
    decode16 0x3555#16 = 0x3EAAA000#32 ∧ decode16 0xC000#16 = 0xC0000000#32 ∧ decode16 0x7C00#16 = 0x47800000#32 ∧
      decode16 0x7C01#16 = 0x47802000#32 ∧ decode16 0xFFFF#16 = 0xC7FFE000#32 := by decide +kernel
/-- V-H2S-20: input lanes above 0 are ignored. -/
theorem test_h2sS :
    after (exec .h2sS { State.reset with h2sIn := 0xFFFF000000000000FFFFFFFF12343C00#128 }) State.h2sOut =
      some 0x3F800000#256 := by decide +kernel
/-- V-H2S-21. -/
theorem test_h2sN :
    after (exec .h2sN { State.reset with h2sIn := 0x3C003C003C003C00FFFF040080000001#128 }) State.h2sOut =
      some 0xC7FFE000388000008000000033800000#256 := by decide +kernel
/-- P6. -/
theorem test_h2sW :
    after (exec .h2sW { State.reset with h2sIn := 0x3C0003FF35557C00FFFF040080000001#128 }) State.h2sOut =
      some 0x3F800000387FC0003EAAA00047800000C7FFE000388000008000000033800000#256 := by decide +kernel

/-! START, from 41_dotxf R161 and section 4 of 95_test_vectors. -/

/-- P1 step 1: START of DOTXF1 with N = 9. -/
theorem test_dotxf1_starts :
    after (exec .dotxf1 (ready 9#64 0#64 [] [])) (fun t => (t.ff, t.phase, t.status, t.cmd, t.k)) =
      some (1#4, Phase.bulk, 0x1#64, 0x10#64, 0#64) := by decide
/-- V-FLT-4: a misaligned `Y_BASE`. -/
theorem test_dotxf2_misaligned :
    after (exec .dotxf2 { ready 9#64 0#64 [] [] with yBase := 0x2001#64 }) State.faultRec =
      some (some (.misaligned .yBase 0x2001#64)) := by decide
/-- R177: N = 3 goes to REM. -/
theorem test_dotxf3_starts :
    after (exec .dotxf3 (ready 3#64 2#64 [] [])) (fun t => (t.ff, t.phase)) = some (3#4, Phase.rem) := by decide
/-- R178: N = 8 goes to BULK. -/
theorem test_dotxf4_starts :
    after (exec .dotxf4 (ready 8#64 2#64 [] [])) (fun t => (t.ff, t.phase)) = some (4#4, Phase.bulk) := by decide
/-- V-FLT-3: `STRIDE` never written. -/
theorem test_dotxf5_unwritten :
    after (exec .dotxf5 { ready 4#64 0#64 [] [] with written := ⟨false, true, true, false, true, true⟩ }) State.faultRec =
      some (some (.argUnwritten .stride)) := by decide
/-- START zeroes rows below F and no other: row 6 of a DOTXF6 keeps its lanes (10_state R40). -/
theorem test_dotxf6_rows :
    after (exec .dotxf6 { ready 9#64 0#64 [] [] with acc := Vector.replicate 8 (Vector.replicate 8 1#32) })
      (fun t => (lane 5 7 t, lane 6 0 t)) = some (0#32, 1#32) := by decide
/-- V-FLT-8's cause on `CMD`: a command while busy. -/
theorem test_dotxf7_busy :
    after (exec .dotxf7 (running 0x10#64 9#64 0#64 [] [])) State.faultRec =
      some (some (.busyWrite 0x00 0x16#64)) := by decide
/-- P3 step 1: N = 0 goes to RED directly. -/
theorem test_dotxf8_zero_length :
    after (exec .dotxf8 (ready 0#64 0x1000#64 [] [])) (fun t => (t.ff, t.phase)) = some (8#4, Phase.red) := by decide
/-- V-FLT-1, V-FLT-5: an illegal value; two misaligned bases, `X_BASE` first. -/
theorem test_start_faults :
    after (hostAct (.wreg 0x00 64 0x18#64) (ready 9#64 0#64 [] [])) (fun t => (t.faultRec, t.status)) =
        some (some (.illegalCmd 0x18#64), 0#64) ∧
      after (hostAct (.wreg 0x00 64 0x10#64) { ready 9#64 0#64 [] [] with xBase := 0x1002#64, sumBase := 0x3001#64 })
        State.faultRec = some (some (.misaligned .xBase 0x1002#64)) := by decide

/-! Engine steps. -/

/-- P2 after BULK: rows 1 and 2 of a strided command (row pitch 32 bytes). -/
theorem test_bulk_p2 :
    after (step { running 0x12#64 10#64 8#64
        [0x3F800000#32, 0x40000000#32, 0x40400000#32, 0x40800000#32, 0x40A00000#32, 0x40C00000#32, 0x40E00000#32,
          0x41000000#32] [] with
        mem := writeBytes (writeBytes (running 0x12#64 10#64 8#64
          [0x3F800000#32, 0x40000000#32, 0x40400000#32, 0x40800000#32, 0x40A00000#32, 0x40C00000#32, 0x40E00000#32,
            0x41000000#32] []).mem 0x2020 (codes (List.replicate 10 0x3800#16)))
          0x2040 (codes [0x4000#16, 0xC000#16, 0x4000#16, 0xC000#16, 0x4000#16, 0xC000#16, 0x4000#16, 0xC000#16]) })
      (fun t => (lane 1 7 t, lane 2 1 t, lane 2 6 t, t.k, t.phase)) =
      some (0x40800000#32, 0xC0800000#32, 0x41600000#32, 8#64, Phase.rem) := by decide +kernel

/-- V-DOT-7's REM step: the fused remainder cancels against lane 0. -/
theorem test_rem_fused :
    after (step { running 0x10#64 9#64 0#64 (List.replicate 8 0#32 ++ [0x3F800001#32])
        (List.replicate 8 0x3C00#16 ++ [0x3C01#16]) with
        k := 8#64, phase := .rem
        acc := Vector.replicate 8 (Vector.replicate 8 0xBF802000#32) })
      (fun t => (lane 0 0 t, lane 0 1 t, t.phase)) = some (0x34002000#32, 0xBF802000#32, Phase.red) := by decide +kernel

/-- The same step unfused (41_dotxf R167). -/
theorem test_rem_unfused :
    after (step { running 0x10#64 9#64 0#64 (List.replicate 8 0#32 ++ [0x3F800001#32])
        (List.replicate 8 0x3C00#16 ++ [0x3C01#16]) with
        k := 8#64, phase := .rem
        acc := Vector.replicate 8 (Vector.replicate 8 0xBF802000#32)
        params := ⟨[⟨0, Config.memSize, true, true⟩], false, 0#64⟩ })
      (lane 0 0) = some 0x34000000#32 := by decide +kernel

/-- P1 step 4: RED writes 45.0 little-endian and ends the command. -/
theorem test_red_p1 :
    after (step { running 0x10#64 9#64 0#64 [] [] with
        k := 9#64, phase := .red
        acc := Vector.replicate 8 #v[0x41200000#32, 0x40000000#32, 0x40400000#32, 0x40800000#32, 0x40A00000#32,
          0x40C00000#32, 0x40E00000#32, 0x41000000#32] })
      (fun t => (readBytes t.mem 0x3000 4, t.status, t.phase)) =
      some ([0x00#8, 0x00#8, 0x34#8, 0x42#8], 0x2#64, Phase.idle) := by decide +kernel

/-- V-DOT-9's lanes: adjacent pairs in the tree. -/
theorem test_rtree_pairing :
    rtree (fun _ => 0#32) #v[0x4B800000#32, 0x4B800000#32, 0x3F800000#32, 0x40A00000#32, 0#32, 0#32, 0#32, 0#32] =
      0x4C000002#32 := by decide +kernel

/-- V-FLT-6: REM's read of `x` is not admitted. -/
theorem test_rem_denied :
    after (step { running 0x10#64 9#64 0#64 [] [] with
        k := 8#64, phase := .rem
        params := ⟨[⟨0x1000, 32, true, false⟩, ⟨0x2000, 18, true, false⟩], true, 0#64⟩ }) State.faultRec =
      some (some (.mem .read 0x1020 4)) := by decide

/-- V-FLT-11: an address past 2^64 is never admitted. -/
theorem test_read_past_end :
    firstDenied { running 0x10#64 2#64 0#64 [] [] with yBase := 0xFFFFFFFFFFFFFFFE#64, k := 1#64 } .read
      (remReads { running 0x10#64 2#64 0#64 [] [] with yBase := 0xFFFFFFFFFFFFFFFE#64, k := 1#64 }) =
      some (.mem .read (2 ^ 64) 2) := by decide

/-! Binary32. V-DOT-11 overflow, V-DOT-12 subnormal, V-DOT-8 rounding to -0, exact cancellation, the tie at 2^-150. -/

theorem test_fma_corners :
    fmaCore 0x7F7FFFFF#32 0x47FFE000#32 0#32 = some 0x7F800000#32 ∧
      fmaCore 0x00800000#32 0x3F000000#32 0#32 = some 0x00400000#32 ∧
      fmaCore 0x80800000#32 0x33800000#32 0#32 = some 0x80000000#32 ∧
      fmaCore 0x3F800000#32 0x40000000#32 0xC0000000#32 = some 0#32 ∧
      fmaCore 0x80000000#32 0x3F800000#32 0#32 = some 0#32 ∧
      fmaCore 0x80000000#32 0x3F800000#32 0x80000000#32 = some 0x80000000#32 := by decide +kernel

/-- V-DOT-15, V-DOT-20, V-DOT-13: ∞ times 0, a NaN operand, opposite infinities. -/
theorem test_fma_nan :
    fmaCore 0x7F800000#32 0#32 0#32 = none ∧ fmaCore 0x7FC00000#32 0x3F800000#32 0#32 = none ∧
      addCore 0x7F800000#32 0xFF800000#32 = none := by decide +kernel

/-! The window and the host. -/

/-- V-FLT-8, V-FLT-9, V-FLT-10. -/
theorem test_window_faults :
    after (hostAct (.wreg 0x30 64 5#64) (running 0x10#64 9#64 0#64 [] [])) State.faultRec =
        some (some (.busyWrite 0x30 5#64)) ∧
      after (hostAct (.rreg 0x0C 64) State.reset) State.faultRec = some (some (.badReg 0x0C 64)) ∧
      after (hostAct (.rreg 0x10 64) State.reset) State.faultRec = some (some (.unwritten 0x10)) := by decide

/-- R239: mode 11 driven while a command runs sets the mark, and the engine goes on; R207: at rest the block is refused. -/
theorem test_refusal_stops_no_agent :
    after (step (withQueue [.driveH2s 0b11#2 0#128] { running 0x10#64 9#64 0#64 [] [] with schedule := [.host] }))
        (fun t => (t.refusalMark, t.phase, after (step t) State.phase)) = some (true, Phase.bulk, some Phase.rem) ∧
      step (markRefused State.reset) = .refused .refusalMarked := ⟨by decide, rfl⟩

/-- R74: a RED step of another instance moves its row on, its last one ends its command; this instance keeps its state. -/
theorem test_other_instance :
    after (hostAct (.peerRed 0) { State.reset with peers := [peerAt 0x5000#64] }) State.peers =
        some [⟨0x5000#64, 2#3, 2#3⟩] ∧
      after (hostAct (.peerRed 0) { State.reset with peers := [⟨0x5000#64, 2#3, 2#3⟩] })
        (fun t => (t.peers, t.raced.length)) = some ([], 12) ∧
      after (hostAct (.peerStart 0x5002#64 2#3) State.reset) State.peers = some [] := by decide

/-- R236: a host write of no bytes inside another instance's `sum` is ordinary. -/
theorem test_empty_write :
    after (hostAct (.memWrite 0x5001 []) { State.reset with peers := [peerAt 0x5000#64] }) State.mem = some [] := by decide

/-- The table word of DOTXF1 and of H2S.W runs as the first instruction after reset. -/
theorem test_fetch_runs :
    after (step (State.reset.withFetchWord 64 0x10)) State.faultRec = some (some (.argUnwritten .xBase)) ∧
      after (step (State.reset.withFetchWord 8 2)) State.h2sMode = some 0b10#2 := by decide

/-! Witnesses: for each statement with hypotheses, values that meet them all. -/

/-- `ready` meets the sequencing invariant. -/
theorem ready_seqInv : SeqInv (ready 9#64 8#64 [] []) where
  idle_iff := by decide
  not_both := by decide
  reserved := by decide
  ff_range := by decide
  in_bulk := by decide
  in_rem := by decide
  in_red := by decide
  args := by decide

/-- So does a block in each running phase. -/
theorem bulk_seqInv : SeqInv (running 0x11#64 9#64 8#64 [] []) where
  idle_iff := by decide
  not_both := by decide
  reserved := by decide
  ff_range := by decide
  in_bulk := by decide
  in_rem := by decide
  in_red := by decide
  args := by decide

theorem rem_seqInv : SeqInv (running 0x11#64 7#64 8#64 [] []) where
  idle_iff := by decide
  not_both := by decide
  reserved := by decide
  ff_range := by decide
  in_bulk := by decide
  in_rem := by decide
  in_red := by decide
  args := by decide

theorem red_seqInv : SeqInv (running 0x11#64 0#64 8#64 [] []) where
  idle_iff := by decide
  not_both := by decide
  reserved := by decide
  ff_range := by decide
  in_bulk := by decide
  in_rem := by decide
  in_red := by decide
  args := by decide

theorem witness_DotxfOpcodeMap :
    (Instr.dotxf8, 8, 0x17#64) ∈ dotxfTable ∧ decode (.cmdw 0x17#64) = .accepted .dotxf8 := by decide

theorem witness_DecodeEncodeAgree : decode (.h2sm 0b10#2) = .accepted .h2sW := by decide

/-- At each end of the legal range. -/
theorem witness_IllegalCommandFaults :
    busy State.reset = false ∧ 0x0F#64 &&& 0xFFFFFFFFFFFFFFF8#64 ≠ 0x10#64 ∧
      0x18#64 &&& 0xFFFFFFFFFFFFFFF8#64 ≠ 0x10#64 ∧ 0xFF#64 &&& 0xFFFFFFFFFFFFFFF8#64 ≠ 0x10#64 := by decide

/-- A reset block that has faulted, its queue as given. -/
def faulted (q : List HostAction) : State := { State.reset with faultRec := some (.unwritten 0x10), hostQueue := q }

/-- A faulted block that is reset has nothing left to do. -/
theorem witness_ResetLeavesSpecValues :
    ∃ t, hostAct .reset (faulted []) = .next t ∧ t.hostQueue = [] := ⟨_, rfl, rfl⟩

theorem witness_FaultIsTerminal :
    ((faulted []).faultRec = some (.unwritten 0x10) ∧ ¬resetNext (faulted [])) ∧
      ∃ t, (faulted [.reset]).faultRec = some (.unwritten 0x10) ∧ step (faulted [.reset]) = .next t :=
  ⟨⟨rfl, by decide⟩, _, rfl, rfl⟩

/-- A step that records a fault, and one that sets the mark. -/
theorem witness_FaultIsPrecise :
    (∃ t, step (withQueue [.rreg 0x10 64] State.reset) = .next t ∧ State.reset.faultRec = none ∧ t.faultRec ≠ none) ∧
    ∃ t, step (withQueue [.unlisted] State.reset) = .next t ∧ State.reset.refusalMark = false ∧ t.refusalMark = true ∧
      ∀ u, (withQueue [.unlisted] State.reset).hostQueue.head? ≠ some (.driveH2s 0b11#2 u) :=
  ⟨⟨_, rfl, rfl, by decide⟩, _, rfl, rfl, rfl, fun u => by simp [withQueue]⟩

theorem witness_RefusedInteractions :
    0x40 ≤ 0x40 ∧ 2 ^ 64 < 2 ^ 64 + 1 ∧ turn (markRefused State.reset) = none ∧
      (markRefused State.reset).refusalMark = true ∧ (markRefused State.reset).faultRec = none ∧
      turn (markRefused (running 0x10#64 9#64 0#64 [] [])) = some .engine ∧
      turn (withQueue [.wait] (markRefused State.reset)) = some .host := by
  decide

/-- Each clause at a boundary of the window. -/
theorem witness_BadWindowAccessFaults :
    (0x38 < 0x40 ∧ 0x38 = 0x38) ∧ (0x3F < 0x40 ∧ 0x3F % 8 ≠ 0) ∧ (0x30 < 0x40 ∧ 32 ≠ 64) := by decide

theorem witness_WindowWriteWhileBusyFaults :
    busy (running 0x11#64 9#64 8#64 [] []) = true ∧ (Instr.dotxf1, 1, 0x10#64) ∈ dotxfTable := by decide

theorem witness_WindowWriteStores : busy State.reset = false := by decide

theorem witness_WindowReadReturnsValue :
    (0x30, (ready 9#64 8#64 [] []).n, true) ∈
      [(0x30, (ready 9#64 8#64 [] []).n, (ready 9#64 8#64 [] []).written.n)] := by decide

theorem witness_StartStep : busy (ready 9#64 8#64 [] []) = false := by decide

theorem ready_readyToStart : readyToStart (ready 9#64 8#64 [] []) := by
  decide

theorem witness_DotxfStartsWhenReady :
    (Instr.dotxf3, 3, 0x12#64) ∈ dotxfTable ∧ readyToStart (ready 9#64 8#64 [] []) :=
  ⟨by decide, ready_readyToStart⟩

/-- The invariant does not read the queue. -/
theorem seqInv_withQueue {s : State} (h : SeqInv s) (q : List HostAction) : SeqInv (withQueue q s) where
  idle_iff := h.idle_iff
  not_both := h.not_both
  reserved := h.reserved
  ff_range := h.ff_range
  in_bulk := h.in_bulk
  in_rem := h.in_rem
  in_red := h.in_red
  args := h.args

theorem witness_DotxfProgramStarts :
    ∃ s : State, SeqInv s ∧ healthy s ∧ s.phase = .idle ∧
      s.hostQueue = dotxfProgram 8 0x1000#64 0x2000#64 8#64 0x3000#64 9#64 ∧ (Instr.dotxf8, 8, 0x17#64) ∈ dotxfTable ∧
      (0x1000#64).toNat % 4 = 0 ∧ (0x2000#64).toNat % 2 = 0 ∧ (0x3000#64).toNat % 4 = 0 :=
  ⟨withQueue (dotxfProgram 8 0x1000#64 0x2000#64 8#64 0x3000#64 9#64) (ready 9#64 8#64 [] []),
    seqInv_withQueue ready_seqInv _, ⟨rfl, rfl⟩, rfl, rfl, by decide, by decide, by decide, by decide⟩

/-- Admitted reads, a refused block, and races beside the elements read. -/
theorem witness_BulkStep :
    ∃ s : State, s.faultRec = none ∧ turn s = some .engine ∧ s.phase = .bulk ∧ s.refusalMark = true ∧
      admits s .read (s.xBase.toNat + 4 * s.k.toNat) 32 = true ∧
      (∀ i < s.ff.toNat, admits s .read (s.yBase.toNat + 2 * (2 * i * s.stride.toNat + s.k.toNat)) 16 = true) ∧
      unraced s (s.xBase.toNat + 4 * s.k.toNat) 32 ∧
      ∀ i < s.ff.toNat, unraced s (s.yBase.toNat + 2 * (2 * i * s.stride.toNat + s.k.toNat)) 16 :=
  ⟨{ running 0x11#64 9#64 8#64 [] [] with raced := [0x0FFF], peers := [peerAt 0x1020#64], refusalMark := true }, rfl,
    by decide, by decide, rfl, by decide, by decide, by decide, by decide⟩

/-- A parameter set that admits `x` and nothing else. -/
def onlyX : Params := ⟨[⟨0x1000, 64, true, false⟩], true, 0#64⟩

/-- A denied read after an admitted one: row 0 after `x`. -/
theorem witness_BulkStep_denied :
    ∃ s : State, healthy s ∧ turn s = some .engine ∧ s.phase = .bulk ∧
      bulkReads s = [(0x1000, 32)] ++ (0x2000, 16) :: [(0x2020, 16)] ∧
      (∀ c ∈ [(0x1000, 32)], admits s .read c.1 c.2 = true) ∧ admits s .read 0x2000 16 = false :=
  ⟨{ running 0x11#64 9#64 8#64 [] [] with params := onlyX }, ⟨rfl, rfl⟩, by decide, by decide, by decide, by decide,
    by decide⟩

/-- A row that begins at the last element of the data space: its read passes 2^64. -/
theorem witness_BulkStep_past_end :
    ∃ s : State, s.faultRec = none ∧ turn s = some .engine ∧ s.phase = .bulk ∧ (2 ^ 64 - 2, 16) ∈ bulkReads s ∧
      2 ^ 64 < (2 ^ 64 - 2) + 16 :=
  ⟨{ running 0x11#64 9#64 8#64 [] [] with yBase := 0xFFFFFFFFFFFFFFFE#64 }, rfl, by decide, by decide, by decide, by decide⟩

theorem witness_RemStep :
    ∃ s : State, s.faultRec = none ∧ turn s = some .engine ∧ s.phase = .rem ∧ s.params.remFused = true ∧
      admits s .read (s.xBase.toNat + 4 * s.k.toNat) 4 = true ∧
      (∀ i < s.ff.toNat, admits s .read (s.yBase.toNat + 2 * (2 * i * s.stride.toNat + s.k.toNat)) 2 = true) ∧
      unraced s (s.xBase.toNat + 4 * s.k.toNat) 4 ∧
      ∀ i < s.ff.toNat, unraced s (s.yBase.toNat + 2 * (2 * i * s.stride.toNat + s.k.toNat)) 2 :=
  ⟨{ running 0x11#64 7#64 8#64 [] [] with raced := [0x1004], peers := [peerAt 0x1004#64] }, rfl, by decide, by decide, rfl,
    by decide, by decide, by decide, by decide⟩

theorem witness_RemStep_denied :
    ∃ s : State, healthy s ∧ turn s = some .engine ∧ s.phase = .rem ∧
      remReads s = [(0x1000, 4)] ++ (0x2000, 2) :: [(0x2020, 2)] ∧
      (∀ c ∈ [(0x1000, 4)], admits s .read c.1 c.2 = true) ∧ admits s .read 0x2000 2 = false :=
  ⟨{ running 0x11#64 7#64 8#64 [] [] with params := onlyX }, ⟨rfl, rfl⟩, by decide, by decide, by decide, by decide,
    by decide⟩

theorem witness_RemStep_past_end :
    ∃ s : State, s.faultRec = none ∧ turn s = some .engine ∧ s.phase = .rem ∧ (2 ^ 64, 2) ∈ remReads s ∧
      2 ^ 64 < 2 ^ 64 + 2 :=
  ⟨{ running 0x11#64 7#64 8#64 [] [] with yBase := 0xFFFFFFFFFFFFFFFE#64, k := 1#64 }, rfl, by decide, by decide,
    by decide, by decide⟩

theorem witness_UnfusedRemStep :
    ∃ s : State, s.faultRec = none ∧ turn s = some .engine ∧ s.phase = .rem ∧ s.params.remFused = false ∧
      unraced s (addrX s s.k.toNat) 4 ∧ (∀ i < s.ff.toNat, unraced s (addrY s i s.k.toNat) 2) ∧
      admits s .read (addrX s s.k.toNat) 4 = true ∧ ∀ i < s.ff.toNat, admits s .read (addrY s i s.k.toNat) 2 = true :=
  ⟨{ running 0x11#64 7#64 8#64 [] [] with params := ⟨[⟨0, Config.memSize, true, true⟩], false, 0#64⟩ }, rfl,
    by decide, by decide, rfl, by decide, by decide, by decide, by decide⟩

/-- RED with its write admitted, and with it denied. -/
theorem witness_RedStep :
    (∃ s : State, SeqInv s ∧ memInv s ∧ healthy s ∧ turn s = some .engine ∧ s.phase = .red ∧
      unraced s (s.sumBase.toNat + 4 * s.row.toNat) 4 ∧ admits s .write (s.sumBase.toNat + 4 * s.row.toNat) 4 = true) ∧
    ∃ s : State, SeqInv s ∧ memInv s ∧ healthy s ∧ turn s = some .engine ∧ s.phase = .red ∧
      admits s .write (s.sumBase.toNat + 4 * s.row.toNat) 4 = false :=
  ⟨⟨running 0x11#64 0#64 8#64 [] [], red_seqInv, rfl, ⟨rfl, rfl⟩, by decide, by decide, by decide,
    by decide⟩,
    { running 0x11#64 0#64 8#64 [] [] with params := onlyX },
    ⟨red_seqInv.idle_iff, red_seqInv.not_both, red_seqInv.reserved, red_seqInv.ff_range, red_seqInv.in_bulk,
      red_seqInv.in_rem, red_seqInv.in_red, red_seqInv.args⟩, rfl, ⟨rfl, rfl⟩, by decide, by decide, by decide⟩

theorem witness_EngineStepFrame :
    ∃ s t : State, engineStep s = .next t ∧ s.phase = .red := ⟨running 0x11#64 0#64 8#64 [] [], _, rfl, by decide⟩

/-- A refused block with a command running. -/
theorem witness_EngineAlwaysProgresses :
    ∃ s : State, SeqInv s ∧ s.faultRec = none ∧ s.refusalMark = true ∧ s.phase ≠ .idle ∧ s.hostQueue = [] :=
  ⟨markRefused (running 0x11#64 9#64 8#64 [] []),
    ⟨bulk_seqInv.idle_iff, bulk_seqInv.not_both, bulk_seqInv.reserved, bulk_seqInv.ff_range, bulk_seqInv.in_bulk,
      bulk_seqInv.in_rem, bulk_seqInv.in_red, bulk_seqInv.args⟩, rfl, rfl, by decide, rfl⟩

/-- A START that passes; a running state; an access that is not admitted. -/
theorem witness_ElementAccessesAligned :
    (∃ s t : State, SeqInv s ∧ busy s = false ∧ hostAct (.wreg 0x00 64 0x11#64) s = .next t ∧ busy t = true) ∧
    (∃ s : State, SeqInv s ∧ s.phase ≠ .idle) ∧
    ∃ s t : State, SeqInv s ∧ s.faultRec = none ∧ engineStep s = .next t ∧ t.faultRec = some (.mem .read 0x2000 2) :=
  ⟨⟨ready 9#64 8#64 [] [], _, ready_seqInv, rfl, rfl, by decide⟩, ⟨running 0x11#64 7#64 8#64 [] [], rem_seqInv, by decide⟩,
    { running 0x11#64 7#64 8#64 [] [] with params := onlyX }, _,
    ⟨rem_seqInv.idle_iff, rem_seqInv.not_both, rem_seqInv.reserved, rem_seqInv.ff_range, rem_seqInv.in_bulk,
      rem_seqInv.in_rem, rem_seqInv.in_red, rem_seqInv.args⟩, rfl, rfl, by decide⟩

/-- A ready block whose host writes the command of `DOTXF2`, N = 9, beside another instance's command. -/
def commanded : State := { ready 9#64 8#64 [] [] with hostQueue := [.wreg 0x00 64 0x11#64], peers := [peerAt 0x3008#64] }

theorem commanded_admitted : commandAdmitted commanded 2 := by
  decide

theorem commanded_seqInv : SeqInv commanded :=
  ⟨by decide, by decide, by decide, by decide, by decide, by decide, by decide, by decide⟩

/-- The hypotheses of CommandWritesItsSums, CommandBusyUntilLastStep and RowsAreIndependent on the first state. -/
theorem witness_CommandWritesItsSums :
    (Instr.dotxf2, 2, 0x11#64) ∈ dotxfTable ∧ SeqInv commanded ∧ memInv commanded ∧ healthy commanded ∧
      readyToStart commanded ∧ commanded.hostQueue = [.wreg 0x00 64 0x11#64] ∧ commandAdmitted commanded 2 ∧
      peersApart commanded 2 :=
  ⟨by decide, commanded_seqInv, rfl, ⟨rfl, rfl⟩, ready_readyToStart, rfl, commanded_admitted, by decide⟩

theorem witness_CommandBusyUntilLastStep :
    SeqInv commanded ∧ healthy commanded ∧ readyToStart commanded ∧ commandAdmitted commanded 2 ∧
      (1 ≤ 4 ∧ 4 < 1 + commanded.n.toNat / 8 + commanded.n.toNat % 8 + 2) :=
  ⟨commanded_seqInv, ⟨rfl, rfl⟩, ready_readyToStart, commanded_admitted, by decide⟩

/-- No byte is readable. -/
def onlySum : Params := ⟨[⟨0x3000, 32, false, true⟩], true, 0#64⟩

theorem witness_ZeroLengthCommand :
    (∃ s : State, SeqInv s ∧ memInv s ∧ healthy s ∧ readyToStart s ∧ s.n = 0#64 ∧
      s.hostQueue = [.wreg 0x00 64 0x17#64] ∧ (∀ r < 8, admits s .write (addrSum s r) 4 = true) ∧ peersApart s 8) ∧
    ∃ s : State, busy s = false ∧ argsWritten s = true ∧ s.n = 0#64 ∧ ¬basesAligned s :=
  ⟨⟨{ ready 0#64 8#64 [] [] with params := onlySum, hostQueue := [.wreg 0x00 64 0x17#64] },
      ⟨by decide, by decide, by decide, by decide, by decide, by decide, by decide, by decide⟩, rfl, ⟨rfl, rfl⟩,
      by decide, rfl, rfl, by decide, by decide⟩,
    { ready 0#64 8#64 [] [] with sumBase := 0x3001#64 }, by decide, by decide, rfl, by decide⟩

/-- The second state of RowsAreIndependent: `DOTXF1` on row 1 of the first, which starts 32 bytes on. -/
def commandedRow1 : State :=
  { ready 9#64 8#64 [] [] with yBase := 0x2020#64, hostQueue := [.wreg 0x00 64 0x10#64] }

/-- With the runs of both states. -/
theorem witness_RowsAreIndependent :
    SeqInv commandedRow1 ∧ memInv commandedRow1 ∧ healthy commandedRow1 ∧ readyToStart commandedRow1 ∧
      commandedRow1.hostQueue = [.wreg 0x00 64 0x10#64] ∧ commandAdmitted commandedRow1 1 ∧ peersApart commandedRow1 1 ∧
      commandedRow1.mem = commanded.mem ∧ commandedRow1.n = commanded.n ∧ commandedRow1.xBase = commanded.xBase ∧
      commandedRow1.params = commanded.params ∧ commandedRow1.yBase.toNat = addrY commanded 1 0 ∧
      (∃ t, Host.Core.run Sys2Proof.core (1 + 9 / 8 + 9 % 8 + 2) commanded = .next t) ∧
      ∃ w, Host.Core.run Sys2Proof.core (1 + 9 / 8 + 9 % 8 + 1) commandedRow1 = .next w :=
  ⟨⟨by decide, by decide, by decide, by decide, by decide, by decide, by decide, by decide⟩, rfl, ⟨rfl, rfl⟩,
    by decide, rfl, by unfold commandAdmitted; decide, by decide, rfl, rfl, rfl, rfl, by decide, ⟨_, rfl⟩, _, rfl⟩

theorem witness_RunningCommandKeepsArguments :
    ∃ s t : State, SeqInv s ∧ s.phase ≠ .idle ∧ ¬resetNext s ∧ step s = .next t :=
  ⟨running 0x11#64 9#64 8#64 [] [], _, bulk_seqInv, by decide, by decide, rfl⟩

theorem witness_SequencingInvariantKept : ∃ s t : State, SeqInv s ∧ step s = .next t :=
  ⟨running 0x11#64 0#64 8#64 [] [], _, red_seqInv, rfl⟩

theorem witness_MemoryInvariantKept :
    ∃ s t : State, memInv s ∧ step s = .next t ∧ s.mem ≠ [] :=
  ⟨running 0x11#64 0#64 8#64 [0x3F800000#32] [], _, by decide, rfl, by decide⟩

theorem witness_PortInvariantKept : ∃ s t : State, portInv s ∧ step s = .next t := by
  refine ⟨drivePort 0b11#2 0#256 (withQueue [.driveH2s 0b10#2 0x3C00#128] State.reset), _, ?_, rfl⟩
  have : ∀ c ∈ h2sTable, c.2.1 ≠ 0b11#2 := by decide
  intro i m w hi hm
  exact absurd hm.symm (this _ hi)

/-- A block beside two commands of other instances. -/
theorem witness_InstanceInvariantKept :
    ∃ s t : State, peersInv s ∧ s.peers = [peerAt 0x5000#64, peerAt 0x6000#64] ∧ step s = .next t :=
  ⟨{ running 0x11#64 0#64 8#64 [] [] with peers := [peerAt 0x5000#64, peerAt 0x6000#64] }, _, by decide, rfl, rfl⟩

theorem witness_ConverterLanes : (Instr.h2sN, 0b01#2, 4) ∈ h2sTable ∧ (0 < 8 ∧ 7 < 8) := by decide

/-- A NaN operand; ∞ times 0; an infinite product with a finite and with an opposite addend; an infinite addend. -/
theorem witness_FmaNonFinite :
    isNaN 0x7F800001#32 = true ∧ (isInf 0xFF800000#32 = true ∧ isZero 0x80000000#32 = true) ∧
      (isNaN 0x7F800000#32 = false ∧ isZero 0x00000001#32 = false ∧ isInf 0x7F7FFFFF#32 = false) ∧
      signBit 0xFF800000#32 ≠ (signBit 0x7F800000#32 ^^ signBit 0x00000001#32) ∧
      isFinite 0x7F7FFFFF#32 = true := by decide

theorem witness_FmaExactZero :
    isFinite 0x80000000#32 = true ∧ isFinite 0x3F800000#32 = true ∧
      exactValue 0x80000000#32 * exactValue 0x3F800000#32 + exactValue 0x80000000#32 * 2 ^ 300 = 0 ∧
      exactValue 0x3F800000#32 * exactValue 0x3F800000#32 + exactValue 0xBF800000#32 * 2 ^ 300 = 0 := by decide +kernel

/-- A value below the midpoint, and one at or above it. -/
theorem witness_FmaRoundsToNearestEven :
    (isFinite 0x7F7FFFFF#32 = true ∧ isFinite 0x3F800000#32 = true ∧
      exactProduct 0x7F7FFFFF#32 0x3F800000#32 + exactValue 0x00000001#32 ≠ 0 ∧
      (exactProduct 0x7F7FFFFF#32 0x3F800000#32 + exactValue 0x00000001#32).natAbs < (2 ^ 25 - 1) * 2 ^ 403) ∧
      (2 ^ 25 - 1) * 2 ^ 403 ≤
        (exactProduct 0x7F7FFFFF#32 0x3F800000#32 + exactValue 0x73000000#32).natAbs := by decide +kernel

theorem witness_NanResultIsNan : isNaN 0xFFC00001#32 = true ∧ nanOf 0xFFC00001#32 = 0xFFC00001#32 := by decide

theorem witness_MemoryIsLittleEndian :
    Memory.wf [(0x10, 0x01#8), (2 ^ 64 - 1, 0xFF#8)] = true ∧ 2 ^ 64 - 4 + 4 ≤ 2 ^ 64 ∧ 3 < 4 ∧ 1 < 2 := by decide

/-- The last byte of the data space, and the byte after another instance's `sum`. -/
theorem witness_HostMemoryAccess :
    ∃ s : State, memInv s ∧ busy s = false ∧ (2 ^ 64 - 1) + [0x00#8].length ≤ 2 ^ 64 ∧ s.peers = [peerAt 0x3000#64] ∧
      (∀ a ∈ [2 ^ 64 - 1, 0x300C], ∀ d < 1, ∀ p ∈ s.peers, ∀ i < p.f.toNat + 1,
        a + d < peerAddr p i ∨ peerAddr p i + 4 ≤ a + d) :=
  ⟨{ ready 9#64 8#64 [0x3F800000#32] [] with peers := [peerAt 0x3000#64] }, by decide, by decide, by decide, rfl, by decide⟩

/-- A byte below every operand of the running command. -/
theorem witness_HostAccessElsewhereIsOrdinary :
    ∃ s : State, SeqInv s ∧ busy s = true ∧ 0x0FFF + [0x00#8].length ≤ 2 ^ 64 ∧
      (∀ d < [0x00#8].length,
        (∀ k < s.n.toNat, 0x0FFF + d < addrX s k ∨ addrX s k + 4 ≤ 0x0FFF + d) ∧
        (∀ i < s.ff.toNat, ∀ k < s.n.toNat, 0x0FFF + d < addrY s i k ∨ addrY s i k + 2 ≤ 0x0FFF + d) ∧
        (∀ i < s.ff.toNat, 0x0FFF + d < addrSum s i ∨ addrSum s i + 4 ≤ 0x0FFF + d) ∧
        ∀ p ∈ s.peers, ∀ i < p.f.toNat + 1, 0x0FFF + d < peerAddr p i ∨ peerAddr p i + 4 ≤ 0x0FFF + d) :=
  ⟨running 0x11#64 7#64 8#64 [] [], rem_seqInv, by decide, by decide, by decide⟩

/-- REM of a second element, after the first is consumed; and RED after row 0. -/
theorem rem_later_seqInv : SeqInv { running 0x11#64 7#64 8#64 [] [] with k := 1#64 } :=
  ⟨by decide, by decide, by decide, by decide, by decide, by decide, by decide, by decide⟩

theorem red_later_seqInv :
    SeqInv { running 0x11#64 1#64 8#64 [] [] with k := 1#64, phase := .red, row := 1#4, raced := [0x3007] } :=
  ⟨by decide, by decide, by decide, by decide, by decide, by decide, by decide, by decide⟩

/-- A racing write of the last byte of `x[0]`, of a byte of `y_1[0]`, and of the first byte of `sum[1]`, with `x[0]` consumed
and a row in use that it went into; the same with row 0 reduced; a raced byte in the `sum` element RED writes next; and a
read of a `sum` byte. -/
theorem witness_RacesAreDraws :
    (∃ s : State, SeqInv s ∧ memInv s ∧ busy s = true ∧ 0x1003 + [0x00#8].length ≤ 2 ^ 64 ∧ 0 < [0x00#8].length ∧
      (addrX s 0 ≤ 0x1003 ∧ 0x1003 < addrX s 0 + 4) ∧ (addrY s 1 0 ≤ 0x2021 ∧ 0x2021 < addrY s 1 0 + 2) ∧
      (1 < s.ff.toNat ∧ addrSum s 1 + 4 ≤ 2 ^ 64 ∧ addrSum s 1 ≤ 0x3004 ∧ 0x3004 < addrSum s 1 + 4) ∧
      (0 < s.k.toNat ∧ s.row.toNat ≤ 1 ∧ 0 = (if 0 < 8 * (s.n.toNat / 8) then 0 % 8 else 0))) ∧
    ∃ s : State, SeqInv s ∧ memInv s ∧ busy s = true ∧ 0 < s.row.toNat ∧ 0 < s.k.toNat ∧ addrSum s 0 + 4 ≤ 2 ^ 64 ∧
      (addrX s 0 ≤ 0x1003 ∧ 0x1003 < addrX s 0 + 4) ∧ 0x3007 ∈ s.raced ∧ s.phase = .red ∧
      admits s .write (addrSum s s.row.toNat) 4 = true ∧ addrSum s s.row.toNat ≤ 0x3007 ∧
      0x3007 < addrSum s s.row.toNat + 4 :=
  ⟨⟨_, rem_later_seqInv, rfl, by decide, by decide, by decide, by decide, by decide, by decide, by decide⟩,
    _, red_later_seqInv, rfl, by decide, by decide, by decide, by decide, by decide, by decide, by decide, by decide,
    by decide, by decide⟩

/-- Another instance's `sum` over `x[0]` and `x[1]`; over a code of row 1; over the `sum` element RED writes next. -/
theorem witness_OverlapWithRunningInstanceDraws :
    ∃ s : State, SeqInv s ∧ memInv s ∧ peersInv s ∧ s.phase = .red ∧
      admits s .write (addrSum s s.row.toNat) 4 = true ∧
      (peerAt 0x0FFC#64 ∈ s.peers ∧ (addrX s 0 ≤ 0x1003 ∧ 0x1003 < addrX s 0 + 4) ∧ 0x1003 < 0x0FFC + 4 * 3 ∧
        (0x0FFC + 4 * 1 ≤ 0x1003 ∧ 0x1003 < 0x0FFC + 4 * 1 + 4 ∧ 0x1003 < 0x1003 + [0x00#8].length)) ∧
      (peerAt 0x2020#64 ∈ s.peers ∧ (addrY s 1 0 ≤ 0x2020 ∧ 0x2020 < addrY s 1 0 + 2)) ∧
      (peerAt 0x3000#64 ∈ s.peers ∧ (addrSum s s.row.toNat ≤ 0x3007 ∧ 0x3007 < addrSum s s.row.toNat + 4)) :=
  ⟨{ running 0x11#64 1#64 8#64 [] [] with
      k := 1#64, phase := .red, row := 1#4, peers := [peerAt 0x0FFC#64, peerAt 0x2020#64, peerAt 0x3000#64] },
    ⟨by decide, by decide, by decide, by decide, by decide, by decide, by decide, by decide⟩, rfl, by decide, rfl,
    by decide, by decide, by decide, by decide⟩

/-- A START over a consumed `x[0]`, with and without a row reduced, and over `sum[1]`; a RED before the last row and one at it; a reset. -/
theorem witness_OtherInstanceSteps :
    ((0x1000#64).toNat % 4 = 0 ∧ busy State.reset = false) ∧
    (∃ s : State, SeqInv s ∧ memInv s ∧ busy s = true ∧ 0 < s.k.toNat ∧ s.row.toNat ≤ 1 ∧ 1 < s.ff.toNat ∧
      (addrX s 0 ≤ (0x1000#64).toNat + 3 ∧ (0x1000#64).toNat + 3 < addrX s 0 + 4)) ∧
    (∃ s : State, SeqInv s ∧ memInv s ∧ busy s = true ∧ 0 < s.row.toNat ∧ 0 < s.k.toNat ∧ addrSum s 1 + 4 ≤ 2 ^ 64 ∧
      (addrX s 0 ≤ (0x1000#64).toNat + 3 ∧ (0x1000#64).toNat + 3 < addrX s 0 + 4) ∧
      (addrSum s 1 ≤ (0x3004#64).toNat ∧ (0x3004#64).toNat < addrSum s 1 + 4 ∧ (0x3004#64).toNat % 4 = 0)) ∧
    ∃ s : State, memInv s ∧ s.peers = [peerAt 0x5000#64, ⟨0x6000#64, 2#3, 2#3⟩] ∧
      ∀ p ∈ s.peers, admits s .write (p.sumBase.toNat + 4 * p.row.toNat) 4 = true :=
  ⟨by decide, ⟨_, rem_later_seqInv, rfl, by decide, by decide, by decide, by decide, by decide⟩,
    ⟨_, red_later_seqInv, rfl, by decide, by decide, by decide, by decide, by decide, by decide⟩,
    { State.reset with peers := [peerAt 0x5000#64, ⟨0x6000#64, 2#3, 2#3⟩] }, rfl, rfl, by decide⟩

theorem witness_StepRunsDecodedInstruction :
    (commanded.faultRec = none ∧ turn commanded = some .host ∧ commanded.hostQueue = [.wreg 0x00 64 0x11#64] ∧
      decode (.cmdw 0x11#64) = .accepted .dotxf2) ∧
    (turn (withQueue [.driveH2s 0b01#2 0#128] State.reset) = some .host ∧ State.reset.faultRec = none ∧
      decode (.h2sm 0b01#2) = .accepted .h2sN) :=
  ⟨⟨rfl, by decide, rfl, by decide⟩, by decide, rfl, by decide⟩

theorem witness_WaitWithoutCommandHangs :
    ∃ s : State, SeqInv s ∧ healthy s ∧ s.phase = .idle ∧ done s = false ∧ s.hostQueue = [.wait] :=
  ⟨withQueue [.wait] (ready 9#64 8#64 [] []), seqInv_withQueue ready_seqInv _, ⟨rfl, rfl⟩, rfl, by decide, rfl⟩

/-- A poll that ends the wait, and one that does not. -/
theorem witness_WaitEndsWhenDone :
    (∃ s : State, s.faultRec = none ∧ turn s = some .host ∧ s.hostQueue = [.wait] ∧ done s = true) ∧
    turn (withQueue [.wait] State.reset) = some .host ∧ done State.reset = false :=
  ⟨⟨{ withQueue [.wait] State.reset with status := 0x2#64 }, rfl, by decide, rfl, by decide⟩, by decide, by decide⟩

end Sys2Proof.Tests
end

section
/-! Binary32 (00_scope R16 to R22): what the fields, the value and the rounding of a pattern are, as facts about its 31
magnitude bits. The magnitude bits order the finite patterns as their values do, and that is what rounding rests on. -/

namespace Sys2Proof.Machine

/-! The fields of a pattern, as parts of its number. -/

/-- The 31 bits below the sign, as a number. -/
def magBits (b : Single) : Nat := b.toNat % 2 ^ 31

theorem signBit_eq (b : Single) : signBit b = decide (2 ^ 31 ≤ b.toNat) := by
  rw [signBit, ← BitVec.msb_eq_getLsbD_last b, BitVec.msb_eq_decide]

theorem expField_eq (b : Single) : expField b = magBits b / 2 ^ 23 := by
  simp only [expField, magBits, BitVec.extractLsb'_toNat, Nat.shiftRight_eq_div_pow]
  omega

theorem fracField_eq (b : Single) : fracField b = magBits b % 2 ^ 23 := by
  simp only [fracField, magBits, BitVec.extractLsb'_toNat, Nat.shiftRight_eq_div_pow]
  omega

theorem magBits_lt (b : Single) : magBits b < 2 ^ 31 := Nat.mod_lt _ (by decide)

theorem isNaN_iff (b : Single) : isNaN b = true ↔ 0x7F800000 < magBits b := by
  have := magBits_lt b
  simp only [isNaN, expField_eq, fracField_eq, Bool.and_eq_true, beq_iff_eq, bne_iff_ne]
  omega

theorem isInf_iff (b : Single) : isInf b = true ↔ magBits b = 0x7F800000 := by
  have := magBits_lt b
  simp only [isInf, expField_eq, fracField_eq, Bool.and_eq_true, beq_iff_eq]
  omega

theorem isFinite_iff (b : Single) : isFinite b = true ↔ magBits b < 0x7F800000 := by
  have := magBits_lt b
  simp only [isFinite, expField_eq, bne_iff_ne]
  omega

theorem isZero_iff (b : Single) : isZero b = true ↔ magBits b = 0 := by
  simp only [isZero, expField_eq, fracField_eq, Bool.and_eq_true, beq_iff_eq]
  omega

theorem single_toNat (b : Single) : b.toNat = (if signBit b then 2 ^ 31 else 0) + magBits b := by
  have := b.isLt
  simp only [signBit_eq, magBits, decide_eq_true_eq]
  split <;> omega

theorem single_ext {a b : Single} (hs : signBit a = signBit b) (hm : magBits a = magBits b) : a = b :=
  BitVec.eq_of_toNat_eq (by rw [single_toNat, single_toNat b, hs, hm])

/-! The classes of patterns exclude one another. -/

theorem isNaN_of_isFinite {b : Single} (h : isFinite b = true) : isNaN b = false := by
  have := (isFinite_iff b).1 h
  rw [Bool.eq_false_iff, Ne, isNaN_iff]
  omega

theorem isInf_of_isFinite {b : Single} (h : isFinite b = true) : isInf b = false := by
  have := (isFinite_iff b).1 h
  rw [Bool.eq_false_iff, Ne, isInf_iff]
  omega

theorem isNaN_of_isInf {b : Single} (h : isInf b = true) : isNaN b = false := by
  have := (isInf_iff b).1 h
  rw [Bool.eq_false_iff, Ne, isNaN_iff]
  omega

theorem isZero_of_isInf {b : Single} (h : isInf b = true) : isZero b = false := by
  have := (isInf_iff b).1 h
  rw [Bool.eq_false_iff, Ne, isZero_iff]
  omega

/-- A pattern is a NaN, an infinity or finite. -/
theorem single_cases (b : Single) : isNaN b = true ∨ isInf b = true ∨ isFinite b = true := by
  rw [isNaN_iff, isInf_iff, isFinite_iff]
  omega

/-! Patterns with a given sign and given magnitude bits. -/

theorem signedInf_eq (neg : Bool) : signedInf neg = BitVec.ofBool neg ++ 0x7F800000#31 := by
  cases neg <;> rfl

theorem signedZero_eq (neg : Bool) : signedZero neg = BitVec.ofBool neg ++ 0#31 := by
  cases neg <;> rfl

@[simp] theorem signBit_signedInf (neg : Bool) : signBit (signedInf neg) = neg := by
  cases neg <;> rfl

@[simp] theorem magBits_signedInf (neg : Bool) : magBits (signedInf neg) = 0x7F800000 := by
  cases neg <;> rfl

/-- There is one infinity of each sign. -/
theorem eq_signedInf {b : Single} (h : isInf b = true) : b = signedInf (signBit b) :=
  single_ext (by simp) (by simpa using (isInf_iff b).1 h)

/-! FMA32, one lemma for each line of 00_scope R19. -/

theorem fmaCore_of_nan {a b c : Single} (h : isNaN a = true ∨ isNaN b = true ∨ isNaN c = true) :
    fmaCore a b c = none := by
  rcases h with h | h | h <;> simp [fmaCore, h]

theorem fmaCore_of_inf_zero {a b c : Single} (h : isInf a = true ∧ isZero b = true ∨ isZero a = true ∧ isInf b = true) :
    fmaCore a b c = none := by
  rcases h with ⟨ha, hb⟩ | ⟨ha, hb⟩ <;> simp [fmaCore, ha, hb]

theorem fmaCore_of_inf_product {a b c : Single} (ha : isNaN a = false) (hb : isNaN b = false) (hc : isNaN c = false)
    (h : isInf a = true ∧ isZero b = false ∨ isInf b = true ∧ isZero a = false) :
    fmaCore a b c =
      if isInf c = true ∧ signBit c ≠ (signBit a != signBit b) then none else some (signedInf (signBit a != signBit b)) := by
  rcases h with ⟨hi, hz⟩ | ⟨hi, hz⟩ <;> simp [fmaCore, ha, hb, hc, hi, hz, isZero_of_isInf hi]

theorem fmaCore_of_inf_addend {a b c : Single} (ha : isFinite a = true) (hb : isFinite b = true) (hc : isInf c = true) :
    fmaCore a b c = some c := by
  simp [fmaCore, isNaN_of_isFinite ha, isNaN_of_isFinite hb, isNaN_of_isInf hc, isInf_of_isFinite ha,
    isInf_of_isFinite hb, hc]

theorem fmaCore_of_finite {a b c : Single} (ha : isFinite a = true) (hb : isFinite b = true) (hc : isFinite c = true) :
    fmaCore a b c = some
      (if exactProduct a b + exactValue c ≠ 0 then rne32 (exactProduct a b + exactValue c)
       else if exactProduct a b = 0 ∧ signBit c = (signBit a != signBit b) then signedZero (signBit a != signBit b)
       else 0x00000000#32) := by
  simp only [fmaCore, isNaN_of_isFinite ha, isNaN_of_isFinite hb, isNaN_of_isFinite hc, isInf_of_isFinite ha,
    isInf_of_isFinite hb, isInf_of_isFinite hc, Bool.or_self, Bool.false_and, Bool.and_false, Bool.false_eq_true,
    if_false, Bool.and_eq_true, decide_eq_true_eq, beq_iff_eq]
  split
  · rfl
  · split <;> rfl

/-- Settles O36, by the lines of R19 for a NaN and for an infinite operand. -/
theorem fmaNonFinite : Obligations.FmaNonFinite := by
  intro nan a b c
  refine ⟨fun h => ?_, fun h => ?_, ?_⟩
  · rw [fma32, fmaCore_of_nan h, Option.getD_none]
  · rw [fma32, fmaCore_of_inf_zero h, Option.getD_none]
  rintro p rfl ha hb hc
  rw [← Bool.bne_eq_xor]
  refine ⟨fun h => ?_, fun ha hb hc => ?_⟩
  · rw [fma32, fmaCore_of_inf_product ha hb hc h]
    refine ⟨fun opposite => ?_, fun noConflict => ?_⟩
    · rw [if_pos opposite, Option.getD_none]
    · rw [if_neg, Option.getD_some, signedInf_eq]
      rintro ⟨hi, hs⟩
      exact noConflict.elim (fun hf => absurd hi (by simp [hf])) hs
  · rw [fma32, fmaCore_of_inf_addend ha hb hc, Option.getD_some]

/-! Exact values: zero exactly at the zeros, and products exact. -/

theorem withSign_false (m : Nat) : withSign false m = m := rfl

theorem withSign_true (m : Nat) : withSign true m = -m := rfl

theorem withSign_not (p : Bool) (m : Nat) : withSign (!p) m = -withSign p m := by
  cases p
  · rfl
  · exact (Int.neg_neg _).symm

theorem withSign_mul (p q : Bool) (m n : Nat) : withSign p m * withSign q n = withSign (p != q) (m * n) := by
  cases p <;> cases q <;> simp [withSign]

theorem withSign_eq_zero (p : Bool) (m : Nat) : withSign p m = 0 ↔ m = 0 := by
  cases p <;> simp [withSign]

theorem sig_eq_zero (b : Single) : sig b = 0 ↔ isZero b = true := by
  simp only [sig, isZero, Bool.and_eq_true, beq_iff_eq]
  split <;> simp_all

theorem exactValue_eq_zero (b : Single) : exactValue b = 0 ↔ isZero b = true := by
  rw [exactValue, withSign_eq_zero, Nat.mul_eq_zero, sig_eq_zero]
  simp

theorem exactProduct_eq_zero (a b : Single) : exactProduct a b = 0 ↔ isZero a = true ∨ isZero b = true := by
  rw [exactProduct, withSign_eq_zero, Nat.mul_eq_zero, Nat.mul_eq_zero, sig_eq_zero, sig_eq_zero]
  simp

theorem withSign_mul_two_pow (p : Bool) (m k : Nat) : withSign p m * 2 ^ k = withSign p (m * 2 ^ k) := by
  cases p <;> simp [withSign]

theorem exactProduct_exact (a b : Single) : exactProduct a b * 2 ^ 300 = exactValue a * exactValue b := by
  rw [exactValue, exactValue, exactProduct, withSign_mul_two_pow, withSign_mul]
  refine congrArg (withSign _) ?_
  rw [Nat.mul_mul_mul_comm, ← Nat.pow_add, Nat.mul_assoc, ← Nat.pow_add]
  refine congrArg (fun e => sig a * sig b * 2 ^ e) ?_
  omega

/-- Settles O37: with a sum of zero the product and the addend are zero together. -/
theorem fmaExactZero : Obligations.FmaExactZero := by
  refine ⟨exactProduct_exact, fun nan a b c ha hb hc hsum => ?_⟩
  have hzero : exactProduct a b + exactValue c = 0 := by
    rw [← exactProduct_exact, ← Int.add_mul] at hsum
    exact (Int.mul_eq_zero.1 hsum).resolve_right (by norm_num)
  have together : exactProduct a b = 0 ↔ exactValue c = 0 := by omega
  rw [exactProduct_eq_zero, exactValue_eq_zero] at together
  rw [fma32, fmaCore_of_finite ha hb hc, Option.getD_some, if_neg (not_not.2 hzero), signedZero_eq]
  refine if_ctx_congr ?_ (fun ⟨_, _, hs⟩ => ?_) fun _ => rfl
  · rw [exactProduct_eq_zero, Bool.bne_eq_xor, eq_comm (a := signBit c)]
    tauto
  · rw [Bool.bne_eq_xor, hs]

/-! ADD32 (00_scope R20): the product with 1.0 is the operand. -/

theorem exactProduct_one (a : Single) : exactProduct a one32 = exactValue a := by
  have hsign : signBit one32 = false := by decide
  have hsig : sig one32 = 2 ^ 23 := by decide
  have hscale : scale one32 = 127 := by decide
  rw [exactProduct, exactValue, hsign, hsig, hscale, Bool.bne_false, Nat.mul_assoc, ← Nat.pow_add]
  refine congrArg (fun e => withSign (signBit a) (sig a * 2 ^ e)) ?_
  omega

theorem addCore_of_nan {a b : Single} (h : isNaN a = true ∨ isNaN b = true) : addCore a b = none :=
  fmaCore_of_nan (h.imp_right .inr)

theorem addCore_of_inf_left {a b : Single} (ha : isInf a = true) (hb : isNaN b = false) :
    addCore a b = if isInf b = true ∧ signBit b ≠ signBit a then none else some a := by
  have hone : isZero one32 = false := by decide
  rw [addCore, fmaCore_of_inf_product (isNaN_of_isInf ha) (by decide) hb (.inl ⟨ha, hone⟩),
    show signBit one32 = false by decide, Bool.bne_false, ← eq_signedInf ha]

theorem addCore_of_inf_right {a b : Single} (ha : isFinite a = true) (hb : isInf b = true) : addCore a b = some b :=
  fmaCore_of_inf_addend ha (by decide) hb

theorem addCore_of_finite {a b : Single} (ha : isFinite a = true) (hb : isFinite b = true) :
    addCore a b = some
      (if exactValue a + exactValue b ≠ 0 then rne32 (exactValue a + exactValue b)
       else if exactValue a = 0 ∧ signBit b = signBit a then signedZero (signBit a)
       else 0x00000000#32) := by
  rw [addCore, fmaCore_of_finite ha (by decide) hb, exactProduct_one, show signBit one32 = false by decide, Bool.bne_false]

/-- Settles O39, by the class of each operand; two infinities of one sign are one pattern. -/
theorem addIsCommutative : Obligations.AddIsCommutative := by
  intro a b
  rcases single_cases a with ha | ha | ha
  · rw [addCore_of_nan (.inl ha), addCore_of_nan (.inr ha)]
  · rcases single_cases b with hb | hb | hb
    · rw [addCore_of_nan (.inl hb), addCore_of_nan (.inr hb)]
    · rw [addCore_of_inf_left ha (isNaN_of_isInf hb), addCore_of_inf_left hb (isNaN_of_isInf ha), eq_signedInf ha,
        eq_signedInf hb]
      cases signBit a <;> cases signBit b <;> decide
    · rw [addCore_of_inf_left ha (isNaN_of_isFinite hb), addCore_of_inf_right hb ha, isInf_of_isFinite hb]
      simp
  · rcases single_cases b with hb | hb | hb
    · rw [addCore_of_nan (.inl hb), addCore_of_nan (.inr hb)]
    · rw [addCore_of_inf_right ha hb, addCore_of_inf_left hb (isNaN_of_isFinite ha), isInf_of_isFinite ha]
      simp
    · rw [addCore_of_finite ha hb, addCore_of_finite hb ha, Int.add_comm]
      by_cases hsum : exactValue b + exactValue a = 0
      · have together : exactValue a = 0 ↔ exactValue b = 0 := by omega
        by_cases hs : signBit a = signBit b <;> simp [hsum, together, hs, eq_comm]
      · rw [if_pos hsum, if_pos hsum]

/-! The NaN draw (00_scope R21). -/

theorem expField_nanOf (b : BitVec 32) : expField (nanOf b) = 255 := by
  rw [expField, nanOf, BitVec.extractLsb'_append_eq_of_le (by decide), BitVec.extractLsb'_append_eq_right]
  rfl

theorem fracField_nanOf (b : BitVec 32) : fracField (nanOf b) = if fracField b = 0 then 1 else fracField b := by
  rw [fracField, nanOf, BitVec.extractLsb'_append_eq_right, fracField]
  simp only [← BitVec.toNat_inj, BitVec.toNat_ofNat, apply_ite BitVec.toNat]

theorem isNaN_nanOf (b : BitVec 32) : isNaN (nanOf b) = true := by
  rw [isNaN, expField_nanOf, fracField_nanOf]
  split <;> simp_all

theorem signBit_nanOf (b : BitVec 32) : signBit (nanOf b) = signBit b := by
  rw [signBit, nanOf, BitVec.getLsbD_append, BitVec.getLsbD_append]
  simp [signBit]

/-- The fields of a NaN pattern are those that `nanOf` builds. -/
theorem nanOf_of_isNaN {b : Single} (h : isNaN b = true) : nanOf b = b := by
  simp only [isNaN, Bool.and_eq_true, beq_iff_eq, bne_iff_ne] at h
  obtain ⟨hexp, hfrac⟩ := h
  refine single_ext (signBit_nanOf b) ?_
  have hexp' := expField_nanOf b
  have hfrac' := fracField_nanOf b
  rw [if_neg hfrac] at hfrac'
  rw [← hexp, expField_eq, expField_eq] at hexp'
  rw [fracField_eq, fracField_eq] at hfrac'
  omega

/-- Settles O40: a draw is `nanOf` of the free bits. -/
theorem nanResultIsNan : Obligations.NanResultIsNan :=
  ⟨fun k => isNaN_nanOf (Config.nanDraw k), fun _ h => nanOf_of_isNaN h, fun _ => rfl, isNaN_nanOf,
    fun _ => nanOf_of_isNaN⟩

end Sys2Proof.Machine
end

section
/-! RNE32 (00_scope R18): rounding in units of the place of the last kept bit. The magnitude bits `q + k * 2^23` stand for
`q` units of `2^(k + 151)` (in the units of 2^-300 of the exact values) on each interval of one place, its upper end
included. So the two patterns around a magnitude are neighbours, and every other pattern lies beyond one of them. -/

namespace Sys2Proof.Machine

/-! The value of magnitude bits. -/

/-- The value that magnitude bits stand for, in units of 2^-300 (00_scope R16). -/
def magValue (n : Nat) : Nat := if n < 2 ^ 23 then n * 2 ^ 151 else (2 ^ 23 + n % 2 ^ 23) * 2 ^ (n / 2 ^ 23 + 150)

theorem exactValue_eq (b : Single) : exactValue b = withSign (signBit b) (magValue (magBits b)) := by
  refine congrArg (withSign _) ?_
  simp only [sig, scale, magValue, expField_eq, fracField_eq, Nat.div_eq_zero_iff_lt (show 0 < 2 ^ 23 by decide)]
  by_cases h : magBits b < 2 ^ 23
  · rw [if_pos h, if_pos h, Nat.mod_eq_of_lt h, Nat.div_eq_of_lt h]
    rfl
  · rw [if_neg h, if_neg h, Nat.max_eq_left (by omega)]

/-- 00_scope R16, in its two lines. -/
theorem exactValue_layout (a : Single) : exactValue a = (if a.getLsbD 31 then -1 else 1) *
    (if a.extractLsb' 23 8 = 0#8 then (a.extractLsb' 0 23).toNat * 2 ^ 151
      else (2 ^ 23 + (a.extractLsb' 0 23).toNat) * 2 ^ ((a.extractLsb' 23 8).toNat + 150) : Nat) := by
  have hsign (p : Bool) (m : Nat) : withSign p m = (if p then -1 else 1) * (m : Int) := by
    cases p <;> simp [withSign]
  have hsub : a.extractLsb' 23 8 = 0#8 ↔ expField a = 0 := by rw [← BitVec.toNat_inj]; rfl
  rw [exactValue, hsign, sig, scale, if_congr hsub rfl rfl]
  refine congrArg (fun m : Nat => (if signBit a then -1 else 1) * (m : Int)) ?_
  split
  · next h => rw [h]; rfl
  · next h => rw [Nat.max_eq_left (Nat.one_le_iff_ne_zero.2 h)]; rfl

/-- On an interval of one place, both ends included, the magnitude bits count units. -/
theorem magValue_grid {q k : Nat} (hq : q ≤ 2 ^ 24) (hk : k = 0 ∨ 2 ^ 23 ≤ q) :
    magValue (q + k * 2 ^ 23) = q * 2 ^ (k + 151) := by
  by_cases hlow : q < 2 ^ 23
  · obtain rfl : k = 0 := by omega
    rw [Nat.zero_mul, Nat.add_zero, Nat.zero_add, magValue, if_pos hlow]
  by_cases htop : q = 2 ^ 24
  · rw [magValue, if_neg (by omega), show (q + k * 2 ^ 23) % 2 ^ 23 = 0 by omega,
      show (q + k * 2 ^ 23) / 2 ^ 23 + 150 = 1 + (k + 151) by omega, htop, Nat.pow_add, ← Nat.mul_assoc]
    rfl
  · rw [magValue, if_neg (by omega), show 2 ^ 23 + (q + k * 2 ^ 23) % 2 ^ 23 = q by omega,
      show (q + k * 2 ^ 23) / 2 ^ 23 + 150 = k + 151 by omega]

/-- All magnitude bits are those of a lower end or an inner point of an interval of one place. -/
theorem exists_grid (n : Nat) : ∃ q k, n = q + k * 2 ^ 23 ∧ q < 2 ^ 24 ∧ (k = 0 ∨ 2 ^ 23 ≤ q) := by
  by_cases h : n < 2 ^ 23
  · exact ⟨n, 0, by omega, by omega, .inl rfl⟩
  · exact ⟨2 ^ 23 + n % 2 ^ 23, n / 2 ^ 23 - 1, by omega, by omega, .inr (by omega)⟩

theorem magValue_strictMono : StrictMono magValue := by
  refine strictMono_nat_of_lt_succ fun n => ?_
  obtain ⟨q, k, rfl, hq, hk⟩ := exists_grid n
  rw [Nat.add_right_comm, magValue_grid hq.le hk, magValue_grid hq (by omega)]
  exact Nat.mul_lt_mul_of_pos_right (Nat.lt_succ_self q) (Nat.two_pow_pos _)

/-! Rounding to an integer number of units. -/

/-- What rounding does: down from below the middle, up from above it, and from the middle to the even neighbour. -/
theorem roundShift_cases (mag shift : Nat) :
    (roundShift mag shift = mag / 2 ^ shift ∧ 2 * (mag % 2 ^ shift) ≤ 2 ^ shift ∨
      roundShift mag shift = mag / 2 ^ shift + 1 ∧ 2 ^ shift ≤ 2 * (mag % 2 ^ shift)) ∧
    (2 * (mag % 2 ^ shift) = 2 ^ shift → roundShift mag shift % 2 = 0) := by
  simp only [roundShift, Bool.or_eq_true, Bool.and_eq_true, decide_eq_true_eq, beq_iff_eq]
  split <;> omega

/-- No `x` outside the open interval between the two neighbours of `mag` is nearer than the rounded one, and one as near
leaves that even. -/
theorem roundShift_nearest (mag shift : Nat) (x : Int)
    (hx : x ≤ (mag / 2 ^ shift * 2 ^ shift : Nat) ∨ ((mag / 2 ^ shift + 1) * 2 ^ shift : Nat) ≤ x) :
    (mag - (roundShift mag shift * 2 ^ shift : Nat) : Int).natAbs ≤ (mag - x).natAbs ∧
    ((mag - (roundShift mag shift * 2 ^ shift : Nat) : Int).natAbs = (mag - x).natAbs →
      x ≠ (roundShift mag shift * 2 ^ shift : Nat) → roundShift mag shift % 2 = 0) := by
  have hmag := Nat.div_add_mod' mag (2 ^ shift)
  obtain ⟨hround, heven⟩ := roundShift_cases mag shift
  rw [Nat.succ_mul] at hx
  rcases hround with ⟨hr, hside⟩ | ⟨hr, hside⟩ <;> rw [hr] at heven ⊢
  · omega
  · rw [Nat.succ_mul]
    omega

/-! The place of the last kept bit. -/

theorem le_ulpPlace (mag : Nat) : 151 ≤ ulpPlace mag := Nat.le_max_right _ _

theorem lt_ulpPlace {mag : Nat} : mag < 2 ^ 24 * 2 ^ ulpPlace mag := by
  rw [← Nat.pow_add]
  refine Nat.lt_log2_self.trans_le (Nat.pow_le_pow_right (by decide) ?_)
  simp only [ulpPlace]
  omega

/-- Above the subnormal grid the significand is full. -/
theorem ulpPlace_le {mag : Nat} (h : mag ≠ 0) : ulpPlace mag = 151 ∨ 2 ^ 23 * 2 ^ ulpPlace mag ≤ mag := by
  refine or_iff_not_imp_left.2 fun hplace => ?_
  rw [← Nat.pow_add]
  refine (Nat.pow_le_pow_right (by decide) ?_).trans (Nat.log2_self_le h)
  simp only [ulpPlace] at hplace ⊢
  omega

/-! The magnitude bits of a rounded magnitude. -/

/-- The number of whole units in a magnitude is a significand, and a full one above the subnormal grid. -/
theorem units_bounds {mag : Nat} (h : mag ≠ 0) :
    mag / 2 ^ ulpPlace mag < 2 ^ 24 ∧ (ulpPlace mag - 151 = 0 ∨ 2 ^ 23 ≤ mag / 2 ^ ulpPlace mag) := by
  refine ⟨Nat.div_lt_of_lt_mul (Nat.mul_comm _ _ ▸ lt_ulpPlace), (ulpPlace_le h).imp (by omega) fun hle => ?_⟩
  exact (Nat.le_div_iff_mul_le (Nat.two_pow_pos _)).2 hle

theorem roundShift_bounds {mag : Nat} (h : mag ≠ 0) :
    roundShift mag (ulpPlace mag) ≤ 2 ^ 24 ∧
      (ulpPlace mag - 151 = 0 ∨ 2 ^ 23 ≤ roundShift mag (ulpPlace mag)) := by
  have := units_bounds h
  have := (roundShift_cases mag (ulpPlace mag)).1
  omega

/-- Magnitude bits that count `q` units of the place of `mag` have the value of those units. -/
theorem magValue_units {mag q : Nat} (hq : q ≤ 2 ^ 24) (hk : ulpPlace mag - 151 = 0 ∨ 2 ^ 23 ≤ q) :
    magValue (q + (ulpPlace mag - 151) * 2 ^ 23) = q * 2 ^ ulpPlace mag := by
  rw [magValue_grid hq hk, Nat.sub_add_cancel (le_ulpPlace mag)]

/-- Every magnitude pattern lies at or beyond one of the two neighbours of `mag`. -/
theorem magValue_outside {mag : Nat} (h : mag ≠ 0) (n : Nat) :
    magValue n ≤ mag / 2 ^ ulpPlace mag * 2 ^ ulpPlace mag ∨
      (mag / 2 ^ ulpPlace mag + 1) * 2 ^ ulpPlace mag ≤ magValue n := by
  obtain ⟨hq, hk⟩ := units_bounds h
  rw [← magValue_units hq.le hk, ← magValue_units hq (by omega), magValue_strictMono.le_iff_le,
    magValue_strictMono.le_iff_le]
  omega

/-- At the place of the largest finite patterns, where a unit is twice `half`: rounding carries out of the significand
exactly from the midpoint above the last one. -/
theorem roundShift_lt_iff {mag shift half : Nat} (hunit : 2 ^ shift = 2 * half) (hmag : mag / 2 ^ shift < 2 ^ 24) :
    roundShift mag shift < 2 ^ 24 ↔ mag < (2 ^ 25 - 1) * half := by
  have hdiv := Nat.div_add_mod' mag (2 ^ shift)
  have hround := roundShift_cases mag shift
  by_cases hlast : mag / 2 ^ shift = 2 ^ 24 - 1
  · rw [hlast] at hdiv hround
    omega
  · have hbelow : mag < (2 ^ 24 - 1) * 2 ^ shift := (Nat.div_lt_iff_lt_mul (Nat.two_pow_pos _)).1 (by omega)
    omega

/-- The rounding overflows exactly from the midpoint below 2^128 on. -/
theorem roundMag_lt_iff {mag : Nat} (h : mag ≠ 0) : roundMag mag < 0x7F800000 ↔ mag < (2 ^ 25 - 1) * 2 ^ 403 := by
  obtain ⟨hq, hk⟩ := roundShift_bounds h
  have hlt := lt_ulpPlace (mag := mag)
  have hle := ulpPlace_le h
  rw [roundMag, min_lt_iff, or_iff_left (lt_irrefl _)]
  -- With the exponent a variable, its power is an atom for `omega`.
  obtain ⟨p, hp⟩ : ∃ p, p = 403 := ⟨_, rfl⟩
  rw [← hp]
  rcases lt_trichotomy (ulpPlace mag) (p + 1) with hplace | hplace | hplace
  · have hunit : 2 ^ ulpPlace mag ≤ 2 ^ p := Nat.pow_le_pow_right (by decide) (Nat.le_of_lt_succ hplace)
    omega
  · have hunit : 2 ^ ulpPlace mag = 2 * 2 ^ p := by rw [hplace, Nat.pow_succ']
    rw [← roundShift_lt_iff hunit (units_bounds h).1]
    omega
  · have hunit : 2 ^ (p + 2) ≤ 2 ^ ulpPlace mag := Nat.pow_le_pow_right (by decide) hplace
    rw [Nat.pow_succ', Nat.pow_succ'] at hunit
    omega

theorem roundMag_le (mag : Nat) : roundMag mag ≤ 0x7F800000 := Nat.min_le_right _ _

theorem roundMag_of_lt {mag : Nat} (h : roundMag mag < 0x7F800000) :
    roundMag mag = roundShift mag (ulpPlace mag) + (ulpPlace mag - 151) * 2 ^ 23 := by
  simp only [roundMag] at h ⊢
  omega

theorem magValue_roundMag {mag : Nat} (h0 : mag ≠ 0) (h : roundMag mag < 0x7F800000) :
    magValue (roundMag mag) = roundShift mag (ulpPlace mag) * 2 ^ ulpPlace mag := by
  obtain ⟨hq, hk⟩ := roundShift_bounds h0
  rw [roundMag_of_lt h, magValue_units hq hk]

/-! RNE32. -/

theorem rne32_toNat (t : Int) : (rne32 t).toNat = (if t < 0 then 2 ^ 31 else 0) + roundMag t.natAbs := by
  have hle := roundMag_le t.natAbs
  rw [rne32, BitVec.toNat_or, BitVec.toNat_ofNat, Nat.mod_eq_of_lt (by omega)]
  split
  · exact (Nat.two_pow_add_eq_or_of_lt (i := 31) (by omega) 1).symm
  · simp

theorem magBits_rne32 (t : Int) : magBits (rne32 t) = roundMag t.natAbs := by
  have hle := roundMag_le t.natAbs
  rw [magBits, rne32_toNat]
  split <;> omega

theorem signBit_rne32 (t : Int) : signBit (rne32 t) = decide (t < 0) := by
  have hle := roundMag_le t.natAbs
  rw [signBit_eq, rne32_toNat, decide_eq_decide]
  split <;> omega

/-! A signed value seen from the side of a sign `p`, where a magnitude of sign `p` is positive. -/

theorem natAbs_withSign_sub (p s : Bool) (m n : Nat) :
    (withSign p m - withSign s n).natAbs = (m - withSign (p != s) n).natAbs := by
  cases p with
  | false => rw [Bool.false_bne, withSign_false]
  | true =>
    rw [Bool.true_bne, withSign_true, withSign_not]
    omega

theorem withSign_bne_eq_iff (p s : Bool) (m n : Nat) : withSign (p != s) n = m ↔ withSign s n = withSign p m := by
  cases p with
  | false => rw [Bool.false_bne, withSign_false]
  | true =>
    rw [Bool.true_bne, withSign_true, withSign_not]
    omega

theorem withSign_natAbs (t : Int) : withSign (decide (t < 0)) t.natAbs = t := by
  simp only [withSign, decide_eq_true_eq]
  split <;> omega

/-- A pattern's value, seen from the side of a sign, is outside the two neighbours of a magnitude: with the other sign it
is not above 0. -/
theorem withSign_magValue_outside {mag : Nat} (h : mag ≠ 0) (opposite : Bool) (n : Nat) :
    withSign opposite (magValue n) ≤ (mag / 2 ^ ulpPlace mag * 2 ^ ulpPlace mag : Nat) ∨
      ((mag / 2 ^ ulpPlace mag + 1) * 2 ^ ulpPlace mag : Nat) ≤ withSign opposite (magValue n) := by
  cases opposite
  · exact (magValue_outside h n).imp Int.ofNat_le.2 Int.ofNat_le.2
  · exact .inl (by rw [withSign_true]; omega)

theorem getLsbD_zero_rne32 {t : Int} (h : roundMag t.natAbs < 0x7F800000)
    (heven : roundShift t.natAbs (ulpPlace t.natAbs) % 2 = 0) : (rne32 t).getLsbD 0 = false := by
  rw [BitVec.getLsbD, Nat.testBit_zero, decide_eq_false_iff_not, rne32_toNat, roundMag_of_lt h]
  split <;> omega

/-- A rounding that stays finite is nearest, and even in a tie. -/
theorem rne32_nearest {t : Int} (ht : t ≠ 0) (hfin : roundMag t.natAbs < 0x7F800000) (q : Single) :
    (t - exactValue (rne32 t)).natAbs ≤ (t - exactValue q).natAbs ∧
    ((t - exactValue (rne32 t)).natAbs = (t - exactValue q).natAbs → exactValue q ≠ exactValue (rne32 t) →
      (rne32 t).getLsbD 0 = false) := by
  have hmag : t.natAbs ≠ 0 := Int.natAbs_ne_zero.2 ht
  obtain ⟨hnear, htie⟩ := roundShift_nearest t.natAbs (ulpPlace t.natAbs)
    (withSign (decide (t < 0) != signBit q) (magValue (magBits q))) (withSign_magValue_outside hmag _ _)
  have dist (s : Bool) (n : Nat) := natAbs_withSign_sub (decide (t < 0)) s t.natAbs n
  rw [withSign_natAbs] at dist
  rw [exactValue_eq, exactValue_eq q, signBit_rne32, magBits_rne32, magValue_roundMag hmag hfin, dist, dist, bne_self_eq_false]
  refine ⟨hnear, fun heq hne => getLsbD_zero_rne32 hfin (htie heq fun hsame => hne ?_)⟩
  exact (withSign_bne_eq_iff _ _ _ _).1 hsame

/-- Settles O38: FMA32 rounds the exact sum once, a finite rounding is nearest, and overflow starts at the midpoint. -/
theorem fmaRoundsToNearestEven : Obligations.FmaRoundsToNearestEven := by
  refine ⟨exactProduct_exact, fun a _ => exactValue_layout a, ?_⟩
  rintro nan a b c r v ha hb hc rfl hv rfl
  have hmag : (exactProduct a b + exactValue c).natAbs ≠ 0 := Int.natAbs_ne_zero.2 hv
  rw [fma32, fmaCore_of_finite ha hb hc, Option.getD_some, if_pos hv, isInf_iff, isFinite_iff, signBit_rne32,
    magBits_rne32, decide_eq_true_iff, ← roundMag_lt_iff hmag]
  refine ⟨Iff.rfl, fun hover => ?_, fun hfin => ⟨hfin, fun q _ => rne32_nearest hv hfin q⟩⟩
  exact (roundMag_le _).eq_or_lt.resolve_right fun hlt => ((roundMag_lt_iff hmag).1 hlt).not_ge hover

end Sys2Proof.Machine
end

section
/-! The register window and the host's turn (10_state R31 to R35, 70 R236). A window access is known by its register:
`windowReg` finds one exactly at that register's offset with width 64. -/

namespace Sys2Proof.Machine

variable {s : State}

theorem windowReg_regOffset (r : WinReg) : windowReg (regOffset r) 64 = some r := by
  cases r <;> rfl

theorem windowReg_eq_some {o w : Nat} {r : WinReg} (h : windowReg o w = some r) : w = 64 ∧ o = regOffset r := by
  unfold windowReg at h
  split at h
  case isTrue => simp at h
  case isFalse hw =>
    refine ⟨by simpa using hw, ?_⟩
    split at h <;> cases h <;> rfl

theorem regOffset_aligned (r : WinReg) : regOffset r % 8 = 0 ∧ regOffset r < 0x38 := by
  cases r <;> decide

/-- A width other than 64, a misaligned offset and 0x38 name no register (10_state R35). -/
theorem windowReg_eq_none {o w : Nat} (h : w ≠ 64 ∨ o % 8 ≠ 0 ∨ o = 0x38) : windowReg o w = none := by
  cases hr : windowReg o w with
  | none => rfl
  | some r =>
    obtain ⟨hw, ho⟩ := windowReg_eq_some hr
    have hal := regOffset_aligned r
    omega

/-- Settles O9: no register is found there, and that is looked at first. -/
theorem badWindowAccessFaults : Obligations.BadWindowAccessFaults := by
  intro s o w v ho hbad
  have hin : ¬0x40 ≤ o := by omega
  constructor
  · simp [hostAct, windowWrite, hin, windowReg_eq_none hbad, recordFault]
  · simp [hostAct, windowRead, hin, windowReg_eq_none hbad, recordFault]

theorem startCommand_busy (hb : busy s = true) (v : Word) :
    startCommand v s = .next (recordFault (.busyWrite 0x00 v) s) := by
  simp [startCommand, hb]

theorem hostAct_wreg_cmd (v : Word) (s : State) : hostAct (.wreg 0x00 64 v) s = startCommand v s :=
  writeCmd_eq v s

theorem hostAct_wreg_reg {r : WinReg} (hr : r ≠ .cmd) (v : Word) (s : State) :
    hostAct (.wreg (regOffset r) 64 v) s = writeReg r (regOffset r) v s := by
  cases r
  case cmd => contradiction
  all_goals rfl

theorem hostAct_wreg_busy (hb : busy s = true) (r : WinReg) (v : Word) :
    hostAct (.wreg (regOffset r) 64 v) s = .next (recordFault (.busyWrite (regOffset r) v) s) := by
  by_cases hr : r = .cmd
  · subst hr
    exact (hostAct_wreg_cmd v s).trans (startCommand_busy hb v)
  · simp [hostAct_wreg_reg hr, writeReg, hb]

/-- Settles O10: the write of `CMD` is START, a `DOTXF` command too, and START looks at `BUSY` first. -/
theorem windowWriteWhileBusyFaults : Obligations.WindowWriteWhileBusyFaults :=
  ⟨fun _ r v hb => hostAct_wreg_busy hb r v,
    fun _ _ v hi s hb => (exec_dotxf hi s).trans (startCommand_busy hb v)⟩

theorem hostAct_wreg_idle (hb : busy s = false) {r : WinReg} (hr : r ≠ .cmd) (v : Word) :
    hostAct (.wreg (regOffset r) 64 v) s = .next (storeArg r v s) := by
  simp [hostAct_wreg_reg hr, writeReg, hb]

/-- Settles O11: `storeArg` of each register other than `CMD`. -/
theorem windowWriteStores : Obligations.WindowWriteStores := by
  intro s v hb
  exact ⟨hostAct_wreg_idle hb (r := .status) (by decide) v, hostAct_wreg_idle hb (r := .xBase) (by decide) v,
    hostAct_wreg_idle hb (r := .yBase) (by decide) v, hostAct_wreg_idle hb (r := .stride) (by decide) v,
    hostAct_wreg_idle hb (r := .sumBase) (by decide) v, hostAct_wreg_idle hb (r := .n) (by decide) v⟩

theorem hostAct_rreg (r : WinReg) (s : State) :
    hostAct (.rreg (regOffset r) 64) s =
      if isWritten r s then .next (observe (.window (regOffset r) (regValue r s)) s)
      else .next (recordFault (.unwritten (regOffset r)) s) := by
  cases r <;> rfl

/-- `STATUS` reads as its two low bits (10_state R31). -/
theorem regValue_status (s : State) : regValue .status s = (s.status.extractLsb' 0 2).setWidth 64 := by
  apply BitVec.eq_of_toNat_eq
  have hmask : s.status.toNat &&& 3 = s.status.toNat % 4 := Nat.and_two_pow_sub_one_eq_mod _ 2
  simp [regValue, hmask]
  omega

/-- Settles O12: the list holds each register with its offset, value and mark. -/
theorem windowReadReturnsValue : Obligations.WindowReadReturnsValue := by
  intro s o v w h
  have hrow : ∃ r, o = regOffset r ∧ v = regValue r s ∧ w = isWritten r s := by
    rw [← regValue_status] at h
    simp only [List.mem_cons, Prod.mk.injEq, List.not_mem_nil, or_false] at h
    rcases h with h | h | h | h | h | h | h
    · exact ⟨.cmd, h⟩
    · exact ⟨.status, h⟩
    · exact ⟨.xBase, h⟩
    · exact ⟨.yBase, h⟩
    · exact ⟨.stride, h⟩
    · exact ⟨.sumBase, h⟩
    · exact ⟨.n, h⟩
  obtain ⟨r, rfl, rfl, rfl⟩ := hrow
  exact hostAct_rreg r s

/-! The host's turn. -/

theorem step_of_host_turn {a : HostAction} {rest : List HostAction} (hf : s.faultRec = none)
    (ht : turn s = some .host) (hq : s.hostQueue = a :: rest) :
    step s = hostAct a { s with hostQueue := rest, schedule := s.schedule.tail } := by
  simp [step, blockStep, hf, ht, hostStep, hq, popHost, popSchedule]

/-- Settles O46: a write of `CMD` and a drive of the port decode their word and run it. -/
theorem stepRunsDecodedInstruction : Obligations.StepRunsDecodedInstruction := by
  constructor
  · intro s v i rest hf ht hq hd
    rw [step_of_host_turn hf ht hq, hostAct_wreg_cmd, ← writeCmd_eq, writeCmd, hd]
  · intro s m u i rest hf ht hq hd
    rw [step_of_host_turn hf ht hq, hostAct, drivePins, hd]
    rfl

end Sys2Proof.Machine
end

section
/-! The frame of an engine step (10_state R35, R40). -/

namespace Sys2Proof.Machine

variable {s t : State}

/-- An engine step writes STATUS, PHASE, the counters, ACC, the fault record and memory alone. -/
theorem engineStep_frame (h : engineStep s = .next t) :
    t = { s with
      status := t.status
      phase := t.phase
      k := t.k
      row := t.row
      acc := t.acc
      faultRec := t.faultRec
      mem := t.mem
      draws := t.draws } := by
  rcases engineStep_cases h with ⟨-, rfl⟩ | ⟨-, _, _, _, rfl⟩ | ⟨-, -, rfl⟩ | ⟨-, -, rfl⟩ | ⟨-, -, rfl⟩ <;> rfl

theorem bulkNext_acc_above {i : Fin 8} (hi : s.ff.toNat ≤ i.val) : (bulkNext s).acc[i] = s.acc[i] := by
  simp [bulkNext, hi]

theorem remNext_acc_above {i : Fin 8} (hi : s.ff.toNat ≤ i.val) : (remNext s).acc[i] = s.acc[i] := by
  simp [remNext, hi]

theorem engineStep_acc_above (h : engineStep s = .next t) {i : Fin 8} (hi : s.ff.toNat ≤ i.val) :
    t.acc[i] = s.acc[i] := by
  rcases engineStep_cases h with ⟨-, rfl⟩ | ⟨-, _, _, _, rfl⟩ | ⟨-, -, rfl⟩ | ⟨-, -, rfl⟩ | ⟨-, -, rfl⟩
  · rfl
  · rfl
  · exact bulkNext_acc_above hi
  · exact remNext_acc_above hi
  · rfl

/-- Only RED writes memory, and it stores one single at `addr_sum(ROW)`. -/
theorem engineStep_mem (h : engineStep s = .next t) :
    t.mem = s.mem ∨ s.phase = .red ∧ t.mem = store32 s.mem (addrSum s s.row.toNat) (redValue s) := by
  rcases engineStep_cases h with ⟨-, rfl⟩ | ⟨-, _, _, _, rfl⟩ | ⟨-, -, rfl⟩ | ⟨-, -, rfl⟩ | ⟨hp, -, rfl⟩
  · exact .inl rfl
  · exact .inl rfl
  · exact .inl rfl
  · exact .inl rfl
  · exact .inr ⟨hp, rfl⟩

theorem engineStep_readByte_out (h : engineStep s = .next t) {b : Nat}
    (hb : b < addrSum s s.row.toNat ∨ addrSum s s.row.toNat + 4 ≤ b) : readByte t.mem b = readByte s.mem b := by
  rcases engineStep_mem h with hm | ⟨-, hm⟩
  · rw [hm]
  · rw [hm, readByte_store32_out hb]

/-- Settles O20: the frame keeps its first eighteen fields; ACC above FF and memory are case analyses of the step. -/
theorem engineStepFrame : Obligations.EngineStepFrame := by
  intro s t h
  have frame := engineStep_frame h
  iterate 18 refine ⟨by rw [frame], ?_⟩
  refine ⟨fun i j hi => ?_, fun b hb => engineStep_readByte_out h hb, fun hp => ?_⟩
  · rw [engineStep_acc_above h hi]
  · exact (engineStep_mem h).resolve_right fun hred => hp hred.1

end Sys2Proof.Machine
end

section
/-! The sequencing invariant (10_state R34, R38, R39). It reads the window registers, the marks, PHASE and the counters
alone, so a step that leaves those keeps it; every other step ends in IDLE, enters a phase by NEXTPHASE, or goes on to
the next row of RED. -/

namespace Sys2Proof.Machine

variable {s t : State}

/-! STATUS with its reserved bits 0 (10_state R31, R34). -/

theorem status_lt_four {w : Word} (h : w.extractLsb' 2 62 = 0#62) : w.toNat < 4 := by
  have h0 := congrArg BitVec.toNat h
  simp [Nat.shiftRight_eq_div_pow] at h0
  omega

theorem status_cases {w : Word} (h : w.extractLsb' 2 62 = 0#62) : w = 0x0#64 ∨ w = 0x1#64 ∨ w = 0x2#64 ∨ w = 0x3#64 := by
  have := status_lt_four h
  simp only [← BitVec.toNat_inj]
  simp
  omega

theorem statusStarted_of_reserved {w : Word} (h : w.extractLsb' 2 62 = 0#62) : statusStarted w = 0x1#64 := by
  rcases status_cases h with rfl | rfl | rfl | rfl <;> rfl

theorem statusFinished_of_reserved {w : Word} (h : w.extractLsb' 2 62 = 0#62) : statusFinished w = 0x2#64 := by
  rcases status_cases h with rfl | rfl | rfl | rfl <;> rfl

/-! The invariant from what it reads. -/

/-- A running block reads `STATUS` = BUSY alone. -/
theorem SeqInv.status_running (h : SeqInv s) (hp : s.phase ≠ .idle) : s.status = 0x1#64 := by
  have hb : busy s = true := by simpa using mt h.idle_iff.mpr hp
  have hd : done s ≠ true := fun hd => h.not_both ⟨hb, hd⟩
  unfold busy at hb
  unfold done at hd
  rcases status_cases h.reserved with e | e | e | e <;> rw [e] at hb hd ⊢ <;> simp at hb hd

/-- The invariant reads none of the fields named here. -/
theorem SeqInv.of_frame (h : SeqInv s)
    (e : t = { s with
      acc := t.acc
      faultRec := t.faultRec
      refusalMark := t.refusalMark
      mem := t.mem
      h2sMode := t.h2sMode
      h2sIn := t.h2sIn
      h2sOut := t.h2sOut
      peers := t.peers
      params := t.params
      hostQueue := t.hostQueue
      schedule := t.schedule
      observed := t.observed
      raced := t.raced
      draws := t.draws }) : SeqInv t := by
  rw [e]
  exact ⟨h.idle_iff, h.not_both, h.reserved, h.ff_range, h.in_bulk, h.in_rem, h.in_red, h.args⟩

/-- In IDLE only STATUS and FF are bound. -/
theorem seqInv_of_idle (hp : t.phase = .idle) (hb : busy t = false) (hr : t.status.extractLsb' 2 62 = 0#62)
    (hff : 1 ≤ t.ff.toNat ∧ t.ff.toNat ≤ 8) : SeqInv t where
  idle_iff := by simp [hp, hb]
  not_both := by simp [hb]
  reserved := hr
  ff_range := hff
  in_bulk := by simp [hp]
  in_rem := by simp [hp]
  in_red := by simp [hp]
  args := by simp [hp]

theorem nextPhase_eq_bulk {k : Nat} : nextPhase s k = .bulk ↔ k + 8 ≤ s.n.toNat := by
  unfold nextPhase
  split_ifs <;> simp <;> omega

theorem nextPhase_eq_rem {k : Nat} : nextPhase s k = .rem ↔ k < s.n.toNat ∧ s.n.toNat < k + 8 := by
  unfold nextPhase
  split_ifs <;> simp <;> omega

theorem nextPhase_eq_red {k : Nat} : nextPhase s k = .red ↔ s.n.toNat ≤ k := by
  unfold nextPhase
  split_ifs <;> simp <;> omega

theorem nextPhase_ne_idle {k : Nat} : nextPhase s k ≠ .idle := by
  unfold nextPhase
  split_ifs <;> simp

/-- A running block that has just entered the phase NEXTPHASE gives, no row reduced yet: after START, BULK and REM. -/
theorem seqInv_of_nextPhase (hp : t.phase = nextPhase t t.k.toNat) (hs : t.status = 0x1#64)
    (hff : 1 ≤ t.ff.toNat ∧ t.ff.toNat ≤ 8) (hk : t.k.toNat ≤ t.n.toNat)
    (h8 : t.k.toNat + 8 ≤ t.n.toNat → t.k.toNat % 8 = 0) (hrow : t.row = 0#4)
    (ha : argsWritten t = true ∧ basesAligned t ∧ t.written.cmd = true ∧ t.cmd.toNat = 0x10 + (t.ff.toNat - 1)) :
    SeqInv t where
  idle_iff := by simp [hp, nextPhase_ne_idle, busy, hs]
  not_both := by simp [done, hs]
  reserved := by rw [hs]; rfl
  ff_range := hff
  in_bulk := fun hph => by
    have hn := nextPhase_eq_bulk.mp (hp.symm.trans hph)
    exact ⟨hn, h8 hn, hrow⟩
  in_rem := fun hph => by
    obtain ⟨h1, h2⟩ := nextPhase_eq_rem.mp (hp.symm.trans hph)
    exact ⟨h1, h2, hrow⟩
  in_red := fun hph => by
    have hn := nextPhase_eq_red.mp (hp.symm.trans hph)
    exact ⟨BitVec.eq_of_toNat_eq (by omega), by rw [hrow]; exact hff.1⟩
  args := fun _ => ha

/-! Each step keeps it. -/

theorem seqInv_resetBlock (s : State) : SeqInv (resetBlock s) :=
  seqInv_of_idle (by simp) (by simp [busy]) (by simp) (by simp)

theorem seqInv_storeArg (h : SeqInv s) (hb : busy s = false) (r : WinReg) (v : Word) :
    SeqInv (storeArg r v s) :=
  seqInv_of_idle (by simpa using h.idle_iff.mpr hb) (by simpa [busy] using hb) (by simpa using h.reserved)
    (by simpa using h.ff_range)

theorem fusionOf_toNat (v : Word) : (fusionOf v).toNat = (v.extractLsb' 0 3).toNat + 1 := by
  have := (v.extractLsb' 0 3).isLt
  simp only [fusionOf, BitVec.toNat_add, BitVec.toNat_setWidth, BitVec.toNat_ofNat]
  omega

/-- The opcode and the factor of a table row (30_encoding R91). -/
theorem dotxfTable_opcode {i : Instr} {f : Nat} {v : Word} (h : (i, f, v) ∈ dotxfTable) :
    v.toNat = 0x10 + (f - 1) ∧ 1 ≤ f ∧ f ≤ 8 := by
  have hall : ∀ c ∈ dotxfTable, c.2.2.toNat = 0x10 + (c.2.1 - 1) ∧ 1 ≤ c.2.1 ∧ c.2.1 ≤ 8 := by decide
  exact hall _ h

/-- START (41_dotxf R161) enters the first phase at `K` = 0. -/
theorem seqInv_started (h : SeqInv s) {v : Word} (hf : startFault v s = none) : SeqInv (started v s) := by
  obtain ⟨hv, hargs, haligned⟩ := startFault_none_iff.mp hf
  have hop := dotxfTable_opcode (dotxf_word hv)
  rw [← fusionOf_toNat] at hop
  exact seqInv_of_nextPhase rfl (statusStarted_of_reserved h.reserved) hop.2 (Nat.zero_le _) (fun _ => rfl) rfl
    ⟨hargs, haligned, rfl, hop.1⟩

/-- BULK consumes eight elements of those it knows to remain (41_dotxf R163). -/
theorem seqInv_bulkNext (h : SeqInv s) (hp : s.phase = .bulk) : SeqInv (bulkNext s) := by
  obtain ⟨hn, h8, hrow⟩ := h.in_bulk hp
  have hrun : s.phase ≠ .idle := by simp [hp]
  have hk : (s.k + 8#64).toNat = s.k.toNat + 8 := by
    have := s.n.isLt
    simp only [BitVec.toNat_add, BitVec.toNat_ofNat]
    omega
  refine seqInv_of_nextPhase rfl (h.status_running hrun) h.ff_range ?_ (fun _ => ?_) hrow (h.args hrun)
  · simpa [hk] using hn
  · simp only [bulkNext_k, hk]
    omega

/-- REM consumes one element, and fewer than eight remained (41_dotxf R166). -/
theorem seqInv_remNext (h : SeqInv s) (hp : s.phase = .rem) : SeqInv (remNext s) := by
  obtain ⟨hn, hlast, hrow⟩ := h.in_rem hp
  have hrun : s.phase ≠ .idle := by simp [hp]
  have hk : (s.k + 1#64).toNat = s.k.toNat + 1 := by
    have := s.n.isLt
    simp only [BitVec.toNat_add, BitVec.toNat_ofNat]
    omega
  refine seqInv_of_nextPhase rfl (h.status_running hrun) h.ff_range ?_ (fun hmore => ?_) hrow (h.args hrun)
  · simpa [hk] using hn
  · simp only [remNext_k, remNext_n, hk] at hmore
    omega

/-- RED ends the command after row `FF - 1` and goes on to the next row before it (41_dotxf R171). -/
theorem seqInv_redNext (h : SeqInv s) (hp : s.phase = .red) : SeqInv (redNext s) := by
  obtain ⟨hk, hrow⟩ := h.in_red hp
  have hff := h.ff_range
  have hrun : s.phase ≠ .idle := by simp [hp]
  by_cases hlast : s.row + 1#4 = s.ff
  · have hstatus := statusFinished_of_reserved h.reserved
    exact seqInv_of_idle (by simp [hlast]) (by simp [busy, hlast, hstatus]) (by simp [hlast, hstatus]) hff
  · have hnext : (s.row + 1#4).toNat = s.row.toNat + 1 := by
      simp only [BitVec.toNat_add, BitVec.toNat_ofNat]
      omega
    have hmore : s.row.toNat + 1 ≠ s.ff.toNat := fun e => hlast (BitVec.eq_of_toNat_eq (by omega))
    have hstatus := h.status_running hrun
    exact {
      idle_iff := by simp [busy, hlast, hstatus]
      not_both := by simp [done, hlast, hstatus]
      reserved := by simp [hlast, hstatus]
      ff_range := hff
      in_bulk := by simp [hlast]
      in_rem := by simp [hlast]
      in_red := fun _ => ⟨hk, by simp only [redNext_row, redNext_ff]; omega⟩
      args := fun _ => h.args hrun }

theorem seqInv_engineStep (h : SeqInv s) (hstep : engineStep s = .next t) : SeqInv t := by
  rcases engineStep_cases hstep with ⟨-, rfl⟩ | ⟨-, _, _, _, rfl⟩ | ⟨hp, -, rfl⟩ | ⟨hp, -, rfl⟩ | ⟨hp, -, rfl⟩
  · exact h
  · exact h.of_frame rfl
  · exact seqInv_bulkNext h hp
  · exact seqInv_remNext h hp
  · exact seqInv_redNext h hp

theorem seqInv_pollWait (h : SeqInv s) : SeqInv (pollWait s) := by
  unfold pollWait
  split <;> exact h.of_frame rfl

/-- A peer's step writes nothing the invariant reads (20_memory R74). -/
theorem seqInv_peerMoves (h : SeqInv s) (hm : PeerMoves s t) : SeqInv t := by
  cases hm <;> exact h.of_frame rfl

theorem seqInv_hostAct (h : SeqInv s) {a : HostAction} (hact : hostAct a s = .next t) : SeqInv t := by
  rcases hostAct_cases hact with ⟨f, rfl⟩ | (rfl | ⟨u, -, rfl⟩) | ⟨v, -, -, hf, rfl⟩ | ⟨r, v, -, -, hb, rfl⟩ |
    ⟨r, -, -, rfl⟩ | ⟨-, rfl⟩ | ⟨p, bs, -, -, -, rfl⟩ | ⟨p, bs, -, -, -, rfl⟩ | ⟨p, n, -, -, rfl⟩ |
    ⟨m, u, i, w, -, -, rfl⟩ | ⟨-, rfl⟩ | ⟨-, hm⟩
  · exact h.of_frame rfl
  · exact h.of_frame rfl
  · exact h.of_frame rfl
  · exact seqInv_started h hf
  · exact seqInv_storeArg h hb r v
  · exact h.of_frame rfl
  · exact seqInv_pollWait h
  · exact h.of_frame rfl
  · exact h.of_frame rfl
  · exact h.of_frame rfl
  · exact h.of_frame rfl
  · exact seqInv_resetBlock s
  · exact seqInv_peerMoves h hm

/-- Settles O28: a reset ends in IDLE, and taking an interaction or a schedule entry is outside the invariant. -/
theorem sequencingInvariantKept : Obligations.SequencingInvariantKept := by
  intro s t h hstep
  rcases step_cases hstep with ⟨-, -, rfl⟩ | ⟨-, -, he⟩ | ⟨-, -, a, rest, -, ha⟩ | ⟨-, -, -, rfl⟩
  · exact seqInv_resetBlock _
  · exact seqInv_engineStep (h.of_frame rfl) he
  · exact seqInv_hostAct (h.of_frame rfl) ha
  · exact h

end Sys2Proof.Machine
end

section
/-! Elements and their bytes (20_memory R60). -/

namespace Sys2Proof.Machine

variable {m m' : Memory} {a i : Nat}

theorem load32_byte (m : Memory) (a : Nat) (hi : i < 4) :
    (load32 m a).extractLsb' (8 * i) 8 = readByte m (a + i) := by
  have h0 := (readByte m a).isLt
  have h1 := (readByte m (a + 1)).isLt
  have h2 := (readByte m (a + 2)).isLt
  apply BitVec.eq_of_toNat_eq
  simp only [load32, toNat_append_byte, BitVec.extractLsb'_toNat, Nat.shiftRight_eq_div_pow]
  interval_cases i
  · rw [Nat.add_zero a]
    omega
  all_goals omega

theorem load16_byte (m : Memory) (a : Nat) (hi : i < 2) :
    (load16 m a).extractLsb' (8 * i) 8 = readByte m (a + i) := by
  have h0 := (readByte m a).isLt
  apply BitVec.eq_of_toNat_eq
  simp only [load16, toNat_append_byte, BitVec.extractLsb'_toNat, Nat.shiftRight_eq_div_pow]
  interval_cases i
  · rw [Nat.add_zero a]
    omega
  all_goals omega

/-- A 16-bit element is read as its two bytes are. -/
theorem load16_congr (h : ∀ d < 2, readByte m (a + d) = readByte m' (a + d)) : load16 m a = load16 m' a := by
  have h0 := h 0 (by decide)
  rw [Nat.add_zero] at h0
  rw [load16, load16, h 1 (by decide), h0]

/-- Settles O42: a store inside the data space is read back whole, so byte by byte. -/
theorem memoryIsLittleEndian : Obligations.MemoryIsLittleEndian := by
  refine ⟨fun m a i hi => load32_byte m a hi, fun m a i hi => load16_byte m a hi, fun m a v hm ha => ⟨fun i hi => ?_, ?_⟩⟩
  · rw [← load32_byte _ a hi, load32_store32_same hm ha]
  · exact fun b hb => readByte_store32_out hb m v

end Sys2Proof.Machine
end

section
/-! Alignment of the engine's accesses, and of the commands the peers run (20_memory R65, R66, R74). -/

namespace Sys2Proof.Machine

variable {s t : State} {kind : AccessKind} {f : Fault}

/-- The fault of a list of accesses is that of one of them. -/
theorem firstDenied_mem {l : List (Nat × Nat)} (h : firstDenied s kind l = some f) :
    ∃ c ∈ l, f = .mem kind c.1 c.2 := by
  induction l with
  | nil => simp [firstDenied] at h
  | cons c rest ih =>
    rw [firstDenied] at h
    split at h
    · obtain ⟨d, hd, rfl⟩ := ih h
      exact ⟨d, List.mem_cons_of_mem c hd, rfl⟩
    · exact ⟨c, List.mem_cons_self, (Option.some.inj h).symm⟩

/-- A fault that an engine step records is `F_MEM` for one of the accesses of BULK, REM or RED. -/
theorem engineStep_fault_access (hstep : engineStep s = .next t) (hs : s.faultRec = none) (ht : t.faultRec = some f) :
    s.phase ≠ .idle ∧
      ∃ kind, ∃ c ∈ bulkReads s ++ remReads s ++ [(addrSum s s.row.toNat, 4)], f = .mem kind c.1 c.2 := by
  have denied : ∀ {kind l} {u : State}, (match firstDenied s kind l with
        | some f => raise f s
        | none => .next u) = .next t → u.faultRec = none → ∃ c ∈ l, f = .mem kind c.1 c.2 := by
    intro kind l u h hu
    split at h
    case h_1 g hg =>
      obtain rfl := Host.Outcome.next.inj h
      obtain rfl : g = f := Option.some.inj ht
      exact firstDenied_mem hg
    case h_2 =>
      obtain rfl := Host.Outcome.next.inj h
      simp [hu] at ht
  unfold engineStep at hstep
  split at hstep
  case h_1 hp =>
    obtain rfl := Host.Outcome.next.inj hstep
    simp [hs] at ht
  case h_2 hp =>
    obtain ⟨c, hc, hf⟩ := denied hstep hs
    exact ⟨by simp [hp], _, c, by simp [hc], hf⟩
  case h_3 hp =>
    obtain ⟨c, hc, hf⟩ := denied hstep hs
    exact ⟨by simp [hp], _, c, by simp [hc], hf⟩
  case h_4 hp =>
    obtain ⟨c, hc, hf⟩ := denied hstep hs
    exact ⟨by simp [hp], _, c, by simp [List.mem_singleton.mp hc], hf⟩

theorem addrX_aligned (h : basesAligned s) (k : Nat) : addrX s k % 4 = 0 := by
  have hx := h.1
  unfold addrX
  omega

theorem addrY_aligned (h : basesAligned s) (i k : Nat) : addrY s i k % 2 = 0 := by
  have hy := h.2.1
  unfold addrY
  omega

theorem addrSum_aligned (h : basesAligned s) (i : Nat) : addrSum s i % 4 = 0 := by
  have hsum := h.2.2
  unfold addrSum
  omega

/-- Each read is aligned to its elements: 32 and 4 bytes are singles, 16 and 2 bytes are codes (20_memory R66). -/
theorem engineReads_aligned (h : basesAligned s) {c : Nat × Nat} (hc : c ∈ bulkReads s ++ remReads s) :
    c.1 % (if c.2 = 32 ∨ c.2 = 4 then 4 else 2) = 0 := by
  simp only [bulkReads, remReads, List.mem_append, List.mem_cons, List.mem_map] at hc
  rcases hc with (rfl | ⟨i, -, rfl⟩) | (rfl | ⟨i, -, rfl⟩)
  · exact addrX_aligned h _
  · exact addrY_aligned h i _
  · exact addrX_aligned h _
  · exact addrY_aligned h i _

theorem SeqInv.basesAligned (h : SeqInv s) (hp : s.phase ≠ .idle) : basesAligned s := (h.args hp).2.1

/-- Settles O22: START checks the bases, and every address is a base plus a multiple of the element's size. -/
theorem elementAccessesAligned : Obligations.ElementAccessesAligned := by
  refine ⟨fun v s t _ hb hact ht => ?_, fun s h hp => ?_, fun s t kind a n h hs hstep ht => ?_⟩
  · rw [hostAct_wreg_cmd] at hact
    rcases startCommand_cases hact with ⟨hb', -⟩ | ⟨-, f, -, rfl⟩ | ⟨-, hf, rfl⟩
    · simp [hb] at hb'
    · exact absurd ht (by simpa [busy] using hb)
    · exact (startFault_none_iff.mp hf).2.2
  · have hal := h.basesAligned hp
    exact ⟨fun c hc => engineReads_aligned hal hc, addrSum_aligned hal _,
      fun i k => ⟨addrX_aligned hal k, addrY_aligned hal i k⟩⟩
  · obtain ⟨hp, kind', c, hc, hf⟩ := engineStep_fault_access hstep hs ht
    have hal := h.basesAligned hp
    obtain ⟨-, rfl, rfl⟩ := Fault.mem.inj hf
    rcases List.mem_append.mp hc with hread | hwrite
    · exact engineReads_aligned hal hread
    · obtain rfl := List.mem_singleton.mp hwrite
      exact addrSum_aligned hal _

/-! What START, RED and reset of a peer do (20_memory R74). -/

variable {base : Word} {fac : BitVec 3} {i : Nat} {p : Peer}

theorem peerStarts_misaligned (h : base.toNat % 4 ≠ 0) : peerStarts base fac s = .next s := by
  simp [peerStarts, h]

theorem peerStarts_idle (h : base.toNat % 4 = 0) (hb : busy s = false) :
    peerStarts base fac s = .next (addPeer ⟨base, fac, 0#3⟩ s) := by
  simp [peerStarts, h, hb]

theorem peerStarts_busy (h : base.toNat % 4 = 0) (hb : busy s = true) :
    peerStarts base fac s = .next (raceTouch base.toNat (4 * (fac.toNat + 1)) (addPeer ⟨base, fac, 0#3⟩ s)) := by
  simp [peerStarts, h, hb]

theorem peerReds_unlisted (hp : s.peers[i]? = none) : peerReds i s = .next (markRefused s) := by
  simp [peerReds, hp]

theorem peerReds_denied (hp : s.peers[i]? = some p) (ha : admits s .write (peerAddr p p.row.toNat) 4 = false) :
    peerReds i s = .next s := by
  simp [peerReds, hp, ha]

theorem peerReds_last (hp : s.peers[i]? = some p) (ha : admits s .write (peerAddr p p.row.toNat) 4 = true)
    (hlast : p.row = p.f) : peerReds i s = .next (endPeer i p (peerStore p s)) := by
  have ha' : admits s .write (peerAddr p p.f.toNat) 4 = true := hlast ▸ ha
  simp [peerReds, hp, hlast, ha']

theorem peerReds_row (hp : s.peers[i]? = some p) (ha : admits s .write (peerAddr p p.row.toNat) 4 = true)
    (hmore : p.row ≠ p.f) : peerReds i s = .next (advancePeer i p (peerStore p s)) := by
  simp [peerReds, hp, ha, hmore]

theorem peerResets_listed (hp : s.peers[i]? = some p) : peerResets i s = .next (endPeer i p s) := by
  simp [peerResets, hp]

/-! The invariant of the peers' commands. -/

theorem peersInv_of_peers_eq (h : peersInv s) (e : t.peers = s.peers) : peersInv t := by
  intro p hp
  exact h p (e ▸ hp)

theorem peersInv_addPeer (h : peersInv s) (hbase : base.toNat % 4 = 0) : peersInv (addPeer ⟨base, fac, 0#3⟩ s) := by
  intro p hp
  rcases List.mem_append.mp hp with hold | hnew
  · exact h p hold
  · obtain rfl := List.mem_singleton.mp hnew
    exact ⟨hbase, Nat.zero_le _⟩

theorem peersInv_endPeer (h : peersInv s) : peersInv (endPeer i p s) :=
  fun q hq => h q (List.mem_of_mem_eraseIdx hq)

/-- A row before the last leaves a row to write. -/
theorem peersInv_advancePeer (h : peersInv s) (hp : s.peers[i]? = some p) (hmore : p.row ≠ p.f) :
    peersInv (advancePeer i p s) := by
  obtain ⟨hbase, hrow⟩ := h p (List.mem_of_getElem? hp)
  intro q hq
  rcases List.mem_or_eq_of_mem_set hq with hold | rfl
  · exact h q hold
  · have hlt : p.row.toNat ≠ p.f.toNat := fun e => hmore (BitVec.eq_of_toNat_eq e)
    have hf := p.f.isLt
    refine ⟨hbase, ?_⟩
    simp only [BitVec.toNat_add, BitVec.toNat_ofNat]
    omega

theorem peersInv_peerStarts (h : peersInv s) (hact : peerStarts base fac s = .next t) : peersInv t := by
  by_cases hbase : base.toNat % 4 = 0
  · cases hb : busy s with
    | true =>
      obtain rfl := Host.Outcome.next.inj ((peerStarts_busy hbase hb).symm.trans hact)
      exact peersInv_of_peers_eq (peersInv_addPeer h hbase) (raceTouch_peers _ _ _)
    | false =>
      obtain rfl := Host.Outcome.next.inj ((peerStarts_idle hbase hb).symm.trans hact)
      exact peersInv_addPeer h hbase
  · obtain rfl := Host.Outcome.next.inj ((peerStarts_misaligned hbase).symm.trans hact)
    exact h

theorem peersInv_peerReds (h : peersInv s) (hact : peerReds i s = .next t) : peersInv t := by
  cases hp : s.peers[i]? with
  | none =>
    obtain rfl := Host.Outcome.next.inj ((peerReds_unlisted hp).symm.trans hact)
    exact h
  | some p =>
    have hstored : peersInv (peerStore p s) := h
    cases ha : admits s .write (peerAddr p p.row.toNat) 4 with
    | false =>
      obtain rfl := Host.Outcome.next.inj ((peerReds_denied hp ha).symm.trans hact)
      exact h
    | true =>
      by_cases hlast : p.row = p.f
      · obtain rfl := Host.Outcome.next.inj ((peerReds_last hp ha hlast).symm.trans hact)
        exact peersInv_endPeer hstored
      · obtain rfl := Host.Outcome.next.inj ((peerReds_row hp ha hlast).symm.trans hact)
        exact peersInv_advancePeer hstored hp hlast

theorem peersInv_peerResets (h : peersInv s) (hact : peerResets i s = .next t) : peersInv t := by
  rcases peerResets_cases hact with rfl | ⟨p, -, rfl⟩
  · exact h
  · exact peersInv_endPeer h

theorem pollWait_peers (s : State) : (pollWait s).peers = s.peers := by
  unfold pollWait
  split <;> rfl

theorem peersInv_hostAct (h : peersInv s) {a : HostAction} (hact : hostAct a s = .next t) : peersInv t := by
  rcases hostAct_cases hact with ⟨f, rfl⟩ | (rfl | ⟨u, -, rfl⟩) | ⟨v, -, -, -, rfl⟩ | ⟨r, v, -, -, -, rfl⟩ |
    ⟨r, -, -, rfl⟩ | ⟨-, rfl⟩ | ⟨p, bs, -, -, -, rfl⟩ | ⟨p, bs, -, -, -, rfl⟩ | ⟨p, n, -, -, rfl⟩ |
    ⟨m, u, i, w, -, -, rfl⟩ | ⟨-, rfl⟩ | ⟨⟨b, f, rfl⟩ | ⟨i, rfl⟩ | ⟨i, rfl⟩, -⟩
  · exact h
  · exact h
  · exact h
  · exact h
  · exact peersInv_of_peers_eq h (storeArg_peers ..)
  · exact h
  · exact peersInv_of_peers_eq h (pollWait_peers s)
  · exact h
  · exact h
  · exact h
  · exact h
  · exact h
  · exact peersInv_peerStarts h hact
  · exact peersInv_peerReds h hact
  · exact peersInv_peerResets h hact

/-- Settles O50: only a peer's step changes the list, and RED goes on only before its last row. -/
theorem instanceInvariantKept : Obligations.InstanceInvariantKept := by
  intro s t h hstep
  rcases step_cases hstep with ⟨-, -, rfl⟩ | ⟨-, -, he⟩ | ⟨-, -, a, rest, -, ha⟩ | ⟨-, -, -, rfl⟩
  · exact h
  · exact peersInv_of_peers_eq h (by rw [engineStep_frame he]; rfl)
  · exact peersInv_hostAct (s := popHost (popSchedule s)) h ha
  · exact h

end Sys2Proof.Machine
end

section
/-! Host memory accesses (20_memory R72 to R74, 70 R236): the step each one is, and where it is ordinary. -/

namespace Sys2Proof.Machine

variable {s : State} {p : Peer} {bs : List Byte} {a b n len draw d i : Nat}

theorem hostAct_memWrite_idle (ha : a + bs.length ≤ Config.memSize) (hb : busy s = false) :
    hostAct (.memWrite a bs) s = .next (plainStore a bs s) := by
  rw [hostAct, hostStore, if_neg (by omega), if_neg (by simp [hb])]

theorem hostAct_memWrite_busy (ha : a + bs.length ≤ Config.memSize) (hb : busy s = true) :
    hostAct (.memWrite a bs) s = .next (raceStore a bs s) := by
  rw [hostAct, hostStore, if_neg (by omega), if_pos hb]

theorem hostAct_memRead (ha : a + n ≤ Config.memSize) (s : State) :
    hostAct (.memRead a n) s = .next (loaded a n s) := by
  rw [hostAct, hostLoad, if_neg (by omega)]

/-- The byte `b` is in no `sum` element of a command a peer is running (20_memory R74). -/
abbrev apartFromPeers (s : State) (b : Nat) : Prop :=
  ∀ p ∈ s.peers, ∀ i < p.f.toNat + 1, b < peerAddr p i ∨ peerAddr p i + 4 ≤ b

theorem inPeerSums_of_apart (h : apartFromPeers s b) : inPeerSums s b = false := by
  by_contra hc
  obtain ⟨p, hp, h1, h2⟩ := inPeerSums_iff.mp (by simpa using hc)
  have happ := h p hp ((b - p.sumBase.toNat) / 4) (by omega)
  unfold peerAddr at happ
  omega

theorem touchesPeer_of_apart (h : ∀ d < len, apartFromPeers s (a + d)) (hp : p ∈ s.peers) (hi : i < p.f.toNat + 1) :
    touchesPeer p a len i = false := by
  by_contra hc
  obtain ⟨hlen, h1, h2⟩ := touchesPeer_iff.mp (by simpa using hc)
  have happ := h (p.sumBase.toNat + 4 * i - a) (by omega) p hp i hi
  unfold peerAddr at happ
  omega

theorem plainStore_mem_of_apart (h : ∀ d < bs.length, apartFromPeers s (a + d)) :
    (plainStore a bs s).mem = writeBytes s.mem a bs :=
  drawPeerSums_none _ _ _ _ _ fun _ hp _ hr => touchesPeer_of_apart h hp hr

theorem inSums_iff : inSums s b = true ↔ ∃ i < s.ff.toNat, addrSum s i ≤ b ∧ b < addrSum s i + 4 := by
  simp [inSums, inSum]

theorem hostByte_ordinary (hown : busy s = true → inSums s b = false) (hpeer : inPeerSums s b = false) :
    hostByte s b draw = readByte s.mem b := by
  refine if_neg ?_
  simpa [hpeer] using hown

theorem hostByte_ownSum (hb : busy s = true) (h : inSums s b = true) :
    hostByte s b draw = (Config.raceDraw draw).setWidth 8 :=
  if_pos (by simp [hb, h])

theorem hostByte_peerSum (h : inPeerSums s b = true) : hostByte s b draw = (Config.raceDraw draw).setWidth 8 :=
  if_pos (by simp [h])

theorem loaded_observed_ordinary (hown : busy s = true → ∀ d < n, inSums s (a + d) = false)
    (hpeer : ∀ d < n, inPeerSums s (a + d) = false) :
    (loaded a n s).observed = some (.memory a ((List.range n).map fun d => readByte s.mem (a + d))) := by
  refine congrArg (fun bytes => some (Observation.memory a bytes)) (List.map_congr_left fun d hd => ?_)
  have hdn := List.mem_range.mp hd
  exact hostByte_ordinary (fun hb => hown hb d hdn) (hpeer d hdn)

/-- A host read observes one byte for each address, each as `hostByte` gives it. -/
theorem hostAct_memRead_bytes (ha : a + n ≤ Config.memSize) (s : State) :
    ∃ t bytes, hostAct (.memRead a n) s = .next t ∧ t.observed = some (.memory a bytes) ∧ bytes.length = n ∧
      ∀ d < n, bytes[d]? = some (hostByte s (a + d) (s.draws + d)) :=
  ⟨_, _, hostAct_memRead ha s, rfl, by simp, fun d hd => by simp [hd]⟩

/-- Settles O43: away from the peers' sums the write draws nothing and the read finds memory's bytes. -/
theorem hostMemoryAccess : Obligations.HostMemoryAccess := by
  intro s hm hb
  constructor
  · intro a bs ha happ
    have hmem := plainStore_mem_of_apart happ
    refine ⟨plainStore a bs s, hostAct_memWrite_idle ha hb, fun d hd => ?_, fun b hout => ?_, rfl⟩
    · rw [hmem, readByte_writeBytes_in hm ha hd]
    · rw [hmem, readByte_writeBytes_out hout]
  · intro a n ha happ
    refine ⟨loaded a n s, hostAct_memRead ha s, ?_, rfl⟩
    exact loaded_observed_ordinary (by simp [hb]) fun d hd => inPeerSums_of_apart (happ d hd)

end Sys2Proof.Machine
end

section
/-! A race with the running command (20_memory R73): what it leaves of the command, and what it makes a free value. -/

namespace Sys2Proof.Machine

variable {s t : State} {bs : List Byte} {a b n len draw d i j k : Nat}

theorem SeqInv.running_of_busy (h : SeqInv s) (hb : busy s = true) : s.phase ≠ .idle := by
  intro hp
  simp [h.idle_iff.mp hp] at hb

theorem SeqInv.k_le_n (h : SeqInv s) (hp : s.phase ≠ .idle) : s.k.toNat ≤ s.n.toNat := by
  cases hph : s.phase with
  | idle => exact absurd hph hp
  | bulk =>
    obtain ⟨hk, -, -⟩ := h.in_bulk hph
    omega
  | rem => exact (h.in_rem hph).1.le
  | red => rw [(h.in_red hph).1]

theorem SeqInv.row_lt_ff (h : SeqInv s) (hp : s.phase ≠ .idle) : s.row.toNat < s.ff.toNat := by
  obtain ⟨hff, -⟩ := h.ff_range
  cases hph : s.phase with
  | idle => exact absurd hph hp
  | bulk =>
    obtain ⟨-, -, hrow⟩ := h.in_bulk hph
    rw [hrow]
    exact hff
  | rem =>
    obtain ⟨-, -, hrow⟩ := h.in_rem hph
    rw [hrow]
    exact hff
  | red => exact (h.in_red hph).2

/-- The byte `b` belongs to `x[k]` or to element `k` of row `i`. -/
abbrev inElement (s : State) (i k b : Nat) : Prop :=
  addrX s k ≤ b ∧ b < addrX s k + 4 ∨ addrY s i k ≤ b ∧ b < addrY s i k + 2

/-- The byte `b` is in no `x`, row or `sum` element of the running command (20_memory R73). -/
structure ApartFromCommand (s : State) (b : Nat) : Prop where
  x : ∀ k < s.n.toNat, b < addrX s k ∨ addrX s k + 4 ≤ b
  y : ∀ i < s.ff.toNat, ∀ k < s.n.toNat, b < addrY s i k ∨ addrY s i k + 2 ≤ b
  sum : ∀ i < s.ff.toNat, b < addrSum s i ∨ addrSum s i + 4 ≤ b

theorem ApartFromCommand.not_inElement (h : ApartFromCommand s b) (hi : i < s.ff.toNat) (hk : k < s.n.toNat) :
    ¬inElement s i k b := by
  have hx := h.x k hk
  have hy := h.y i hi k hk
  unfold inElement
  omega

/-- A byte spoils a row by belonging to an element the row has consumed. -/
theorem consumed_of_byteSpoilsRow (h : byteSpoilsRow s i b = true) : ∃ k < s.k.toNat, inElement s i k b := by
  simp only [byteSpoilsRow, Bool.or_eq_true, Option.isSome_iff_exists] at h
  rcases h with ⟨k, hk⟩ | ⟨k, hk⟩
  · obtain ⟨h1, h2, h3⟩ := of_elementAt_eq_some (by decide) hk
    exact ⟨k, h3, .inl ⟨h1, h2⟩⟩
  · obtain ⟨h1, h2, h3⟩ := of_elementAt_eq_some (by decide) hk
    refine ⟨k, h3, .inr ?_⟩
    unfold addrY at *
    omega

/-- A spoilt `sum` element is touched, or its row, already reduced, has consumed a raced element. -/
theorem touched_or_consumed_of_sumSpoilt (h : sumSpoilt s a len i = true) :
    i < s.ff.toNat ∧ ∃ d < len, addrSum s i ≤ a + d ∧ a + d < addrSum s i + 4 ∨
      i < s.row.toNat ∧ ∃ k < s.k.toNat, inElement s i k (a + d) := by
  simp only [sumSpoilt, Bool.and_eq_true, decide_eq_true_eq, List.any_eq_true, List.mem_range, Bool.or_eq_true,
    inSum] at h
  obtain ⟨hi, d, hd, htouch | ⟨hrow, hspoil⟩⟩ := h
  · exact ⟨hi, d, hd, .inl htouch⟩
  · exact ⟨hi, d, hd, .inr ⟨hrow, consumed_of_byteSpoilsRow hspoil⟩⟩

theorem laneSpoilt_of_apart (hkn : s.k.toNat ≤ s.n.toNat) (h : ∀ d < len, ApartFromCommand s (a + d)) :
    laneSpoilt s a len i j = false := by
  by_contra hc
  obtain ⟨hi, -, d, hd, k, hk, -, hel⟩ := consumed_of_laneSpoilt (by simpa using hc)
  exact (h d hd).not_inElement hi (by omega) hel

theorem sumSpoilt_of_apart (hkn : s.k.toNat ≤ s.n.toNat) (h : ∀ d < len, ApartFromCommand s (a + d)) :
    sumSpoilt s a len i = false := by
  by_contra hc
  obtain ⟨hi, d, hd, ⟨h1, h2⟩ | ⟨-, k, hk, hel⟩⟩ := touched_or_consumed_of_sumSpoilt (by simpa using hc)
  · have hsum := (h d hd).sum i hi
    omega
  · exact (h d hd).not_inElement hi (by omega) hel

theorem raceTouch_acc_of_apart (hkn : s.k.toNat ≤ s.n.toNat) (h : ∀ d < len, ApartFromCommand s (a + d)) :
    (raceTouch a len s).acc = s.acc :=
  Vector.ext fun i hi => Vector.ext fun j hj =>
    raceTouch_acc_kept (i := ⟨i, hi⟩) (j := ⟨j, hj⟩) (laneSpoilt_of_apart hkn h)

theorem raceTouch_mem_of_apart (hkn : s.k.toNat ≤ s.n.toNat) (h : ∀ d < len, ApartFromCommand s (a + d)) :
    (raceTouch a len s).mem = s.mem :=
  drawElements_none _ _ _ _ _ _ fun _ _ _ => sumSpoilt_of_apart hkn h

theorem mem_raceTouch_raced : b ∈ (raceTouch a len s).raced ↔ (∃ d < len, a + d = b) ∨ b ∈ s.raced := by
  simp

/-- From then on an access that shares a byte with the raced one is raced. -/
theorem racedIn_raceTouch_of_shared (hd : d < len) (h1 : b ≤ a + d) (h2 : a + d < b + n) :
    racedIn (raceTouch a len s) b n = true :=
  racedIn_iff.mpr ⟨a + d, h1, h2, .inl (mem_raceTouch_raced.mpr (.inl ⟨d, hd, rfl⟩))⟩

theorem racedIn_raceTouch_of_apart (h : ∀ d < len, a + d < b ∨ b + n ≤ a + d) :
    racedIn (raceTouch a len s) b n = racedIn s b n := by
  rw [Bool.eq_iff_iff, racedIn_iff, racedIn_iff]
  refine exists_congr fun c => and_congr_right fun h1 => and_congr_right fun h2 => or_congr_left ?_
  rw [mem_raceTouch_raced, or_iff_right]
  rintro ⟨d, hd, rfl⟩
  have happ := h d hd
  omega

/-- An element none of whose bytes is written lies outside the bytes written. -/
theorem outside_of_apart (h : ∀ d < len, a + d < b ∨ b + n ≤ a + d) (hd : d < n) : b + d < a ∨ a + len ≤ b + d := by
  by_contra hc
  have happ := h (b + d - a) (by omega)
  omega

theorem readX_raced (h : racedIn s (addrX s k) 4 = true) : readX s draw k = Config.raceDraw draw :=
  if_pos h

theorem readY_raced (h : racedIn s (addrY s i k) 2 = true) :
    readY s draw i k = (Config.raceDraw draw).setWidth 16 :=
  if_pos h

theorem readX_raceStore_of_apart (hmem : (raceStore a bs s).mem = writeBytes s.mem a bs)
    (h : ∀ d < bs.length, a + d < addrX s k ∨ addrX s k + 4 ≤ a + d) :
    readX (raceStore a bs s) draw k = readX s draw k := by
  have hraced : racedIn (raceStore a bs s) (addrX s k) 4 = racedIn s (addrX s k) 4 := racedIn_raceTouch_of_apart h
  have hload : load32 (writeBytes s.mem a bs) (addrX s k) = load32 s.mem (addrX s k) :=
    load32_congr fun d hd => readByte_writeBytes_out (outside_of_apart h hd) s.mem
  rw [readX, readX, show addrX (raceStore a bs s) k = addrX s k from rfl, hraced, hmem, hload]

theorem readY_raceStore_of_apart (hmem : (raceStore a bs s).mem = writeBytes s.mem a bs)
    (h : ∀ d < bs.length, a + d < addrY s i k ∨ addrY s i k + 2 ≤ a + d) :
    readY (raceStore a bs s) draw i k = readY s draw i k := by
  have hraced : racedIn (raceStore a bs s) (addrY s i k) 2 = racedIn s (addrY s i k) 2 := racedIn_raceTouch_of_apart h
  have hload : load16 (writeBytes s.mem a bs) (addrY s i k) = load16 s.mem (addrY s i k) :=
    load16_congr fun d hd => readByte_writeBytes_out (outside_of_apart h hd) s.mem
  rw [readY, readY, show addrY (raceStore a bs s) i k = addrY s i k from rfl, hraced, hmem, hload]

theorem raceStore_acc_of_apart (hkn : s.k.toNat ≤ s.n.toNat) (h : ∀ d < bs.length, ApartFromCommand s (a + d)) :
    (raceStore a bs s).acc = s.acc :=
  raceTouch_acc_of_apart (s := plainStore a bs s) hkn fun d hd => ⟨(h d hd).x, (h d hd).y, (h d hd).sum⟩

theorem raceStore_mem_of_apart (hkn : s.k.toNat ≤ s.n.toNat) (h : ∀ d < bs.length, ApartFromCommand s (a + d))
    (hpeers : ∀ d < bs.length, apartFromPeers s (a + d)) : (raceStore a bs s).mem = writeBytes s.mem a bs := by
  have htouch : (raceStore a bs s).mem = (plainStore a bs s).mem :=
    raceTouch_mem_of_apart (s := plainStore a bs s) hkn fun d hd => ⟨(h d hd).x, (h d hd).y, (h d hd).sum⟩
  rw [htouch, plainStore_mem_of_apart hpeers]

/-- Settles O44: such a write spoils no lane and no `sum` element, and shares no byte with a later engine read. -/
theorem hostAccessElsewhereIsOrdinary : Obligations.HostAccessElsewhereIsOrdinary := by
  intro s hinv hb
  have hkn := hinv.k_le_n (hinv.running_of_busy hb)
  constructor
  · intro a bs ha happ
    have hcmd : ∀ d < bs.length, ApartFromCommand s (a + d) := fun d hd =>
      have ⟨hx, hy, hsum, _⟩ := happ d hd
      ⟨hx, hy, hsum⟩
    have hpeers : ∀ d < bs.length, apartFromPeers s (a + d) := fun d hd =>
      have ⟨_, _, _, hpeer⟩ := happ d hd
      hpeer
    have hmem := raceStore_mem_of_apart hkn hcmd hpeers
    have hacc := raceStore_acc_of_apart hkn hcmd
    refine ⟨raceStore a bs s, hostAct_memWrite_busy ha hb, hmem, hacc,
      fun draw k hk => readX_raceStore_of_apart hmem fun d hd => (hcmd d hd).x k hk,
      fun draw i k hi hk => readY_raceStore_of_apart hmem fun d hd => (hcmd d hd).y i hi k hk, ?_⟩
    rw [← hacc]
    rfl
  · intro a n ha happ
    refine ⟨loaded a n s, hostAct_memRead ha s, loaded_observed_ordinary (fun _ d hd => ?_) fun d hd => ?_, rfl⟩
    · by_contra hc
      obtain ⟨i, hi, h1, h2⟩ := inSums_iff.mp (by simpa using hc)
      have hsum := (happ d hd).1 i hi
      omega
    · exact inPeerSums_of_apart (happ d hd).2

theorem admits_in_space {kind : AccessKind} (h : admits s kind a n = true) : a + n ≤ Config.memSize := by
  simp only [admits, Bool.and_eq_true, decide_eq_true_eq] at h
  exact h.1

/-- RED over a raced `sum` element leaves a free value there and goes on (41_dotxf R171). -/
theorem engineStep_red_raced (hm : memInv s) (hp : s.phase = .red)
    (ha : admits s .write (addrSum s s.row.toNat) 4 = true) (hr : racedIn s (addrSum s s.row.toNat) 4 = true) :
    ∃ t draw, engineStep s = .next t ∧ t.row = s.row + 1#4 ∧
      load32 t.mem (addrSum s s.row.toNat) = Config.raceDraw draw := by
  have hstep : engineStep s = .next (redNext s) := by simp [engineStep, hp, engineRed, firstDenied, ha]
  have hvalue : redValue s = Config.raceDraw (s.draws + 7) := if_pos hr
  refine ⟨redNext s, s.draws + 7, hstep, rfl, ?_⟩
  rw [← hvalue]
  exact load32_store32_same hm (admits_in_space ha) _

theorem plainStore_wf (hm : memInv s) : memInv (plainStore a bs s) :=
  drawPeerSums_wf _ _ _ _ (writeBytes_wf hm a bs)

/-- Settles O45: the raced bytes make later reads draws, and spoil each lane and each `sum` element made of them. -/
theorem racesAreDraws : Obligations.RacesAreDraws := by
  intro s hinv hm hb
  have hrow := hinv.row_lt_ff (hinv.running_of_busy hb)
  have hff := hinv.ff_range
  refine ⟨fun a bs ha => ⟨raceStore a bs s, hostAct_memWrite_busy ha hb, fun d hd => ⟨fun draw k h1 h2 => ?_,
      fun draw i k h1 h2 => ?_, fun i k hk hlow hi hel j hj => ?_, fun i hlow k hk hspace hel => ?_,
      fun i hi hspace h1 h2 => ?_⟩⟩,
    fun b hmem hp ha h1 h2 => ?_, fun a n ha => ?_⟩
  · exact readX_raced (racedIn_raceTouch_of_shared hd h1 h2)
  · exact readY_raced (racedIn_raceTouch_of_shared hd h1 h2)
  · have hspoilt : laneSpoilt (plainStore a bs s) a bs.length i j = true := by
      rw [hj]
      exact laneSpoilt_of_consumed hd hk hlow hi hel
    exact ⟨_, raceTouch_acc_spoilt hspoilt⟩
  · have hspoilt : sumSpoilt (plainStore a bs s) a bs.length i = true :=
      sumSpoilt_of_consumed hd hk hlow (hlow.trans hrow) hel
    exact ⟨_, raceTouch_sum_spoilt (plainStore_wf hm) (by omega) hspoilt hspace⟩
  · have hspoilt : sumSpoilt (plainStore a bs s) a bs.length i = true := sumSpoilt_of_touched hd hi h1 h2
    exact ⟨_, raceTouch_sum_spoilt (plainStore_wf hm) (by omega) hspoilt hspace⟩
  · exact engineStep_red_raced hm hp ha (racedIn_iff.mpr ⟨b, h1, h2, .inl hmem⟩)
  · obtain ⟨t, bytes, hact, hobs, hlen, hbytes⟩ := hostAct_memRead_bytes ha s
    refine ⟨t, bytes, hact, hobs, hlen, fun d hd i hi h1 h2 => ⟨s.draws + d, ?_⟩⟩
    rw [hbytes d hd, hostByte_ownSum hb (inSums_iff.mpr ⟨i, hi, h1, h2⟩)]

end Sys2Proof.Machine
end

section
/-! Peers on the same memory (20_memory R74): what their running commands race, and what their steps do here. -/

namespace Sys2Proof.Machine

variable {s : State} {p : Peer} {bs : List Byte} {a x len i d : Nat}

/-- A `sum` element of a peer's command that a host write touches holds a free value after it. -/
theorem plainStore_peerSum_hit (hm : memInv s) (hpeers : peersInv s) (hp : p ∈ s.peers) (hi : i < p.f.toNat + 1)
    (ht : touchesPeer p a bs.length i = true) (hspace : peerAddr p i + 4 ≤ Config.memSize) :
    ∃ draw, load32 (plainStore a bs s).mem (peerAddr p i) = Config.raceDraw draw :=
  load32_drawPeerSums_hit (writeBytes_wf hm a bs) (fun q hq => (hpeers q hq).1) hp hi ht hspace

/-- A race leaves an aligned element that holds a free value one. -/
theorem raceTouch_keeps_draw (hm : memInv s) (hbase : s.sumBase.toNat % 4 = 0) (hx : x % 4 = 0)
    (hspace : x + 4 ≤ Config.memSize) (h : ∃ draw, load32 s.mem x = Config.raceDraw draw) :
    ∃ draw, load32 (raceTouch a len s).mem x = Config.raceDraw draw := by
  rcases load32_drawElements (hit := sumSpoilt s a len) (draw := s.draws + 64) (rows := 8) (i := 0) hm hbase hx
    hspace with hkept | hdrawn
  · rw [raceTouch_mem, drawSums, hkept]
    exact h
  · exact hdrawn

theorem hostAct_memWrite_peerSum (hinv : SeqInv s) (hm : memInv s) (hpeers : peersInv s) (hp : p ∈ s.peers)
    (ha : a + bs.length ≤ Config.memSize) (hi : i < p.f.toNat + 1) (ht : touchesPeer p a bs.length i = true)
    (hspace : peerAddr p i + 4 ≤ Config.memSize) :
    ∃ t draw, hostAct (.memWrite a bs) s = .next t ∧ load32 t.mem (peerAddr p i) = Config.raceDraw draw := by
  have hplain := plainStore_peerSum_hit hm hpeers hp hi ht hspace
  cases hb : busy s with
  | false =>
    obtain ⟨draw, hdraw⟩ := hplain
    exact ⟨_, draw, hostAct_memWrite_idle ha hb, hdraw⟩
  | true =>
    have hbase := (hinv.basesAligned (hinv.running_of_busy hb)).2.2
    have hx : peerAddr p i % 4 = 0 := by
      have hal := (hpeers p hp).1
      unfold peerAddr
      omega
    obtain ⟨draw, hdraw⟩ := raceTouch_keeps_draw (plainStore_wf hm) hbase hx hspace hplain
    exact ⟨_, draw, hostAct_memWrite_busy ha hb, hdraw⟩

/-- Settles O48: a byte in the `sum` of a running command makes every access with it a raced one. -/
theorem overlapWithRunningInstanceDraws : Obligations.OverlapWithRunningInstanceDraws := by
  intro s hinv hm hpeers p hp b hlow hhigh
  have hsum : inPeerSums s b = true := inPeerSums_iff.mpr ⟨p, hp, hlow, hhigh⟩
  refine ⟨fun draw k h1 h2 => ?_, fun draw i k h1 h2 => ?_, fun hred ha h1 h2 => ?_, fun a n ha h1 h2 => ?_,
    fun a bs i ha h1 h2 h3 h4 hspace => ?_⟩
  · exact readX_raced (racedIn_iff.mpr ⟨b, h1, h2, .inr hsum⟩)
  · exact readY_raced (racedIn_iff.mpr ⟨b, h1, h2, .inr hsum⟩)
  · exact engineStep_red_raced hm hred ha (racedIn_iff.mpr ⟨b, h1, h2, .inr hsum⟩)
  · obtain ⟨t, bytes, hact, hobs, hlen, hbytes⟩ := hostAct_memRead_bytes ha s
    refine ⟨t, bytes, s.draws + (b - a), hact, hobs, hlen, ?_⟩
    rw [hbytes (b - a) (by omega), Nat.add_sub_cancel' h1, hostByte_peerSum hsum]
  · exact hostAct_memWrite_peerSum hinv hm hpeers hp ha (by omega)
      (touchesPeer_iff.mpr ⟨by omega, by omega, by omega⟩) hspace

theorem mem_peerBytes (hd : d < 4 * (p.f.toNat + 1)) : p.sumBase.toNat + d ∈ peerBytes p :=
  List.mem_map.mpr ⟨d, List.mem_range.mpr hd, rfl⟩

theorem mem_endPeer_raced (hd : d < 4 * (p.f.toNat + 1)) (i : Nat) (s : State) :
    p.sumBase.toNat + d ∈ (endPeer i p s).raced :=
  List.mem_append_left _ (mem_peerBytes hd)

/-- Settles O49: START races the whole `sum` of its command; RED stores one free value and goes on or ends; a command
that ends leaves its `sum` raced. -/
theorem otherInstanceSteps : Obligations.OtherInstanceSteps := by
  refine ⟨fun s base f hal hb => peerStarts_idle hal hb, fun s base f hal hinv hm hb => ?_,
    fun s i p hm hp ha => ?_,
    fun s i p hp => ⟨_, peerResets_listed hp, rfl, fun d hd => mem_endPeer_raced hd i s⟩⟩
  · have hrow := hinv.row_lt_ff (hinv.running_of_busy hb)
    have hff := hinv.ff_range
    refine ⟨_, peerStarts_busy hal hb, rfl, fun i j => ?_, fun i hi hspace d hd h => ?_,
      fun b hout => readByte_raceTouch_out hout⟩
    · split_ifs with hspoils
      · obtain ⟨hlow, hi, k, hk, d, hd, hj, hel⟩ := hspoils
        have hspoilt : laneSpoilt (addPeer ⟨base, f, 0#3⟩ s) base.toNat (4 * (f.toNat + 1)) i j = true := by
          rw [hj]
          exact laneSpoilt_of_consumed hd hk hlow hi hel
        exact ⟨_, raceTouch_acc_spoilt hspoilt⟩
      · refine raceTouch_acc_kept (s := addPeer ⟨base, f, 0#3⟩ s) ?_
        by_contra hc
        obtain ⟨hi, hlow, d, hd, k, hk, hj, hel⟩ := consumed_of_laneSpoilt (by simpa using hc)
        exact hspoils ⟨hlow, hi, k, hk, d, hd, hj.symm, hel⟩
    · have hspoilt : sumSpoilt (addPeer ⟨base, f, 0#3⟩ s) base.toNat (4 * (f.toNat + 1)) i = true := by
        rcases h with ⟨h1, h2⟩ | ⟨hlow, k, hk, hel⟩
        · exact sumSpoilt_of_touched hd hi h1 h2
        · exact sumSpoilt_of_consumed hd hk hlow hi hel
      exact ⟨_, raceTouch_sum_spoilt hm (by omega) hspoilt hspace⟩
  · have hvalue : load32 (peerStore p s).mem (peerAddr p p.row.toNat) = Config.raceDraw s.draws :=
      load32_store32_same hm (admits_in_space ha) _
    by_cases hlast : p.row = p.f
    · refine ⟨_, s.draws, peerReds_last hp ha hlast, hvalue, fun b hb => readByte_store32_out hb _ _, rfl, ?_⟩
      rw [if_pos hlast]
      exact ⟨rfl, fun d hd => mem_endPeer_raced hd i _, fun b hb => List.mem_append_right _ hb⟩
    · refine ⟨_, s.draws, peerReds_row hp ha hlast, hvalue, fun b hb => readByte_store32_out hb _ _, rfl, ?_⟩
      rw [if_neg hlast]
      exact ⟨rfl, rfl⟩

end Sys2Proof.Machine
end

section
/-! The two encoded forms (30_encoding R90 to R96). A `CMDW` value is a command exactly when its number divided by 8 is
2: the mask of R91 and the two fields of R90 both say that, and the rest is the table of the eight opcodes. -/

namespace Sys2Proof.Machine

/-- The mask clears the three bits of `CMDW.f` (30_encoding R91). -/
theorem masked_eq_iff (v : Word) : v &&& 0xFFFFFFFFFFFFFFF8#64 = 0x10#64 ↔ v.toNat / 8 = 2 := by
  have hmask : v &&& 0xFFFFFFFFFFFFFFF8#64 = v >>> 3 <<< 3 := (BitVec.shiftLeft_ushiftRight (x := v) (n := 3)).symm
  have := v.isLt
  rw [hmask, ← BitVec.toNat_inj, BitVec.toNat_shiftLeft, BitVec.toNat_ushiftRight, Nat.shiftRight_eq_div_pow,
    Nat.shiftLeft_eq, BitVec.toNat_ofNat]
  omega

/-- CLASS and RSV as parts of the value (30_encoding R90). -/
theorem class_rsv_eq_iff (v : Word) :
    v.extractLsb' 3 5 = 0b00010#5 ∧ v.extractLsb' 8 56 = 0#56 ↔ v.toNat / 8 = 2 := by
  have := v.isLt
  simp only [← BitVec.toNat_inj, BitVec.extractLsb'_toNat, Nat.shiftRight_eq_div_pow, BitVec.toNat_ofNat]
  omega

theorem isDotxfCmd_iff (v : Word) : isDotxfCmd v = true ↔ v &&& 0xFFFFFFFFFFFFFFF8#64 = 0x10#64 := beq_iff_eq

theorem cmdw_wellFormed_iff (v : Word) : (Encoded.cmdw v).wellFormed = true ↔ isDotxfCmd v = true := by
  rw [isDotxfCmd_iff, masked_eq_iff, ← class_rsv_eq_iff, and_comm]
  simp [Encoded.wellFormed, cmdwRsvZero, cmdwClassDotxf]

/-- What the decoder, the encoder and START make of a row of the opcode map (30_encoding R91). -/
theorem dotxfTable_row {i : Instr} {f : Nat} {v : Word} (h : (i, f, v) ∈ dotxfTable) :
    decode (.cmdw v) = .accepted i ∧ encode i = .cmdw v ∧ i.fusion = some f ∧ fusionOf v = BitVec.ofNat 4 f := by
  have hall : ∀ c ∈ dotxfTable, decode (.cmdw c.2.2) = .accepted c.1 ∧ encode c.1 = .cmdw c.2.2 ∧
      c.1.fusion = some c.2.1 ∧ fusionOf c.2.2 = BitVec.ofNat 4 c.2.1 := by decide
  exact hall _ h

/-- A decoded `CMDW` value is a row of the opcode map, with F = v[2:0] + 1. -/
theorem mem_dotxfTable_of_decode {v : Word} {i : Instr} (h : decode (.cmdw v) = .accepted i) :
    (i, (v.extractLsb' 0 3).toNat + 1, v) ∈ dotxfTable := by
  obtain ⟨hv, rfl⟩ := decode_cmdw_accepted h
  exact dotxf_word hv

theorem cmdw_decodes_iff (v : Word) : (∃ i, decode (.cmdw v) = .accepted i) ↔ isDotxfCmd v = true :=
  ⟨fun ⟨_, h⟩ => (decode_cmdw_accepted h).1, fun h => ⟨_, (dotxfTable_row (dotxf_word h)).1⟩⟩

/-- The four modes: the three rows of the map and the reserved one (30_encoding R92, R95). -/
theorem h2sm_cases (m : BitVec 2) :
    (decode (.h2sm m) = .reservedMode ∧ (Encoded.h2sm m).wellFormed = false) ∨
    ∃ i, decode (.h2sm m) = .accepted i ∧ encode i = .h2sm m ∧ (Encoded.h2sm m).wellFormed = true := by
  have hm : ∀ m : BitVec 2, m = 0b00#2 ∨ m = 0b01#2 ∨ m = 0b10#2 ∨ m = 0b11#2 := by decide
  rcases hm m with rfl | rfl | rfl | rfl
  · exact .inr ⟨.h2sS, rfl, rfl, rfl⟩
  · exact .inr ⟨.h2sN, rfl, rfl, rfl⟩
  · exact .inr ⟨.h2sW, rfl, rfl, rfl⟩
  · exact .inl ⟨rfl, rfl⟩

theorem decode_encode (i : Instr) : decode (encode i) = .accepted i := by
  cases i <;> rfl

theorem encode_of_decode {e : Encoded} {i : Instr} (h : decode e = .accepted i) : encode i = e := by
  cases e with
  | cmdw v => exact (dotxfTable_row (mem_dotxfTable_of_decode h)).2.1
  | h2sm m =>
    rcases h2sm_cases m with ⟨hd, -⟩ | ⟨j, hd, he, -⟩
    · simp [hd] at h
    · obtain rfl : j = i := by simpa [hd] using h
      exact he

theorem decodes_iff_wellFormed (e : Encoded) : (∃ i, decode e = .accepted i) ↔ e.wellFormed = true := by
  cases e with
  | cmdw v => rw [cmdw_decodes_iff, cmdw_wellFormed_iff]
  | h2sm m =>
    rcases h2sm_cases m with ⟨hd, hw⟩ | ⟨j, hd, -, hw⟩
    · simp [hd, hw]
    · simp [hd, hw]

/-- Settles O3: each form by the rows of its opcode map. -/
theorem decodeEncodeAgree : Obligations.DecodeEncodeAgree :=
  ⟨decode_encode, fun _ _ => encode_of_decode, decodes_iff_wellFormed⟩

/-- Settles O2: a decoded value is a row of the table, and the row holds its F. -/
theorem dotxfOpcodeMap : Obligations.DotxfOpcodeMap := by
  refine ⟨fun i f v h => ?_, fun v => (cmdw_decodes_iff v).trans (isDotxfCmd_iff v), fun v i h => ?_⟩
  · obtain ⟨hdecode, -, hfusion, -⟩ := dotxfTable_row h
    exact ⟨hdecode, hfusion⟩
  · obtain ⟨-, -, hfusion, -⟩ := dotxfTable_row (mem_dotxfTable_of_decode h)
    exact hfusion

/-- Settles O1: three rows of each map, and the words beside them. -/
theorem specWordsDecode : Obligations.SpecWordsDecode := by
  unfold Obligations.SpecWordsDecode
  decide

end Sys2Proof.Machine
end

section
/-! START from an idle block (30_encoding R94, R98; 41_dotxf R161). In IDLE the engine has no step, so the host's writes
follow one another whatever the schedule says. -/

namespace Sys2Proof.Machine

variable {s : State}

theorem startCommand_idle_fault (hb : busy s = false) {v : Word} {f : Fault} (h : startFault v s = some f) :
    startCommand v s = .next (recordFault f s) := by
  simp [startCommand, hb, h]

theorem startCommand_idle_starts (hb : busy s = false) {v : Word} (h : startFault v s = none) :
    startCommand v s = .next (started v s) := by
  simp [startCommand, hb, h]

/-- The opcode is START's first check. -/
theorem startFault_illegal {v : Word} (h : isDotxfCmd v = false) (s : State) :
    startFault v s = some (.illegalCmd v) := by
  simp [startFault, h]

/-- Settles O4: the mask and the fields say the same of the value, and START checks it first. -/
theorem illegalCommandFaults : Obligations.IllegalCommandFaults := by
  refine ⟨fun v => ?_, fun b hb => ?_, fun v s hb hv => ?_⟩
  · rw [Ne, masked_eq_iff, ← class_rsv_eq_iff, not_and_or]
  · rw [Ne, masked_eq_iff, BitVec.toNat_ofNat]
    omega
  · have hill : isDotxfCmd v = false := by rwa [Bool.eq_false_iff, Ne, isDotxfCmd_iff]
    exact (hostAct_wreg_cmd v s).trans (startCommand_idle_fault hb (startFault_illegal hill s))

/-! The host's program on an idle block. -/

theorem turn_idle (hp : s.phase = .idle) (hq : s.hostQueue ≠ []) : turn s = some .host := by
  simp [turn, hostReady, engineReady, hp, hq]

theorem step_idle {a : HostAction} {rest : List HostAction} (hf : s.faultRec = none) (hp : s.phase = .idle)
    (hq : s.hostQueue = a :: rest) : step s = hostAct a (popHost (popSchedule s)) := by
  rw [step_of_host_turn hf (turn_idle hp (by simp [hq])) hq]
  simp [popHost, popSchedule, hq]

theorem run_succ {t : State} (h : step s = .next t) (k : Nat) :
    Host.Core.run Sys2Proof.core (k + 1) s = Host.Core.run Sys2Proof.core k t := by
  have hcore : Sys2Proof.core.step s = .next t := h
  simp only [Host.Core.run, hcore]

/-- The host's writes of the registers listed, each with its value. -/
def argWrites (ws : List (WinReg × Word)) : List HostAction := ws.map fun w => .wreg (regOffset w.1) 64 w.2

/-- The block after the host's steps that make these writes. -/
def afterArgWrites : List (WinReg × Word) → State → State
  | [], s => s
  | (r, v) :: ws, s => afterArgWrites ws (storeArg r v (popHost (popSchedule s)))

/-- An idle block takes one step for each write of an argument register. -/
theorem run_argWrites {ws : List (WinReg × Word)} {rest : List HostAction} (hws : ∀ w ∈ ws, w.1 ≠ .cmd)
    (hf : s.faultRec = none) (hp : s.phase = .idle) (hb : busy s = false) (hq : s.hostQueue = argWrites ws ++ rest)
    (k : Nat) :
    Host.Core.run Sys2Proof.core (k + ws.length) s = Host.Core.run Sys2Proof.core k (afterArgWrites ws s) := by
  induction ws generalizing s with
  | nil => rfl
  | cons w ws ih =>
    obtain ⟨r, v⟩ := w
    have hstep : step s = .next (storeArg r v (popHost (popSchedule s))) := by
      rw [step_idle hf hp hq]
      exact hostAct_wreg_idle (s := popHost (popSchedule s)) hb (hws _ List.mem_cons_self) v
    rw [List.length_cons, ← Nat.add_assoc, run_succ hstep]
    exact ih (fun w hw => hws w (List.mem_cons_of_mem _ hw)) (by simpa using hf) (by simpa using hp)
      (by simpa [busy] using hb) (by simp [hq, argWrites])

/-- The five argument writes of the expansion of `DOTXF<F>` (30_encoding R98). -/
def dotxfArgs (x y stride sum n : Word) : List (WinReg × Word) :=
  [(.xBase, x), (.yBase, y), (.stride, stride), (.sumBase, sum), (.n, n)]

theorem dotxfProgram_eq {i : Instr} {f : Nat} {v : Word} (h : (i, f, v) ∈ dotxfTable) (x y stride sum n : Word) :
    dotxfProgram f x y stride sum n = argWrites (dotxfArgs x y stride sum n) ++ [.wreg 0x00 64 v, .wait] := by
  have hv : BitVec.ofNat 64 (0x10 + (f - 1)) = v := by
    rw [← (dotxfTable_opcode h).1, BitVec.ofNat_toNat, BitVec.setWidth_eq]
  rw [dotxfProgram, hv]
  rfl

/-- The block after the five writes: the arguments stand in the window, all written, and the host has `rest` to do. -/
def argsStored (x y stride sum n : Word) (rest : List HostAction) (s : State) : State :=
  { s with
    xBase := x
    yBase := y
    stride := stride
    sumBase := sum
    n := n
    written := ⟨s.written.cmd, true, true, true, true, true⟩
    hostQueue := rest
    schedule := s.schedule.drop 5 }

theorem afterArgWrites_dotxfArgs {x y stride sum n : Word} {rest : List HostAction}
    (hq : s.hostQueue = argWrites (dotxfArgs x y stride sum n) ++ rest) :
    afterArgWrites (dotxfArgs x y stride sum n) s = argsStored x y stride sum n rest s := by
  have hsched : s.schedule.tail.tail.tail.tail.tail = s.schedule.drop 5 := by
    simp only [← List.drop_one, List.drop_drop]
  simp [afterArgWrites, dotxfArgs, argWrites, storeArg, popHost, popSchedule, argsStored, hq, hsched]

/-- On an idle block with its arguments written and its bases aligned, the host's write of a `DOTXF` value starts the
command. -/
theorem step_cmd_starts {v : Word} {rest : List HostAction} (hf : s.faultRec = none) (hp : s.phase = .idle)
    (hready : readyToStart s) (hv : isDotxfCmd v = true) (hq : s.hostQueue = .wreg 0x00 64 v :: rest) :
    step s = .next (started v (popHost (popSchedule s))) := by
  obtain ⟨hb, hargs, haligned⟩ := hready
  have hnone : startFault v (popHost (popSchedule s)) = none := startFault_none_iff.mpr ⟨hv, hargs, haligned⟩
  rw [step_idle hf hp hq, hostAct_wreg_cmd]
  exact startCommand_idle_starts (s := popHost (popSchedule s)) hb hnone

/-- Settles O15: five argument writes, after which START finds nothing to fault. -/
theorem dotxfProgramStarts : Obligations.DotxfProgramStarts := by
  intro i f v hrow s x y stride sum n hinv hhealthy hp hq hx hy hsum
  obtain ⟨hdecode, -, -, hff⟩ := dotxfTable_row hrow
  obtain ⟨hv, -⟩ := decode_cmdw_accepted hdecode
  have hb : busy s = false := hinv.idle_iff.mp hp
  rw [dotxfProgram_eq hrow] at hq
  have hargs := run_argWrites (by simp [dotxfArgs]) hhealthy.1 hp hb hq 1
  rw [afterArgWrites_dotxfArgs hq] at hargs
  have hcmd := step_cmd_starts (s := argsStored x y stride sum n [.wreg 0x00 64 v, .wait] s) hhealthy.1 hp
    ⟨hb, rfl, hx, hy, hsum⟩ hv rfl
  have hstatus : statusStarted s.status = 0x1#64 := statusStarted_of_reserved hinv.reserved
  refine ⟨_, hargs.trans (run_succ hcmd 0), rfl, rfl, rfl, rfl, rfl, rfl, hff, ?_, ?_, rfl, hhealthy, rfl⟩
  · simp [busy, argsStored, hstatus]
  · simp [done, argsStored, hstatus]

end Sys2Proof.Machine
end

section
/-! DECODE16 (40_h2s R121 to R127). Below the sign, a code and its single are each an exponent field over a fraction
field. The normal path aligns the fraction and re-biases the exponent. The denormal path is a subtraction whose exact
difference is the value of a finite pattern, and RNE32 gives such a pattern back. So both paths come to the magnitude bits
of the closed form, and those have the value of the code. -/

namespace Sys2Proof.Machine

/-! The fields of a code, as parts of its number. -/

/-- The exponent field `h[14:10]`. -/
abbrev halfExp (h : Half) : Nat := (h.extractLsb' 10 5).toNat

/-- The fraction field `h[9:0]`. -/
abbrev halfFrac (h : Half) : Nat := (h.extractLsb' 0 10).toNat

theorem halfExp_lt (h : Half) : halfExp h < 2 ^ 5 := (h.extractLsb' 10 5).isLt

theorem halfFrac_lt (h : Half) : halfFrac h < 2 ^ 10 := (h.extractLsb' 0 10).isLt

theorem halfExp_eq_zero_iff (h : Half) : halfExp h = 0 ↔ h.extractLsb' 10 5 = 0#5 := by
  rw [← BitVec.toNat_inj]
  rfl

theorem half_toNat (h : Half) :
    h.toNat = (if h.getLsbD 15 then 2 ^ 15 else 0) + halfExp h * 2 ^ 10 + halfFrac h := by
  have := h.isLt
  rw [← BitVec.msb_eq_getLsbD_last h, BitVec.msb_eq_decide]
  simp only [BitVec.extractLsb'_toNat, Nat.shiftRight_eq_div_pow, decide_eq_true_eq]
  split <;> omega

/-! The selection (40_h2s R124). -/

theorem shr3Nonsign_toNat (h : Half) : (shr3Nonsign h).toNat = halfExp h * 2 ^ 23 + halfFrac h * 2 ^ 13 := by
  have hsplit := half_toNat h
  have he := halfExp_lt h
  have hm := halfFrac_lt h
  simp only [shr3Nonsign, BitVec.toNat_ushiftRight, BitVec.toNat_add, BitVec.toNat_shiftLeft, BitVec.toNat_setWidth,
    Nat.shiftRight_eq_div_pow, Nat.shiftLeft_eq]
  split at hsplit <;> omega

theorem shr3Nonsign_lt_iff (h : Half) : (shr3Nonsign h).toNat < 0x00800000 ↔ halfExp h = 0 := by
  have hm := halfFrac_lt h
  rw [shr3Nonsign_toNat]
  omega

theorem shr3Nonsign_le (h : Half) : (shr3Nonsign h).toNat ≤ 0x0FFFE000 := by
  have he := halfExp_lt h
  have hm := halfFrac_lt h
  rw [shr3Nonsign_toNat]
  omega

theorem decode16_eq (h : Half) :
    decode16 h = (if halfExp h = 0 then decodeDenorm h else decodeNorm h) ||| decodeSign h := by
  rw [decode16, if_congr (shr3Nonsign_lt_iff h) rfl rfl]

/-- Settles O35: the compared value is the two fields in their places, and it alone selects the path. -/
theorem decodeSelection : Obligations.DecodeSelection := by
  refine ⟨fun h => ?_, shr3Nonsign_toNat, fun h => ⟨?_, shr3Nonsign_le h, ?_⟩, 0x7FFF#16, by decide⟩
  · rw [decode16_eq, if_congr (halfExp_eq_zero_iff h) rfl rfl, apply_ite (· ||| decodeSign h)]
  · rw [shr3Nonsign_lt_iff, halfExp_eq_zero_iff]
  · exact BitVec.msb_eq_false_iff_two_mul_lt.2 ((Nat.mul_le_mul_left 2 (shr3Nonsign_le h)).trans_lt (by decide))

/-! The value of a code, and the magnitude bits of its single. -/

/-- The magnitude of a code's value, times 2^24 (00_scope R17). -/
def halfMag (h : Half) : Nat := if halfExp h = 0 then halfFrac h else (1024 + halfFrac h) * 2 ^ (halfExp h - 1)

theorem halfScaled_eq (h : Half) : halfScaled h = withSign (h.getLsbD 15) (halfMag h) := rfl

/-- The closed form without its sign (40_h2s R127). -/
def decodedBits (h : Half) : Nat :=
  if halfExp h ≠ 0 then (halfExp h + 112) * 2 ^ 23 + halfFrac h * 2 ^ 13
  else if halfFrac h = 0 then 0
  else (Nat.log2 (halfFrac h) + 103) * 2 ^ 23 +
    (halfFrac h - 2 ^ Nat.log2 (halfFrac h)) * 2 ^ (23 - Nat.log2 (halfFrac h))

theorem decode16Closed_eq (h : Half) :
    decode16Closed h = (if h.getLsbD 15 then 2 ^ 31 else 0) + decodedBits h := by
  have hs : (if h.getLsbD 15 then 1 else 0) * 2 ^ 31 = if h.getLsbD 15 then 2 ^ 31 else 0 := by split <;> rfl
  rw [decode16Closed, hs]
  split
  · next he => rw [decodedBits, if_pos he, Nat.add_assoc]
  · next he =>
    rw [decodedBits, if_neg he]
    split
    · next => rfl
    · next => rw [Nat.add_assoc]

/-- A number moved up until its leading bit is bit 23. -/
theorem normalized_bounds {m : Nat} (h0 : m ≠ 0) (hm : Nat.log2 m ≤ 23) :
    2 ^ 23 ≤ m * 2 ^ (23 - Nat.log2 m) ∧ m * 2 ^ (23 - Nat.log2 m) < 2 ^ 24 := by
  constructor
  · calc 2 ^ 23 = 2 ^ Nat.log2 m * 2 ^ (23 - Nat.log2 m) := by rw [← Nat.pow_add, Nat.add_sub_cancel' hm]
      _ ≤ m * 2 ^ (23 - Nat.log2 m) := Nat.mul_le_mul_right _ (Nat.log2_self_le h0)
  · calc m * 2 ^ (23 - Nat.log2 m) < 2 ^ (Nat.log2 m + 1) * 2 ^ (23 - Nat.log2 m) :=
          Nat.mul_lt_mul_of_pos_right Nat.lt_log2_self (Nat.two_pow_pos _)
      _ = 2 ^ 24 := by rw [← Nat.pow_add, Nat.add_right_comm, Nat.add_sub_cancel' hm]

/-- R127's denormal line: with the leading bit of the fraction field left in, the exponent field is one less. -/
theorem normalized_eq {m : Nat} (h0 : m ≠ 0) (hm : Nat.log2 m ≤ 23) :
    (Nat.log2 m + 103) * 2 ^ 23 + (m - 2 ^ Nat.log2 m) * 2 ^ (23 - Nat.log2 m) =
      m * 2 ^ (23 - Nat.log2 m) + (Nat.log2 m + 102) * 2 ^ 23 := by
  have hle := (normalized_bounds h0 hm).1
  rw [Nat.sub_mul, ← Nat.pow_add, Nat.add_sub_cancel' hm]
  omega

/-- A code is a zero, or its single is normal: a full significand `q` above the grid of exponent field `k + 1`, with the
value of the code (40_h2s R122, R123). -/
theorem decodedBits_cases (h : Half) :
    (decodedBits h = 0 ∧ halfMag h = 0) ∨
    ∃ q k, decodedBits h = q + k * 2 ^ 23 ∧ 2 ^ 23 ≤ q ∧ q < 2 ^ 24 ∧ k < 143 ∧
      q * 2 ^ (k + 151) = halfMag h * 2 ^ 276 := by
  have he := halfExp_lt h
  have hm := halfFrac_lt h
  rw [decodedBits, halfMag, ite_not]
  by_cases he0 : halfExp h = 0
  · rw [if_pos he0, if_pos he0]
    by_cases hm0 : halfFrac h = 0
    · exact .inl ⟨if_pos hm0, hm0⟩
    · have hp : Nat.log2 (halfFrac h) < 10 := (Nat.log2_lt hm0).2 hm
      obtain ⟨hlow, hhigh⟩ := normalized_bounds hm0 (by omega)
      rw [if_neg hm0]
      refine .inr ⟨_, _, normalized_eq hm0 (by omega), hlow, hhigh, by omega, ?_⟩
      rw [Nat.mul_assoc, ← Nat.pow_add]
      exact congrArg (fun e => halfFrac h * 2 ^ e) (by omega)
  · rw [if_neg he0, if_neg he0]
    refine .inr ⟨(1024 + halfFrac h) * 2 ^ 13, halfExp h + 111, by omega, by omega, by omega, by omega, ?_⟩
    rw [Nat.mul_assoc, Nat.mul_assoc, ← Nat.pow_add, ← Nat.pow_add]
    exact congrArg (fun e => (1024 + halfFrac h) * 2 ^ e) (by omega)

theorem magValue_decodedBits (h : Half) : magValue (decodedBits h) = halfMag h * 2 ^ 276 := by
  rcases decodedBits_cases h with ⟨hbits, hmag⟩ | ⟨q, k, hbits, hlow, hhigh, -, hvalue⟩
  · rw [hbits, hmag, Nat.zero_mul]
    rfl
  · rw [hbits, magValue_grid hhigh.le (.inr hlow), hvalue]

/-- Never subnormal, infinite or a NaN (40_h2s R126). -/
theorem decodedBits_bounds (h : Half) : (decodedBits h = 0 ∨ 2 ^ 23 ≤ decodedBits h) ∧ decodedBits h < 0x7F800000 := by
  rcases decodedBits_cases h with ⟨hbits, -⟩ | ⟨q, k, hbits, hlow, hhigh, hk, -⟩ <;> omega

/-! The normal path (40_h2s R122). -/

theorem decodeNorm_toNat (h : Half) : (decodeNorm h).toNat = (halfExp h + 112) * 2 ^ 23 + halfFrac h * 2 ^ 13 := by
  have hle := shr3Nonsign_le h
  have hnat := shr3Nonsign_toNat h
  rw [decodeNorm, BitVec.toNat_add, BitVec.toNat_ofNat]
  omega

theorem decodeNorm_bits {h : Half} (he : halfExp h ≠ 0) :
    signBit (decodeNorm h) = false ∧ magBits (decodeNorm h) = decodedBits h := by
  have hnat : (decodeNorm h).toNat = decodedBits h := by rw [decodeNorm_toNat, decodedBits, if_pos he]
  have hlt := (decodedBits_bounds h).2
  rw [signBit_eq, magBits, hnat, decide_eq_false_iff_not]
  omega

/-! The denormal path (40_h2s R123). -/

/-- RNE32 of a finite pattern's value is that pattern. -/
theorem roundMag_magValue {n : Nat} (h0 : n ≠ 0) (hfin : n < 0x7F800000) : roundMag (magValue n) = n := by
  have hmag : magValue n ≠ 0 := Nat.ne_zero_of_lt (magValue_strictMono (Nat.pos_of_ne_zero h0))
  have hmax : magValue 0x7F7FFFFF < (2 ^ 25 - 1) * 2 ^ 403 := by decide +kernel
  have hround : roundMag (magValue n) < 0x7F800000 :=
    (roundMag_lt_iff hmag).2 ((magValue_strictMono.monotone (by omega)).trans_lt hmax)
  have hnear := (roundShift_nearest (magValue n) (ulpPlace (magValue n)) (magValue n)
    ((magValue_outside hmag n).imp Int.ofNat_le.2 Int.ofNat_le.2)).1
  apply magValue_strictMono.injective
  rw [magValue_roundMag hmag hround]
  omega

theorem denormRaw_toNat {h : Half} (he : halfExp h = 0) : (denormRaw h).toNat = 0x3E800000 + 2 * halfFrac h := by
  have hsplit := half_toNat h
  have hm := halfFrac_lt h
  rw [denormRaw, BitVec.toNat_append, ← Nat.shiftLeft_add_eq_or_of_lt (h + h).isLt, BitVec.toNat_add, Nat.shiftLeft_eq,
    BitVec.toNat_ofNat]
  split at hsplit <;> omega

theorem denormRaw_bits {h : Half} (he : halfExp h = 0) :
    signBit (denormRaw h) = false ∧ magBits (denormRaw h) = 2 ^ 23 + 2 * halfFrac h + 124 * 2 ^ 23 := by
  have hm := halfFrac_lt h
  rw [signBit_eq, magBits, denormRaw_toNat he, decide_eq_false_iff_not]
  omega

theorem exactValue_denormRaw {h : Half} (he : halfExp h = 0) :
    exactValue (denormRaw h) = ((2 ^ 23 + 2 * halfFrac h) * 2 ^ 275 : Nat) := by
  have hm := halfFrac_lt h
  obtain ⟨hsign, hmag⟩ := denormRaw_bits he
  rw [exactValue_eq, hsign, hmag, magValue_grid (by omega) (by omega), withSign_false]

/-- The difference with 0.25 is exact: the fraction field, twice in units of the last place of 0.25. -/
theorem exactValue_denormDifference {h : Half} (he : halfExp h = 0) :
    exactValue (denormRaw h) + exactValue (0x3E800000#32 ^^^ 0x80000000#32) = (2 * halfFrac h * 2 ^ 275 : Nat) := by
  have hquarter : exactValue (0x3E800000#32 ^^^ 0x80000000#32) = -(2 ^ 23 * 2 ^ 275 : Nat) := by decide +kernel
  rw [exactValue_denormRaw he, hquarter, Nat.add_mul, Nat.cast_add, add_neg_cancel_comm]

theorem decodeDenorm_eq {h : Half} (he : halfExp h = 0) :
    decodeDenorm h = if halfFrac h = 0 then 0x00000000#32 else rne32 (2 * halfFrac h * 2 ^ 275 : Nat) := by
  have hm := halfFrac_lt h
  obtain ⟨-, hmag⟩ := denormRaw_bits he
  have hfin : isFinite (denormRaw h) = true := by
    rw [isFinite_iff]
    omega
  have hnonzero : exactValue (denormRaw h) ≠ 0 := by
    rw [Ne, exactValue_eq_zero, isZero_iff]
    omega
  rw [decodeDenorm, subCore, addCore_of_finite hfin (by decide), exactValue_denormDifference he, Option.getD_some,
    if_neg (c := _ ∧ _) fun hz => hnonzero hz.1]
  by_cases hm0 : halfFrac h = 0
  · rw [if_pos hm0, hm0, Nat.mul_zero, Nat.zero_mul, Nat.cast_zero, if_neg (not_not.2 rfl)]
  · rw [if_neg hm0, if_pos (by positivity)]

theorem decodeDenorm_bits {h : Half} (he : halfExp h = 0) :
    signBit (decodeDenorm h) = false ∧ magBits (decodeDenorm h) = decodedBits h := by
  rw [decodeDenorm_eq he]
  by_cases hm : halfFrac h = 0
  · rw [if_pos hm, decodedBits, ite_not, if_pos he, if_pos hm]
    exact ⟨rfl, rfl⟩
  · have hvalue : magValue (decodedBits h) = 2 * halfFrac h * 2 ^ 275 := by
      have hunit (p : Nat) : halfFrac h * 2 ^ (p + 1) = 2 * halfFrac h * 2 ^ p := by ring
      rw [magValue_decodedBits, halfMag, if_pos he, ← hunit]
    have h0 : decodedBits h ≠ 0 := by
      intro h0
      rw [h0] at hvalue
      exact (show 2 * halfFrac h * 2 ^ 275 ≠ 0 by positivity) hvalue.symm
    rw [if_neg hm, signBit_rne32, magBits_rne32, Int.natAbs_natCast, ← hvalue,
      roundMag_magValue h0 (decodedBits_bounds h).2]
    exact ⟨decide_eq_false (Int.natCast_nonneg _).not_gt, rfl⟩

/-! The recombination (40_h2s R125). -/

theorem signBit_decodeSign (h : Half) : signBit (decodeSign h) = h.getLsbD 15 := by
  simp [signBit, decodeSign]

theorem magBits_decodeSign (h : Half) : magBits (decodeSign h) = 0 := by
  rw [magBits, decodeSign, BitVec.toNat_and, Nat.and_mod_two_pow]
  exact Nat.and_zero _

theorem signBit_or (a b : Single) : signBit (a ||| b) = (signBit a || signBit b) := BitVec.getLsbD_or

theorem magBits_or (a b : Single) : magBits (a ||| b) = magBits a ||| magBits b := by
  rw [magBits, BitVec.toNat_or, Nat.or_mod_two_pow]
  rfl

theorem decode16_bits (h : Half) : signBit (decode16 h) = h.getLsbD 15 ∧ magBits (decode16 h) = decodedBits h := by
  obtain ⟨nonsign, heq, hsign, hmag⟩ : ∃ nonsign, decode16 h = nonsign ||| decodeSign h ∧
      signBit nonsign = false ∧ magBits nonsign = decodedBits h := by
    rw [decode16_eq]
    split
    · next he => exact ⟨_, rfl, decodeDenorm_bits he⟩
    · next he => exact ⟨_, rfl, decodeNorm_bits he⟩
  rw [heq, signBit_or, magBits_or, hsign, hmag, signBit_decodeSign, magBits_decodeSign]
  exact ⟨Bool.false_or _, Nat.or_zero _⟩

/-- Settles O34: both forms are the code's sign over the same magnitude bits. -/
theorem decodeClosedForm : Obligations.DecodeClosedForm := by
  intro h
  obtain ⟨hsign, hmag⟩ := decode16_bits h
  rw [single_toNat, hsign, hmag, decode16Closed_eq]

theorem singleScaled_mul (b : Single) : singleScaled b * 2 ^ 151 = exactValue b := by
  have hscale : 1 ≤ scale b := Nat.le_max_right _ _
  rw [singleScaled, exactValue, withSign_mul_two_pow, Nat.mul_assoc, ← Nat.pow_add]
  exact congrArg (fun e => withSign (signBit b) (sig b * 2 ^ e)) (by omega)

/-- Settles O33: the magnitude bits are 0 or those of a normal pattern, and their value is the code's. -/
theorem decodeIsExact : Obligations.DecodeIsExact := by
  intro h
  obtain ⟨hsign, hmag⟩ := decode16_bits h
  obtain ⟨hnormal, hfin⟩ := decodedBits_bounds h
  refine ⟨(isFinite_iff _).2 (hmag ▸ hfin), ?_, hsign, ?_⟩
  · apply Int.eq_of_mul_eq_mul_right (show (2 ^ 151 : Int) ≠ 0 by decide)
    rw [singleScaled_mul, exactValue_eq, hsign, hmag, magValue_decodedBits, halfScaled_eq, Int.mul_assoc, ← Int.pow_add,
      withSign_mul_two_pow]
  · rw [expField_eq, fracField_eq, hmag]
    omega

end Sys2Proof.Machine
end

section
/-! The converter port (40_h2s R128 to R132): its lanes, and its output as a function of its inputs. -/

namespace Sys2Proof.Machine

variable {s t : State}

/-! The lanes. -/

/-- Of lanes in a row the one at the low end is lane 0, and the others are counted from it. -/
theorem extractLsb'_append_lane {w : Nat} (high : BitVec w) (low : Single) (j : Nat) :
    (high ++ low).extractLsb' (32 * j) 32 = if j = 0 then low else high.extractLsb' (32 * (j - 1)) 32 := by
  cases j with
  | zero =>
    rw [if_pos rfl]
    exact BitVec.extractLsb'_append_eq_right
  | succ j =>
    rw [if_neg j.succ_ne_zero, BitVec.extractLsb'_append_eq_of_le (by omega)]
    rfl

theorem outLane_packLanes (lane : Nat → Single) {j : Nat} (hj : j < 8) : outLane (packLanes lane) j = lane j := by
  change BitVec.extractLsb' (n := 32 + 32 + 32 + 32 + 32 + 32 + 32 + 32) (32 * j) 32 _ = _
  simp only [packLanes, extractLsb'_append_lane]
  interval_cases j <;> simp

theorem outLane_h2sConvert (w : Nat) (u : BitVec 128) {j : Nat} (hj : j < 8) :
    outLane (h2sConvert w u) j = if j < w then decode16 (inLane u j) else 0x00000000#32 := by
  rw [h2sConvert, outLane_packLanes _ hj]

theorem decode16_zero : decode16 0x0000#16 = 0x00000000#32 := BitVec.eq_of_toNat_eq (decodeClosedForm 0x0000#16)

/-- Settles O32: each operation drives the port with the conversion of its width. -/
theorem converterLanes : Obligations.ConverterLanes :=
  ⟨fun _ m w hrow s => ⟨drivePort m (h2sConvert w s.h2sIn) s, exec_h2s hrow s,
    fun _ hj => outLane_h2sConvert w s.h2sIn hj, rfl⟩, decode16_zero⟩

/-! The invariant of the port. -/

theorem h2sTable_mode_listed {i : Instr} {m : BitVec 2} {w : Nat} (h : (i, m, w) ∈ h2sTable) : m ≠ 0b11#2 := by
  have hall : ∀ c ∈ h2sTable, c.2.1 ≠ 0b11#2 := by decide
  exact hall _ h

/-- The mode decides the width (30_encoding R92). -/
theorem h2sTable_width {i i' : Instr} {m : BitVec 2} {w w' : Nat} (h : (i, m, w) ∈ h2sTable)
    (h' : (i', m, w') ∈ h2sTable) : w = w' := by
  have hall : ∀ c ∈ h2sTable, ∀ c' ∈ h2sTable, c.2.1 = c'.2.1 → c.2.2 = c'.2.2 := by decide
  exact hall _ h _ h' rfl

theorem portInv_of_port_eq (h : portInv s) (hmode : t.h2sMode = s.h2sMode) (hin : t.h2sIn = s.h2sIn)
    (hout : t.h2sOut = s.h2sOut) : portInv t := by
  rwa [portInv, hmode, hin, hout]

theorem portInv_drivePort {i : Instr} {m : BitVec 2} {w : Nat} (hrow : (i, m, w) ∈ h2sTable) (s : State) :
    portInv (drivePort m (h2sConvert w s.h2sIn) s) := by
  rintro i' _ w' hrow' rfl
  exact congrArg (h2sConvert · s.h2sIn) (h2sTable_width hrow hrow')

/-- The invariant says nothing of mode 11 (log 14). -/
theorem portInv_driveOpen (u : BitVec 128) (s : State) : portInv (driveOpen 0b11#2 u s) :=
  fun _ _ _ hrow hmode => absurd hmode.symm (h2sTable_mode_listed hrow)

theorem portInv_engineStep (h : portInv s) (hstep : engineStep s = .next t) : portInv t := by
  rw [engineStep_frame hstep]
  exact h

theorem portInv_pollWait (h : portInv s) : portInv (pollWait s) := by
  unfold pollWait
  split <;> exact h

/-- A peer has a port of its own. -/
theorem portInv_peerMoves (h : portInv s) (hm : PeerMoves s t) : portInv t := by
  cases hm <;> exact h

theorem portInv_hostAct (h : portInv s) {a : HostAction} (hact : hostAct a s = .next t) : portInv t := by
  rcases hostAct_cases hact with ⟨f, rfl⟩ | (rfl | ⟨u, -, rfl⟩) | ⟨v, -, -, -, rfl⟩ | ⟨r, v, -, -, -, rfl⟩ |
    ⟨r, -, -, rfl⟩ | ⟨-, rfl⟩ | ⟨p, bs, -, -, -, rfl⟩ | ⟨p, bs, -, -, -, rfl⟩ | ⟨p, n, -, -, rfl⟩ |
    ⟨m, u, i, w, -, hrow, rfl⟩ | ⟨-, rfl⟩ | ⟨-, hm⟩
  · exact h
  · exact h
  · exact portInv_driveOpen u s
  · exact h
  · exact portInv_of_port_eq h (storeArg_h2sMode ..) (storeArg_h2sIn ..) (storeArg_h2sOut ..)
  · exact h
  · exact portInv_pollWait h
  · exact h
  · exact h
  · exact h
  · exact portInv_drivePort hrow (setInput u s)
  · exact h
  · exact portInv_peerMoves h hm

/-- Settles O30: a drive of the port sets the output with the mode and the input, and nothing else writes the three. -/
theorem portInvariantKept : Obligations.PortInvariantKept := by
  intro s t h hstep
  rcases step_cases hstep with ⟨-, -, rfl⟩ | ⟨-, -, he⟩ | ⟨-, -, a, rest, -, ha⟩ | ⟨-, -, -, rfl⟩
  · exact h
  · exact portInv_engineStep (s := popSchedule s) h he
  · exact portInv_hostAct (s := popHost (popSchedule s)) h ha
  · exact h

end Sys2Proof.Machine
end

section
/-! START as the spec writes it out (41_dotxf R161, R175 to R182). -/

namespace Sys2Proof.Machine

variable {s : State}

/-- The writes of START, for a value of fusion factor `f`. -/
theorem started_eq {v : Word} {f : Nat} (hff : fusionOf v = BitVec.ofNat 4 f) (hf : f < 16) :
    started v s =
      { s with
        cmd := v
        written := { s.written with cmd := true }
        ff := BitVec.ofNat 4 f
        acc := Vector.ofFn fun i => if i.val < f then Vector.replicate 8 0x00000000#32 else s.acc[i]
        k := 0#64
        row := 0#4
        status := (s.status &&& ~~~0x3#64) ||| 0x1#64
        phase := if 8 ≤ s.n.toNat then .bulk else if 0 < s.n.toNat then .rem else .red
        raced := [] } := by
  have hrows : (BitVec.ofNat 4 f).toNat = f := Nat.mod_eq_of_lt hf
  rw [started, hff, zeroRows, hrows]
  rfl

theorem isDotxfCmd_of_row {i : Instr} {f : Nat} {v : Word} (h : (i, f, v) ∈ dotxfTable) : isDotxfCmd v = true :=
  (decode_cmdw_accepted (dotxfTable_row h).1).1

theorem startCommand_idle (hb : busy s = false) (v : Word) :
    startCommand v s = (startFault v s).elim (.next (started v s)) fun f => .next (recordFault f s) := by
  cases h : startFault v s with
  | none => exact startCommand_idle_starts hb h
  | some f => exact startCommand_idle_fault hb h

/-- A check that comes first answers first. -/
theorem elim_check {α β : Type} {c : Prop} [Decidable c] (a : α) (rest : Option α) (onNone : β) (onSome : α → β) :
    (if c then some a else rest).elim onNone onSome = if c then onSome a else rest.elim onNone onSome := by
  split <;> rfl

/-- Settles O13: the checks are those of `startFault`, in its order. -/
theorem startStep : Obligations.StartStep := by
  intro v s hb
  have hv := (v.extractLsb' 0 3).isLt
  have hff : fusionOf v = BitVec.ofNat 4 ((v.extractLsb' 0 3).toNat + 1) := by
    rw [← fusionOf_toNat, BitVec.ofNat_toNat, BitVec.setWidth_eq]
  rw [hostAct_wreg_cmd, startCommand_idle hb, ← started_eq hff (by omega)]
  simp only [startFault, ← isDotxfCmd_iff, Ne, Bool.not_eq_true, Bool.not_eq_true', elim_check, Option.elim_none]
  rfl

/-- Settles O14: a command of the table starts, with the factor of its row. -/
theorem dotxfStartsWhenReady : Obligations.DotxfStartsWhenReady := by
  intro i f v hrow s ⟨hb, hargs, haligned⟩
  obtain ⟨-, -, -, hff⟩ := dotxfTable_row hrow
  obtain ⟨-, -, hf⟩ := dotxfTable_opcode hrow
  have hnone : startFault v s = none := startFault_none_iff.mpr ⟨isDotxfCmd_of_row hrow, hargs, haligned⟩
  rw [exec_dotxf hrow, startCommand_idle_starts hb hnone, started_eq hff (by omega)]

end Sys2Proof.Machine
end

section
/-! RTREE and `-0` (41_dotxf R184). Exact sums of singles are multiples of 2^-149, so only the sum 0
rounds to a zero, and an ADD32 that gives `-0` has added two of them. -/

namespace Sys2Proof.Machine

/-- The pattern of `-0`. -/
abbrev negZero : Single := 0x80000000#32

/-- A magnitude on the subnormal grid does not round to 0. -/
theorem roundMag_ne_zero {mag : Nat} (h : mag ≠ 0) (hgrid : 2 ^ 151 ∣ mag) : roundMag mag ≠ 0 := by
  have hunits : 1 ≤ mag / 2 ^ ulpPlace mag := by
    rcases (units_bounds h).2 with hplace | hfull
    · rw [show ulpPlace mag = 151 by have := le_ulpPlace mag; omega]
      exact Nat.div_pos (Nat.le_of_dvd (Nat.pos_of_ne_zero h) hgrid) (by decide)
    · omega
  have hround := (roundShift_cases mag (ulpPlace mag)).1
  rw [roundMag]
  omega

theorem exactValue_on_grid (b : Single) : (2 ^ 151 : Int) ∣ exactValue b := by
  have hscale : 1 ≤ scale b := Nat.le_max_right _ _
  rw [exactValue, show scale b + 150 = scale b - 1 + 151 by omega, Nat.pow_add, ← Nat.mul_assoc, ← withSign_mul_two_pow]
  exact Int.dvd_mul_left _ _

theorem rne32_ne_negZero {t : Int} (h : t ≠ 0) (hgrid : (2 ^ 151 : Int) ∣ t) : rne32 t ≠ negZero := by
  intro hneg
  have hmag := magBits_rne32 t
  rw [hneg] at hmag
  exact roundMag_ne_zero (Int.natAbs_ne_zero.2 h) (Int.natAbs_dvd_natAbs.2 hgrid) hmag.symm

theorem eq_negZero {b : Single} (hs : signBit b = true) (hz : isZero b = true) : b = negZero :=
  single_ext hs ((isZero_iff b).1 hz)

theorem addCore_finite_negZero {a b : Single} (ha : isFinite a = true) (hb : isFinite b = true)
    (h : addCore a b = some negZero) : a = negZero ∧ b = negZero := by
  rw [addCore_of_finite ha hb, Option.some.injEq] at h
  split_ifs at h with hsum hzero
  · exact absurd h (rne32_ne_negZero hsum (Int.dvd_add (exactValue_on_grid a) (exactValue_on_grid b)))
  · obtain ⟨hz, hs⟩ := hzero
    have hneg : signBit a = true := by
      cases hsign : signBit a with
      | true => rfl
      | false => rw [hsign] at h; contradiction
    exact ⟨eq_negZero hneg ((exactValue_eq_zero a).1 hz),
      eq_negZero (hs.trans hneg) ((exactValue_eq_zero b).1 (by omega))⟩
  · contradiction

/-- With an operand that is not finite the sum is a NaN or infinite. -/
theorem addCore_eq_negZero_iff (a b : Single) : addCore a b = some negZero ↔ a = negZero ∧ b = negZero := by
  refine ⟨fun h => ?_, fun ⟨ha, hb⟩ => by rw [ha, hb]; decide⟩
  have infinite : ∀ {c : Single}, isInf c = true → c ≠ negZero := by
    rintro c hc rfl
    contradiction
  rcases single_cases a with ha | ha | ha
  · rw [addCore_of_nan (.inl ha)] at h
    cases h
  · cases hb : isNaN b with
    | true =>
      rw [addCore_of_nan (.inr hb)] at h
      cases h
    | false =>
      rw [addCore_of_inf_left ha hb] at h
      split at h
      · cases h
      · exact absurd (Option.some.inj h) (infinite ha)
  · rcases single_cases b with hb | hb | hb
    · rw [addCore_of_nan (.inr hb)] at h
      cases h
    · rw [addCore_of_inf_right ha hb] at h
      exact absurd (Option.some.inj h) (infinite hb)
    · exact addCore_finite_negZero ha hb h

theorem addLanes_eq_negZero_iff (x y : Option Single) :
    addLanes x y = some negZero ↔ x = some negZero ∧ y = some negZero := by
  cases x with
  | none => simp [addLanes]
  | some a =>
    cases y with
    | none => simp [addLanes]
    | some b => simpa [addLanes] using addCore_eq_negZero_iff a b

/-- Settles O41: each of the seven ADD32 gives `-0` from two `-0` alone. -/
theorem treeGivesMinusZeroOnlyFromMinusZeros : Obligations.TreeGivesMinusZeroOnlyFromMinusZeros := by
  intro a
  simp only [treeOf, addLanes_eq_negZero_iff, Option.some.injEq]
  constructor
  · rintro ⟨⟨⟨h0, h4⟩, h1, h5⟩, ⟨h2, h6⟩, h3, h7⟩ j hj
    interval_cases j <;> assumption
  · intro h
    exact ⟨⟨⟨h 0 (by decide), h 4 (by decide)⟩, h 1 (by decide), h 5 (by decide)⟩,
      ⟨h 2 (by decide), h 6 (by decide)⟩, h 3 (by decide), h 7 (by decide)⟩

end Sys2Proof.Machine
end

section
/-! Results and the patterns that agree with them (00_scope R21): a NaN operand makes every operation of a command a NaN
result, so what is computed from patterns that agree with results agrees with what is computed from the results. -/

namespace Sys2Proof.Machine

variable {r q : Option Single} {a b nan : Single}

theorem agrees_getD (hnan : isNaN nan = true) (r : Option Single) : agrees r (r.getD nan) := by
  cases r with
  | none => exact hnan
  | some u => rfl

/-- An operation that gives no result for a NaN operand. -/
theorem agrees_bind {op : Single → Option Single} (hop : ∀ u, isNaN u = true → op u = none) (hnan : isNaN nan = true)
    (h : agrees r b) : agrees (r.bind op) ((op b).getD nan) := by
  cases r with
  | none =>
    rw [hop b h]
    exact hnan
  | some u =>
    obtain rfl : b = u := h
    exact agrees_getD hnan _

theorem remCore_of_nan (fused : Bool) (x d : Single) (h : isNaN a = true) : remCore fused x d a = none := by
  cases fused with
  | true => exact fmaCore_of_nan (.inr (.inr h))
  | false =>
    rw [remCore, if_neg (by decide), Option.bind_eq_none_iff]
    exact fun p _ => addCore_of_nan (.inr h)

theorem agrees_addLanes (hnan : isNaN nan = true) (ha : agrees r a) (hb : agrees q b) :
    agrees (addLanes r q) (add32 nan a b) := by
  cases r with
  | none =>
    rw [add32, addCore_of_nan (.inl ha)]
    exact hnan
  | some u =>
    obtain rfl : a = u := ha
    exact agrees_bind (fun v hv => addCore_of_nan (.inr hv)) hnan hb

/-- The tree, level by level (41_dotxf R170). -/
theorem agrees_rtree {nan : Nat → Single} (hnan : ∀ k, isNaN (nan k) = true) {lane : Nat → Option Single} {a : Lanes}
    (h : ∀ j : Fin 8, agrees (lane j) a[j]) : agrees (treeOf lane) (rtree nan a) := by
  have v0 := agrees_addLanes (hnan 0) (h 0) (h 4)
  have v1 := agrees_addLanes (hnan 1) (h 1) (h 5)
  have v2 := agrees_addLanes (hnan 2) (h 2) (h 6)
  have v3 := agrees_addLanes (hnan 3) (h 3) (h 7)
  exact agrees_addLanes (hnan 6) (agrees_addLanes (hnan 4) v0 v1) (agrees_addLanes (hnan 5) v2 v3)

theorem isNaN_nanResult (k : Nat) : isNaN (nanResult k) = true := isNaN_nanOf _

/-- Two patterns that agree with one result are the same, or both NaN. -/
theorem eq_or_nan_of_agrees (ha : agrees r a) (hb : agrees r b) : a = b ∨ isNaN a = true ∧ isNaN b = true := by
  cases r with
  | none => exact .inr ⟨ha, hb⟩
  | some u => exact .inl (Eq.trans ha (Eq.symm hb))

end Sys2Proof.Machine
end

section
/-! The engine's steps, each from what its accesses are (41_dotxf R163, R166, R171). -/

namespace Sys2Proof.Machine

variable {s : State} {kind : AccessKind} {l : List (Nat × Nat)} {c : Nat × Nat} {f : Fault} {a n m i j k draw : Nat}

/-! The order of the accesses (60_exceptions R204). -/

theorem firstDenied_append {pre post : List (Nat × Nat)} (hpre : ∀ d ∈ pre, admits s kind d.1 d.2 = true)
    (hc : admits s kind c.1 c.2 = false) : firstDenied s kind (pre ++ c :: post) = some (.mem kind c.1 c.2) := by
  induction pre with
  | nil => simp [firstDenied, hc]
  | cons d pre ih =>
    rw [List.cons_append, firstDenied, if_pos (hpre d List.mem_cons_self)]
    exact ih fun e he => hpre e (List.mem_cons_of_mem d he)

theorem firstDenied_eq_none (h : ∀ d ∈ l, admits s kind d.1 d.2 = true) : firstDenied s kind l = none := by
  induction l with
  | nil => rfl
  | cons d l ih =>
    rw [firstDenied, if_pos (h d List.mem_cons_self)]
    exact ih fun e he => h e (List.mem_cons_of_mem d he)

/-- Where some access is denied there is a first one. -/
theorem exists_firstDenied (hmem : c ∈ l) (hc : admits s kind c.1 c.2 = false) :
    ∃ d ∈ l, admits s kind d.1 d.2 = false ∧ firstDenied s kind l = some (.mem kind d.1 d.2) := by
  induction l with
  | nil => simp at hmem
  | cons d l ih =>
    cases hd : admits s kind d.1 d.2 with
    | false => exact ⟨d, List.mem_cons_self, hd, by simp [firstDenied, hd]⟩
    | true =>
      have hne : c ≠ d := by
        rintro rfl
        simp [hd] at hc
      obtain ⟨e, he, hdenied, hfirst⟩ := ih ((List.mem_cons.mp hmem).resolve_left hne)
      exact ⟨e, List.mem_cons_of_mem d he, hdenied, by rw [firstDenied, if_pos hd, hfirst]⟩

theorem admits_past_space (h : Config.memSize < a + n) : admits s kind a n = false := by
  by_contra hc
  have hin := admits_in_space (eq_true_of_ne_false hc)
  omega

/-! The step in each phase. -/

theorem step_of_engine_turn (hf : s.faultRec = none) (ht : turn s = some .engine) :
    step s = engineStep (popSchedule s) := by
  simp [step, blockStep, hf, ht]

theorem engineStep_bulk_denied (hp : s.phase = .bulk) (h : firstDenied s .read (bulkReads s) = some f) :
    engineStep s = .next (recordFault f s) := by
  simp [engineStep, hp, engineBulk, h]

theorem engineStep_bulk (hp : s.phase = .bulk) (h : ∀ d ∈ bulkReads s, admits s .read d.1 d.2 = true) :
    engineStep s = .next (bulkNext s) := by
  simp [engineStep, hp, engineBulk, firstDenied_eq_none h]

theorem engineStep_rem_denied (hp : s.phase = .rem) (h : firstDenied s .read (remReads s) = some f) :
    engineStep s = .next (recordFault f s) := by
  simp [engineStep, hp, engineRem, h]

theorem engineStep_rem (hp : s.phase = .rem) (h : ∀ d ∈ remReads s, admits s .read d.1 d.2 = true) :
    engineStep s = .next (remNext s) := by
  simp [engineStep, hp, engineRem, firstDenied_eq_none h]

theorem engineStep_red_denied (hp : s.phase = .red) (h : admits s .write (addrSum s s.row.toNat) 4 = false) :
    engineStep s = .next (recordFault (.mem .write (addrSum s s.row.toNat) 4) s) := by
  simp [engineStep, hp, engineRed, firstDenied, h]

theorem engineStep_red (hp : s.phase = .red) (h : admits s .write (addrSum s s.row.toNat) 4 = true) :
    engineStep s = .next (redNext s) := by
  simp [engineStep, hp, engineRed, firstDenied, h]

/-- The two clauses on denied reads that BULK and REM share: the first read denied raises, and one past 2^64 is denied
(20_memory R64, 41_dotxf R185). -/
theorem denied_reads_fault
    (hstep : ∀ f, firstDenied (popSchedule s) .read l = some f → step s = .next (recordFault f (popSchedule s))) :
    (∀ pre a len post, l = pre ++ (a, len) :: post → (∀ c ∈ pre, admits s .read c.1 c.2 = true) →
      admits s .read a len = false →
      step s = .next { s with schedule := s.schedule.tail, faultRec := some (.mem .read a len) }) ∧
    (∀ c ∈ l, 2 ^ 64 < c.1 + c.2 → admits s .read c.1 c.2 = false ∧
      ∃ d ∈ l, admits s .read d.1 d.2 = false ∧
        step s = .next { s with schedule := s.schedule.tail, faultRec := some (.mem .read d.1 d.2) }) := by
  refine ⟨fun pre a len post hl hpre hdenied => ?_, fun c hc hpast => ?_⟩
  · exact hstep _ (hl ▸ firstDenied_append (s := popSchedule s) (c := (a, len)) hpre hdenied)
  · have hdenied := admits_past_space (s := s) (kind := .read) hpast
    obtain ⟨d, hd, hd', hfirst⟩ := exists_firstDenied (s := popSchedule s) hc hdenied
    exact ⟨hdenied, d, hd, hd', hstep _ hfirst⟩

theorem bulkReads_admitted (hx : admits s .read (addrX s s.k.toNat) 32 = true)
    (hy : ∀ i < s.ff.toNat, admits s .read (addrY s i s.k.toNat) 16 = true) :
    ∀ d ∈ bulkReads s, admits s .read d.1 d.2 = true := by
  simp only [bulkReads, List.forall_mem_cons, List.forall_mem_map, List.mem_range]
  exact ⟨hx, hy⟩

theorem remReads_admitted (hx : admits s .read (addrX s s.k.toNat) 4 = true)
    (hy : ∀ i < s.ff.toNat, admits s .read (addrY s i s.k.toNat) 2 = true) :
    ∀ d ∈ remReads s, admits s .read d.1 d.2 = true := by
  simp only [remReads, List.forall_mem_cons, List.forall_mem_map, List.mem_range]
  exact ⟨hx, hy⟩

/-! What the steps compute where nothing is raced. -/

/-- `x[k]` in memory (20_memory R63). -/
def xAt (s : State) (k : Nat) : Single := load32 s.mem (addrX s k)

/-- Element `k` of row `i` in memory (20_memory R63). -/
def yAt (s : State) (i k : Nat) : Half := load16 s.mem (addrY s i k)

theorem racedIn_part (h : unraced s a n) (hm : k + m ≤ n) : racedIn s (a + k) m = false :=
  racedIn_of_unraced fun d hd => by
    rw [Nat.add_assoc]
    exact h (k + d) (by omega)

/-- The elements of a vector read (20_memory R66, R67). -/
theorem racedIn_x (h : unraced s (addrX s k) 32) {j : Fin 8} : racedIn s (addrX s (k + j.val)) 4 = false := by
  rw [show addrX s (k + j.val) = addrX s k + 4 * j.val by unfold addrX; omega]
  exact racedIn_part h (by omega)

theorem racedIn_y (h : unraced s (addrY s i k) 16) {j : Fin 8} : racedIn s (addrY s i (k + j.val)) 2 = false := by
  rw [show addrY s i (k + j.val) = addrY s i k + 2 * j.val by unfold addrY; omega]
  exact racedIn_part h (by omega)

theorem readX_unraced (h : racedIn s (addrX s k) 4 = false) : readX s draw k = xAt s k := by
  simp [readX, h, xAt]

theorem readY_unraced (h : racedIn s (addrY s i k) 2 = false) : readY s draw i k = yAt s i k := by
  simp [readY, h, yAt]

/-- BULK makes one FMA32 of a lane (41_dotxf R163). -/
theorem bulkNext_lane {i j : Fin 8} {r : Option Single} (hi : i.val < s.ff.toNat)
    (hx : racedIn s (addrX s (s.k.toNat + j.val)) 4 = false)
    (hy : racedIn s (addrY s i.val (s.k.toNat + j.val)) 2 = false) (hr : agrees r s.acc[i][j]) :
    agrees (r.bind (fmaCore (xAt s (s.k.toNat + j.val)) (decode16 (yAt s i.val (s.k.toNat + j.val)))))
      (bulkNext s).acc[i][j] := by
  have hacc : (bulkNext s).acc[i][j] = bulkLane s i.val j.val s.acc[i][j] := by simp [bulkNext, hi]
  rw [hacc, bulkLane, fma32, readX_unraced hx, readY_unraced hy]
  exact agrees_bind (fun u hu => fmaCore_of_nan (.inr (.inr hu))) (isNaN_nanResult _) hr

/-- REM takes its element into lane 0 of a row (41_dotxf R166). -/
theorem remNext_lane_zero {i : Fin 8} {r : Option Single} (hi : i.val < s.ff.toNat)
    (hx : racedIn s (addrX s s.k.toNat) 4 = false) (hy : racedIn s (addrY s i.val s.k.toNat) 2 = false)
    (hr : agrees r s.acc[i][0]) :
    agrees (r.bind (remCore s.params.remFused (xAt s s.k.toNat) (decode16 (yAt s i.val s.k.toNat))))
      (remNext s).acc[i][0] := by
  have hacc : (remNext s).acc[i][0] = remLane s i.val s.acc[i][0] := by simp [remNext, hi]
  rw [hacc, remLane, readX_unraced hx, readY_unraced hy]
  exact agrees_bind (fun u hu => remCore_of_nan _ _ _ hu) (isNaN_nanResult _) hr

theorem remNext_lane_kept {i j : Fin 8} (h : ¬(i.val < s.ff.toNat ∧ j.val = 0)) :
    (remNext s).acc[i][j] = s.acc[i][j] := by
  by_cases hi : i.val < s.ff.toNat
  · have hj : ¬0 = j.val := fun hj => h ⟨hi, hj.symm⟩
    simp [remNext, hi, hj]
  · simp [remNext, hi]

/-- RED's single is the tree of row `ROW` (41_dotxf R171). -/
theorem redValue_agrees {i : Fin 8} {lane : Nat → Option Single} (hi : i.val = s.row.toNat)
    (hraced : racedIn s (addrSum s s.row.toNat) 4 = false) (h : ∀ j : Fin 8, agrees (lane j) s.acc[i][j]) :
    agrees (treeOf lane) (redValue s) := by
  have hrow : accRow s s.row.toNat = s.acc[i] := by simp [accRow, ← hi]
  rw [redValue, hraced, if_neg (by decide), hrow]
  exact agrees_rtree (fun k => isNaN_nanResult _) h

/-- Settles O16: the lanes of a row are FMA32s of their own elements, and no other row is written. -/
theorem bulkStep : Obligations.BulkStep := by
  intro s hf ht hp
  have hstep := step_of_engine_turn hf ht
  obtain ⟨hfirst, hpast⟩ := denied_reads_fault (l := bulkReads s)
    fun f h => hstep.trans (engineStep_bulk_denied (s := popSchedule s) hp h)
  refine ⟨hfirst, hpast, fun hx hy hxr hyr => ⟨bulkNext (popSchedule s), ?_, fun i j => ?_, rfl⟩⟩
  · exact hstep.trans (engineStep_bulk (s := popSchedule s) hp (bulkReads_admitted (s := s) hx hy))
  · split_ifs with hi
    · exact bulkNext_lane (s := popSchedule s) (r := some s.acc[i][j]) hi (racedIn_x hxr) (racedIn_y (hyr i hi)) rfl
    · exact congrArg (·[j]) (bulkNext_acc_above (s := popSchedule s) (by simpa using hi))

/-- Settles O17: lane 0 of a row takes one FMA32, and nothing else is written. -/
theorem remStep : Obligations.RemStep := by
  intro s hf ht hp
  have hstep := step_of_engine_turn hf ht
  obtain ⟨hfirst, hpast⟩ := denied_reads_fault (l := remReads s)
    fun f h => hstep.trans (engineStep_rem_denied (s := popSchedule s) hp h)
  refine ⟨hfirst, hpast, fun hx hy hxr hyr hfused => ⟨remNext (popSchedule s), ?_, fun i j => ?_, rfl⟩⟩
  · exact hstep.trans (engineStep_rem (s := popSchedule s) hp (remReads_admitted (s := s) hx hy))
  · split_ifs with hij
    · obtain ⟨hi, hj⟩ := hij
      obtain rfl : j = 0 := Fin.ext hj
      have hlane := remNext_lane_zero (s := popSchedule s) (r := some s.acc[i][0]) hi (racedIn_of_unraced hxr)
        (racedIn_of_unraced (hyr i hi)) rfl
      rw [popSchedule_params, hfused] at hlane
      exact hlane
    · exact remNext_lane_kept (s := popSchedule s) hij

/-- Settles O19: an admitted write lies in the data space, so the tree is read back. -/
theorem redStep : Obligations.RedStep := by
  intro s hinv hm hf ht hp
  have hstep := step_of_engine_turn hf ht
  refine ⟨admits_past_space, fun ha => ?_,
    fun ha hraced => ⟨redNext (popSchedule s), ?_, fun r hr => ?_, fun b hb => ?_, ?_⟩⟩
  · exact hstep.trans (engineStep_red_denied (s := popSchedule s) hp ha)
  · exact hstep.trans (engineStep_red (s := popSchedule s) hp ha)
  · have hvalue := redValue_agrees (s := popSchedule s) (lane := fun j => s.acc[r][j]?) hr (racedIn_of_unraced hraced)
      fun j => by simp [agrees]
    have hload : load32 (redNext (popSchedule s)).mem (addrSum s s.row.toNat) = redValue (popSchedule s) :=
      load32_store32_same hm (admits_in_space ha) _
    exact hload ▸ hvalue
  · exact readByte_store32_out hb s.mem _
  · simp only [redNext, beq_iff_eq]
    rfl

end Sys2Proof.Machine
end

section
/-! The lanes of a row as the elements are consumed (41_dotxf R165, R169): what BULK and REM add, and where
that ends. -/

namespace Sys2Proof.Machine

variable {fused : Bool} {n k j : Nat} {x : Nat → Single} {y : Nat → Half}

/-- Lane `j` of a row of `n` elements once `k` of them are consumed. -/
def consumedLane (fused : Bool) (n : Nat) (x : Nat → Single) (y : Nat → Half) (j k : Nat) : Option Single :=
  if j = 0 then
    laneAfterRem fused x y (8 * (n / 8)) (laneAfterBulk x y 0 (min (k / 8) (n / 8))) (k - 8 * (n / 8))
  else laneAfterBulk x y j (min (k / 8) (n / 8))

theorem consumedLane_start : consumedLane fused n x y j 0 = some 0x00000000#32 := by
  simp [consumedLane, laneAfterBulk, laneAfterRem]

theorem consumedLane_end : consumedLane fused n x y j n = finalLane fused n x y j := by
  rw [consumedLane, finalLane, Nat.min_self, show n - 8 * (n / 8) = n % 8 by omega]

/-- While BULK goes on only whole vectors are consumed. -/
theorem consumedLane_vectors (h : k ≤ 8 * (n / 8)) : consumedLane fused n x y j k = laneAfterBulk x y j (k / 8) := by
  rw [consumedLane, Nat.min_eq_left (by omega), Nat.sub_eq_zero_of_le h]
  split
  · next hj => rw [hj, laneAfterRem]
  · rfl

theorem consumedLane_bulk (h8 : k % 8 = 0) (hn : k + 8 ≤ n) :
    consumedLane fused n x y j (k + 8) =
      (consumedLane fused n x y j k).bind (fmaCore (x (k + j)) (decode16 (y (k + j)))) := by
  rw [consumedLane_vectors (by omega), consumedLane_vectors (by omega), Nat.add_div_right k (by decide), laneAfterBulk,
    show 8 * (k / 8) = k by omega]

theorem consumedLane_rem_zero (hk : 8 * (n / 8) ≤ k) :
    consumedLane fused n x y 0 (k + 1) =
      (consumedLane fused n x y 0 k).bind (remCore fused (x k) (decode16 (y k))) := by
  rw [consumedLane, consumedLane, if_pos rfl, if_pos rfl, Nat.min_eq_right (by omega), Nat.min_eq_right (by omega),
    show k + 1 - 8 * (n / 8) = k - 8 * (n / 8) + 1 by omega, laneAfterRem, Nat.add_sub_cancel' hk]

/-- REM leaves lanes 1 to 7 as they are (41_dotxf R168). -/
theorem consumedLane_rem_other (hk : 8 * (n / 8) ≤ k) (hj : j ≠ 0) :
    consumedLane fused n x y j (k + 1) = consumedLane fused n x y j k := by
  rw [consumedLane, consumedLane, if_neg hj, if_neg hj, Nat.min_eq_right (by omega), Nat.min_eq_right (by omega)]

end Sys2Proof.Machine
end

section
/-! The counters of a running command (10_state R38, R39), and how many engine steps are left (41_dotxf R160). -/

namespace Sys2Proof.Machine

variable {s : State}

theorem SeqInv.k_after_bulk (h : SeqInv s) (hp : s.phase = .bulk) : (s.k + 8#64).toNat = s.k.toNat + 8 := by
  obtain ⟨hn, -, -⟩ := h.in_bulk hp
  have := s.n.isLt
  rw [BitVec.toNat_add, BitVec.toNat_ofNat]
  omega

theorem SeqInv.k_after_rem (h : SeqInv s) (hp : s.phase = .rem) : (s.k + 1#64).toNat = s.k.toNat + 1 := by
  obtain ⟨hn, -, -⟩ := h.in_rem hp
  have := s.n.isLt
  rw [BitVec.toNat_add, BitVec.toNat_ofNat]
  omega

theorem SeqInv.row_after_red (h : SeqInv s) (hp : s.phase = .red) : (s.row + 1#4).toNat = s.row.toNat + 1 := by
  obtain ⟨-, hrow⟩ := h.in_red hp
  have := h.ff_range
  rw [BitVec.toNat_add, BitVec.toNat_ofNat]
  omega

theorem stepsLeft_idle (hp : s.phase = .idle) : stepsLeft s = 0 := by
  rw [stepsLeft, hp]

theorem stepsLeft_running (hp : s.phase ≠ .idle) :
    stepsLeft s =
      (s.n.toNat - s.k.toNat) / 8 + (s.n.toNat - s.k.toNat) % 8 + (s.ff.toNat - s.row.toNat) := by
  rw [stepsLeft]
  split
  · contradiction
  · rfl

theorem stepsLeft_bulkNext (h : SeqInv s) (hp : s.phase = .bulk) : stepsLeft (bulkNext s) + 1 = stepsLeft s := by
  obtain ⟨hn, -, -⟩ := h.in_bulk hp
  rw [stepsLeft_running (s := bulkNext s) nextPhase_ne_idle, stepsLeft_running (s := s) (by simp [hp])]
  simp only [bulkNext_n, bulkNext_k, bulkNext_ff, bulkNext_row, h.k_after_bulk hp]
  omega

theorem stepsLeft_remNext (h : SeqInv s) (hp : s.phase = .rem) : stepsLeft (remNext s) + 1 = stepsLeft s := by
  obtain ⟨hn, hlast, -⟩ := h.in_rem hp
  rw [stepsLeft_running (s := remNext s) nextPhase_ne_idle, stepsLeft_running (s := s) (by simp [hp])]
  simp only [remNext_n, remNext_k, remNext_ff, remNext_row, h.k_after_rem hp]
  omega

theorem stepsLeft_redNext (h : SeqInv s) (hp : s.phase = .red) : stepsLeft (redNext s) + 1 = stepsLeft s := by
  obtain ⟨hk, hrow⟩ := h.in_red hp
  have hnext := h.row_after_red hp
  rw [stepsLeft_running (s := s) (by simp [hp]), hk]
  by_cases hlast : s.row + 1#4 = s.ff
  · rw [stepsLeft_idle (by simp [hlast])]
    rw [hlast] at hnext
    omega
  · rw [stepsLeft_running (by simp [hlast])]
    simp only [redNext_n, redNext_k, redNext_ff, redNext_row, hk]
    omega

end Sys2Proof.Machine
end

section
/-! A command that nobody disturbs: each of its accesses is admitted and none is raced (20_memory R64, R73, R74). -/

namespace Sys2Proof.Machine

variable {b : State} {i k : Nat}

/-- The command that runs in `b` meets the host's duties, and no host and no peer is in its way (70 R233, 20_memory R73,
R74). -/
structure Undisturbed (b : State) : Prop where
  healthy : healthy b
  silent : b.hostQueue = []
  notRaced : b.raced = []
  admitted : commandAdmitted b b.ff.toNat
  apart : peersApart b b.ff.toNat

theorem racedIn_of_no_overlap {a n : Nat} (hraced : b.raced = [])
    (h : ∀ p ∈ b.peers, ∀ d < 4 * (p.f.toNat + 1), peerAddr p 0 + d < a ∨ a + n ≤ peerAddr p 0 + d) :
    racedIn b a n = false := by
  by_contra hc
  obtain ⟨c, hlow, hhigh, hmem | hsum⟩ := racedIn_iff.mp (eq_true_of_ne_false hc)
  · simp [hraced] at hmem
  · obtain ⟨p, hp, h1, h2⟩ := inPeerSums_iff.mp hsum
    have hout := h p hp (c - p.sumBase.toNat) (by omega)
    unfold peerAddr at hout
    omega

theorem Undisturbed.racedIn_x (h : Undisturbed b) (hk : k < b.n.toNat) : racedIn b (addrX b k) 4 = false :=
  racedIn_of_no_overlap h.notRaced fun p hp d hd => (h.apart p hp d hd).1 k hk

theorem Undisturbed.racedIn_y (h : Undisturbed b) (hi : i < b.ff.toNat) (hk : k < b.n.toNat) :
    racedIn b (addrY b i k) 2 = false :=
  racedIn_of_no_overlap h.notRaced fun p hp d hd => (h.apart p hp d hd).2.1 i hi k hk

theorem Undisturbed.racedIn_sum (h : Undisturbed b) (hi : i < b.ff.toNat) : racedIn b (addrSum b i) 4 = false :=
  racedIn_of_no_overlap h.notRaced fun p hp d hd => (h.apart p hp d hd).2.2 i hi

/-- A vector whose elements are admitted is admitted (20_memory R64, R66). -/
theorem admits_vector {kind : AccessKind} {a size count : Nat} (hcount : 0 < count)
    (h : ∀ e < count, admits b kind (a + size * e) size = true) : admits b kind a (size * count) = true := by
  simp only [admits, Bool.and_eq_true, decide_eq_true_eq, List.all_eq_true, List.mem_range] at h ⊢
  obtain ⟨c, rfl⟩ := Nat.exists_eq_succ_of_ne_zero hcount.ne'
  refine ⟨?_, fun d hd => ?_⟩
  · have hlast := (h c (Nat.lt_succ_self c)).1
    rw [Nat.mul_succ, ← Nat.add_assoc]
    exact hlast
  · have hsize : 0 < size := Nat.pos_of_mul_pos_right (Nat.zero_lt_of_lt hd)
    have hbyte := (h (d / size) (Nat.div_lt_of_lt_mul hd)).2 (d % size) (Nat.mod_lt d hsize)
    rwa [Nat.add_assoc, Nat.div_add_mod] at hbyte

theorem Undisturbed.bulk_admitted (h : Undisturbed b) (hk : b.k.toNat + 8 ≤ b.n.toNat) :
    ∀ d ∈ bulkReads b, admits b .read d.1 d.2 = true := by
  refine bulkReads_admitted (admits_vector (size := 4) (count := 8) (by decide) fun e he => ?_)
    fun i hi => admits_vector (size := 2) (count := 8) (by decide) fun e he => ?_
  · have hx := (h.admitted.1 (b.k.toNat + e) (by omega)).1
    rwa [show addrX b b.k.toNat + 4 * e = addrX b (b.k.toNat + e) by unfold addrX; omega]
  · have hy := (h.admitted.1 (b.k.toNat + e) (by omega)).2 i hi
    rwa [show addrY b i b.k.toNat + 2 * e = addrY b i (b.k.toNat + e) by unfold addrY; omega]

theorem Undisturbed.rem_admitted (h : Undisturbed b) (hk : b.k.toNat < b.n.toNat) :
    ∀ d ∈ remReads b, admits b .read d.1 d.2 = true :=
  remReads_admitted (h.admitted.1 _ hk).1 (h.admitted.1 _ hk).2

end Sys2Proof.Machine
end

section
/-! The way of an undisturbed command (41_dotxf R160). Its block takes engine steps alone, and each of them keeps one
predicate, `Progress`: the lanes hold what is made of the elements consumed, `sum` the results of the rows reduced. -/

namespace Sys2Proof.Machine

variable {b t : State}

/-- The result of row `r` of the command that runs in `b`, from the elements now in memory (41_dotxf R172). -/
def resultOf (b : State) (r : Nat) : Option Single := rowResult b.params.remFused b.n.toNat (xAt b) (yAt b r)

/-- `b` with all that a running command changes taken from `t`. -/
def withProgressOf (t b : State) : State :=
  { b with
    status := t.status
    phase := t.phase
    k := t.k
    row := t.row
    acc := t.acc
    mem := t.mem
    schedule := t.schedule
    draws := t.draws }

/-- `t` is a state on the way of the command that has just started in `b`. -/
structure Progress (b t : State) : Prop where
  inv : SeqInv t
  wf : memInv t
  frame : t = withProgressOf t b
  /-- REM comes after every whole vector (41_dotxf R162). -/
  in_rem : t.phase = .rem → 8 * (b.n.toNat / 8) ≤ t.k.toNat
  lanes : ∀ i j : Fin 8, i.val < b.ff.toNat →
    agrees (consumedLane b.params.remFused b.n.toNat (xAt b) (yAt b i) j t.k.toNat) t.acc[i][j]
  sums : ∀ r < t.row.toNat, agrees (resultOf b r) (load32 t.mem (addrSum b r))
  kept : ∀ c, (∀ r < t.row.toNat, c < addrSum b r ∨ addrSum b r + 4 ≤ c) → readByte t.mem c = readByte b.mem c
  ended : t.phase = .idle → t.row = b.ff ∧ t.status = 0x2#64

theorem frame_trans {u : State} (ht : t = withProgressOf t b) (hu : u = withProgressOf u t) : u = withProgressOf u b :=
  hu.trans (congrArg (withProgressOf u) ht :)

/-- Taking a schedule entry is no change to a command. -/
theorem Progress.entry_taken (h : Progress b t) : Progress b (popSchedule t) :=
  ⟨h.inv.of_frame rfl, h.wf, frame_trans h.frame rfl, h.in_rem, h.lanes, h.sums, h.kept, h.ended⟩

/-- A command changes nothing by which it could be disturbed. -/
theorem Progress.undisturbed (h : Progress b t) (hb : Undisturbed b) : Undisturbed t := by
  rw [h.frame]
  exact ⟨hb.healthy, hb.silent, hb.notRaced, hb.admitted, hb.apart⟩

theorem Progress.n_eq (h : Progress b t) : t.n = b.n := (congrArg State.n h.frame :)

theorem Progress.ff_eq (h : Progress b t) : t.ff = b.ff := (congrArg State.ff h.frame :)

theorem Progress.params_eq (h : Progress b t) : t.params = b.params := (congrArg State.params h.frame :)

theorem Progress.addrX_eq (h : Progress b t) (k : Nat) : addrX t k = addrX b k :=
  (congrArg (addrX · k) h.frame :)

theorem Progress.addrY_eq (h : Progress b t) (i k : Nat) : addrY t i k = addrY b i k :=
  (congrArg (addrY · i k) h.frame :)

theorem Progress.addrSum_eq (h : Progress b t) (i : Nat) : addrSum t i = addrSum b i :=
  (congrArg (addrSum · i) h.frame :)

/-! Before the first RED memory is as it was. -/

theorem Progress.xAt_eq (h : Progress b t) (hrow : t.row = 0#4) (k : Nat) : xAt t k = xAt b k := by
  rw [xAt, xAt, h.addrX_eq]
  exact load32_congr fun d _ => h.kept _ (by simp [hrow])

theorem Progress.yAt_eq (h : Progress b t) (hrow : t.row = 0#4) (i k : Nat) : yAt t i k = yAt b i k := by
  rw [yAt, yAt, h.addrY_eq]
  exact load16_congr fun d _ => h.kept _ (by simp [hrow])

theorem Progress.bulk (h : Progress b t) (ht : Undisturbed t) (hp : t.phase = .bulk) : Progress b (bulkNext t) := by
  obtain ⟨hn, h8, hrow⟩ := h.inv.in_bulk hp
  have hk := h.inv.k_after_bulk hp
  refine ⟨seqInv_bulkNext h.inv hp, h.wf, frame_trans h.frame rfl, fun hrem => ?_, fun i j hi => ?_, h.sums, h.kept,
    fun hidle => absurd hidle nextPhase_ne_idle⟩
  · obtain ⟨-, hlast⟩ := nextPhase_eq_rem.mp hrem
    rw [h.n_eq] at hlast
    rw [bulkNext_k]
    omega
  · have hi' : i.val < t.ff.toNat := by rwa [h.ff_eq]
    have hlane := bulkNext_lane hi' (ht.racedIn_x (by omega)) (ht.racedIn_y hi' (by omega)) (h.lanes i j hi)
    rw [h.n_eq] at hn
    rw [h.xAt_eq hrow, h.yAt_eq hrow, ← consumedLane_bulk h8 hn, ← hk] at hlane
    exact hlane

theorem Progress.rem (h : Progress b t) (ht : Undisturbed t) (hp : t.phase = .rem) : Progress b (remNext t) := by
  obtain ⟨hn, -, hrow⟩ := h.inv.in_rem hp
  have hvectors := h.in_rem hp
  have hk := h.inv.k_after_rem hp
  refine ⟨seqInv_remNext h.inv hp, h.wf, frame_trans h.frame rfl, fun _ => ?_, fun i j hi => ?_, h.sums, h.kept,
    fun hidle => absurd hidle nextPhase_ne_idle⟩
  · rw [remNext_k]
    omega
  · have hi' : i.val < t.ff.toNat := by rwa [h.ff_eq]
    rw [remNext_k, hk]
    by_cases hj : j = 0
    · subst hj
      have hlane := remNext_lane_zero hi' (ht.racedIn_x hn) (ht.racedIn_y hi' hn) (h.lanes i 0 hi)
      rw [h.xAt_eq hrow, h.yAt_eq hrow, h.params_eq] at hlane
      exact (consumedLane_rem_zero hvectors).symm ▸ hlane
    · have hj' : j.val ≠ 0 := fun e => hj (Fin.ext e)
      rw [consumedLane_rem_other hvectors hj', remNext_lane_kept fun hc => hj' hc.2]
      exact h.lanes i j hi

/-- RED stores the result of row `ROW`, and the rows before it stay. -/
theorem Progress.red (h : Progress b t) (ht : Undisturbed t) (hp : t.phase = .red) : Progress b (redNext t) := by
  obtain ⟨hkn, hrow⟩ := h.inv.in_red hp
  have hff := h.inv.ff_range
  have hnext := h.inv.row_after_red hp
  have hspace := admits_in_space (ht.admitted.2 _ hrow)
  have hconsumed : t.k.toNat = b.n.toNat := by rw [hkn, h.n_eq]
  have hresult : agrees (resultOf b t.row.toNat) (redValue t) := by
    refine redValue_agrees (i := ⟨t.row.toNat, by omega⟩) rfl (ht.racedIn_sum hrow) fun j => ?_
    have hlane := h.lanes ⟨t.row.toNat, by omega⟩ j (by rwa [← h.ff_eq])
    rwa [hconsumed, consumedLane_end] at hlane
  refine ⟨seqInv_redNext h.inv hp, store32_wf h.wf _ _, frame_trans h.frame rfl, fun hrem => ?_, h.lanes,
    fun r hr => ?_, fun c hc => ?_, fun hidle => ?_⟩
  · rw [redNext_k, hconsumed]
    exact Nat.mul_div_le ..
  · rw [redNext_row, hnext] at hr
    rw [redNext_mem, ← h.addrSum_eq]
    rcases Nat.lt_succ_iff_lt_or_eq.mp hr with hold | rfl
    · have hsum := h.sums r hold
      rw [← h.addrSum_eq] at hsum
      rwa [load32_congr fun d hd => readByte_store32_out (by unfold addrSum; omega) _ _]
    · rwa [load32_store32_same h.wf hspace]
  · rw [redNext_row, hnext] at hc
    have hrow' := hc t.row.toNat (Nat.lt_succ_self _)
    rw [← h.addrSum_eq] at hrow'
    rw [redNext_mem, readByte_store32_out hrow']
    exact h.kept c fun r hr => hc r (hr.trans (Nat.lt_succ_self _))
  · have hlast : t.row + 1#4 = t.ff := by
      by_contra hmore
      simp [hmore] at hidle
    refine ⟨hlast.trans h.ff_eq, ?_⟩
    rw [redNext_status, if_pos (beq_iff_eq.mpr hlast), statusFinished_of_reserved h.inv.reserved]

/-- Each step of a running command makes progress and leaves one step fewer. -/
theorem Progress.step (h : Progress b t) (hb : Undisturbed b) (hp : t.phase ≠ .idle) :
    ∃ u, step t = .next u ∧ Progress b u ∧ stepsLeft u + 1 = stepsLeft t := by
  have hquiet := (h.undisturbed hb).silent
  have hturn : turn t = some .engine := by simp [turn, hostReady, engineReady, hquiet, hp]
  have hfault := (h.undisturbed hb).healthy.1
  have h' := h.entry_taken
  have ht := h'.undisturbed hb
  rw [step_of_engine_turn hfault hturn, show stepsLeft t = stepsLeft (popSchedule t) from rfl]
  cases hph : (popSchedule t).phase with
  | idle => exact absurd hph hp
  | bulk =>
    obtain ⟨hn, -, -⟩ := h'.inv.in_bulk hph
    exact ⟨_, engineStep_bulk hph (ht.bulk_admitted hn), h'.bulk ht hph, stepsLeft_bulkNext h'.inv hph⟩
  | rem =>
    obtain ⟨hn, -, -⟩ := h'.inv.in_rem hph
    exact ⟨_, engineStep_rem hph (ht.rem_admitted hn), h'.rem ht hph, stepsLeft_remNext h'.inv hph⟩
  | red =>
    obtain ⟨-, hrow⟩ := h'.inv.in_red hph
    exact ⟨_, engineStep_red hph (ht.admitted.2 _ hrow), h'.red ht hph, stepsLeft_redNext h'.inv hph⟩

/-- An undisturbed command ends after exactly the steps it has left. -/
theorem Progress.run (h : Progress b t) (hb : Undisturbed b) :
    ∃ u, Host.Core.run Sys2Proof.core (stepsLeft t) t = .next u ∧ Progress b u ∧ u.phase = .idle := by
  induction hm : stepsLeft t generalizing t with
  | zero =>
    refine ⟨t, rfl, h, ?_⟩
    by_contra hp
    obtain ⟨u, -, -, hleft⟩ := h.step hb hp
    omega
  | succ m ih =>
    have hp : t.phase ≠ .idle := fun hp => by simp [stepsLeft_idle hp] at hm
    obtain ⟨u, hstep, hu, hleft⟩ := h.step hb hp
    rw [run_succ hstep]
    exact ih hu (by omega)

end Sys2Proof.Machine
end

section
/-! Whole commands, from START to the end (41_dotxf R172 to R174). -/

namespace Sys2Proof.Machine

theorem zeroRows_lane {f : Nat} {acc : Vector Lanes 8} {i j : Fin 8} (hi : i.val < f) :
    (zeroRows f acc)[i][j] = 0x00000000#32 := by
  simp [zeroRows, hi]

/-- START has consumed nothing and reduced nothing. -/
theorem progress_started {s : State} {v : Word} (h : SeqInv s) (hm : memInv s) (hf : startFault v s = none) :
    Progress (started v s) (started v s) := by
  refine ⟨seqInv_started h hf, hm, rfl, fun hrem => ?_, fun i j hi => ?_, by simp, fun _ _ => rfl,
    fun hidle => absurd hidle nextPhase_ne_idle⟩
  · obtain ⟨-, hlast⟩ := nextPhase_eq_rem.mp hrem
    rw [started_n]
    omega
  · rw [started_ff] at hi
    rw [started_acc, zeroRows_lane hi, started_k, BitVec.toNat_zero, consumedLane_start]
    rfl

theorem stepsLeft_started (v : Word) (s : State) :
    stepsLeft (started v s) = s.n.toNat / 8 + s.n.toNat % 8 + (fusionOf v).toNat := by
  rw [stepsLeft_running (s := started v s) nextPhase_ne_idle]
  simp

/-- Settles O23: START, and then `Progress` to the end. -/
theorem commandWritesItsSums : Obligations.CommandWritesItsSums := by
  intro i f v hrow s hinv hm hh hready hq hadm hapart
  have hv := isDotxfCmd_of_row hrow
  obtain ⟨-, -, -, hfusion⟩ := dotxfTable_row hrow
  obtain ⟨-, -, hf8⟩ := dotxfTable_opcode hrow
  have hff : (fusionOf v).toNat = f := by
    rw [hfusion, BitVec.toNat_ofNat]
    omega
  have hstart := step_cmd_starts hh.1 (hinv.idle_iff.mpr hready.1) hready hv hq
  have hnone : startFault v (popHost (popSchedule s)) = none := startFault_none_iff.mpr ⟨hv, hready.2⟩
  have hb : Undisturbed (started v (popHost (popSchedule s))) :=
    ⟨hh, by simp [hq], rfl, by rw [started_ff, hff]; exact hadm, by rw [started_ff, hff]; exact hapart⟩
  have hprogress := progress_started (s := popHost (popSchedule s)) (hinv.of_frame rfl) hm hnone
  obtain ⟨t, hrun, ht, hidle⟩ := hprogress.run hb
  obtain ⟨hrows, hstatus⟩ := ht.ended hidle
  rw [stepsLeft_started, hff] at hrun
  have hdone : t.row.toNat = f := by rw [hrows, started_ff, hff]
  refine ⟨t, ?_, hstatus, hidle, (ht.undisturbed hb).healthy, fun r hr => ht.sums r (hdone ▸ hr),
    fun c hc => ht.kept c fun r hr => hc r (hdone ▸ hr), ?_⟩
  · rw [Nat.add_assoc, Nat.add_assoc, Nat.add_comm, run_succ hstart, ← Nat.add_assoc]
    exact hrun
  · rw [ht.frame]
    exact ⟨rfl, rfl, rfl, rfl, rfl, rfl⟩

/-! What follows for all commands. -/

theorem rowResult_empty (fused : Bool) (x : Nat → Single) (y : Nat → Half) :
    rowResult fused 0 x y = some 0x00000000#32 := by
  have hlanes : finalLane fused 0 x y = fun _ => some 0x00000000#32 := by
    funext j
    rw [← consumedLane_end, consumedLane_start]
  rw [rowResult, hlanes]
  decide

/-- With its arguments written START can only find the bases misaligned. -/
theorem startFault_misaligned {s : State} {v : Word} (hv : isDotxfCmd v = true) (hargs : argsWritten s = true)
    (h : ¬basesAligned s) : ∃ r w, startFault v s = some (.misaligned r w) := by
  simp only [argsWritten, Bool.and_eq_true] at hargs
  obtain ⟨⟨⟨⟨hx, hy⟩, hstride⟩, hsum⟩, hn⟩ := hargs
  simp only [startFault, hv, hx, hy, hstride, hsum, hn, Bool.not_true, Bool.false_eq_true, if_false]
  split_ifs with h1 h2 h3
  · exact ⟨_, _, rfl⟩
  · exact ⟨_, _, rfl⟩
  · exact ⟨_, _, rfl⟩
  · exact absurd ⟨not_not.mp h1, not_not.mp h2, not_not.mp h3⟩ h

/-- Settles O25: a command without elements is one of O23's, whose reads are none. -/
theorem zeroLengthCommand : Obligations.ZeroLengthCommand := by
  refine ⟨fun i f v hrow s hinv hm hh hready hn hq hadm hapart => ⟨?_, ?_⟩, fun i f v hrow s hb hargs hn hmis => ?_⟩
  · have hstart := step_cmd_starts hh.1 (hinv.idle_iff.mpr hready.1) hready (isDotxfCmd_of_row hrow) hq
    exact ⟨_, run_succ hstart 0, nextPhase_eq_red.mpr (by simp [hn])⟩
  · obtain ⟨t, hrun, hstatus, -, hht, hsums, -⟩ :=
      commandWritesItsSums i f v hrow s hinv hm hh hready hq ⟨by simp [hn], hadm⟩ hapart
    rw [hn] at hrun hsums
    refine ⟨t, hrun, hstatus, hht, fun r hr => ?_⟩
    have hsum := hsums r hr
    rwa [BitVec.toNat_zero, rowResult_empty] at hsum
  · obtain ⟨r, w, hfault⟩ := startFault_misaligned (isDotxfCmd_of_row hrow) hargs hmis
    exact ⟨r, w, (exec_dotxf hrow s).trans (startCommand_idle_fault hb hfault)⟩

/-- Settles O26: by O23 both singles agree with the result of one row. -/
theorem rowsAreIndependent : Obligations.RowsAreIndependent := by
  intro i f v hrow r s u t w hr hinv hm hh hready hq hadm hapart hinv' hm' hh' hready' hq' hadm' hapart' hmem hn hx
    hparams hy hrun hrun'
  obtain ⟨t', ht, -, -, -, hsums, -⟩ := commandWritesItsSums i f v hrow s hinv hm hh hready hq hadm hapart
  obtain ⟨w', hw, -, -, -, hsums', -⟩ :=
    commandWritesItsSums .dotxf1 1 0x10#64 (by decide) u hinv' hm' hh' hready' hq' hadm' hapart'
  obtain rfl := Host.Outcome.next.inj (ht.symm.trans hrun)
  obtain rfl := Host.Outcome.next.inj (hw.symm.trans hrun')
  have haddrX : ∀ k, addrX u k = addrX s k := fun k => by rw [addrX, addrX, hx]
  have haddrY : ∀ k, addrY u 0 k = addrY s r k := fun k => by
    rw [addrY, hy, addrY, addrY]
    omega
  have hrow0 := hsums' 0 (by decide)
  simp only [hmem, hn, hparams, haddrX, haddrY] at hrow0
  exact eq_or_nan_of_agrees (hsums r hr) hrow0

end Sys2Proof.Machine
end

section
/-! Reset and rest (70_reset_and_hazards R230, 60_exceptions R215), and the polls of `WAIT` (70 R237, 30_encoding R98). -/

namespace Sys2Proof.Machine

variable {s t : State}

/-- With the engine in IDLE and the host silent no agent has a step. -/
theorem turn_resting (hp : s.phase = .idle) (hq : s.hostQueue = []) : turn s = none := by
  simp [turn, hostReady, engineReady, hp, hq]

theorem step_resting (hh : healthy s) (hp : s.phase = .idle) (hq : s.hostQueue = []) : step s = .next s := by
  obtain ⟨hfault, hmark⟩ := hh
  simp [step, blockStep, restingStep, hfault, hmark, turn_resting hp hq]

/-- Settles O5: reset writes these fields with the values of `State.reset`, and a block so left rests. -/
theorem resetLeavesSpecValues : Obligations.ResetLeavesSpecValues :=
  ⟨⟨rfl, rfl, rfl, rfl, rfl⟩, fun s => ⟨resetBlock s, rfl, rfl, rfl, rfl, rfl, rfl, rfl, step_resting ⟨rfl, rfl⟩ rfl⟩⟩

theorem pollWait_eq (s : State) :
    pollWait s =
      { s with
        hostQueue := if done s = true then s.hostQueue else .wait :: s.hostQueue
        observed := some (.window 0x08 (regValue .status s)) } := by
  rw [pollWait]
  split <;> rfl

/-- Settles O51: the `WAIT`, taken from the queue for its poll, is put back when `DONE` reads 0. -/
theorem waitEndsWhenDone : Obligations.WaitEndsWhenDone := by
  intro s rest hf ht hq
  rw [step_of_host_turn hf ht hq, hostAct, pollWait_eq]
  rfl

/-- An idle block without a result, polled by a host that only waits. -/
structure Waiting (s : State) : Prop where
  noFault : s.faultRec = none
  idle : s.phase = .idle
  notDone : done s = false
  polls : s.hostQueue = [.wait]

/-- A poll that reads `DONE = 0` is followed by another. -/
theorem Waiting.step (h : Waiting s) : ∃ t, step s = .next t ∧ Waiting t := by
  have hturn := turn_idle h.idle (by simp [h.polls])
  exact ⟨_, waitEndsWhenDone s [] h.noFault hturn h.polls, h.noFault, h.idle, h.notDone, by simp [h.notDone]⟩

theorem Waiting.run (h : Waiting s) (m : Nat) : ∃ t, Host.Core.run Sys2Proof.core m s = .next t ∧ Waiting t := by
  induction m generalizing s with
  | zero => exact ⟨s, rfl, h⟩
  | succ m ih =>
    obtain ⟨u, hstep, hu⟩ := h.step
    rw [run_succ hstep]
    exact ih hu

/-- Settles O47: no poll ends the `WAIT`, and no other agent has a step. -/
theorem waitWithoutCommandHangs : Obligations.WaitWithoutCommandHangs := by
  intro s _ hh hp hd hq m
  obtain ⟨t, hrun, ht⟩ := Waiting.run ⟨hh.1, hp, hd, hq⟩ m
  exact ⟨t, hrun, ht.polls, ht.notDone⟩

end Sys2Proof.Machine
end

section
/-! A running command keeps its arguments, `CMD` and `FF` (70_reset_and_hazards R234, 41_dotxf R187). -/

namespace Sys2Proof.Machine

variable {s t : State}

/-- The arguments with their marks, `CMD` and `FF` are in `t` what they are in `s`. -/
def KeepsArguments (s t : State) : Prop :=
  t.xBase = s.xBase ∧ t.yBase = s.yBase ∧ t.stride = s.stride ∧ t.sumBase = s.sumBase ∧ t.n = s.n ∧ t.cmd = s.cmd ∧
  t.ff = s.ff ∧ t.written = s.written

theorem KeepsArguments.refl (s : State) : KeepsArguments s s := ⟨rfl, rfl, rfl, rfl, rfl, rfl, rfl, rfl⟩

theorem keepsArguments_engineStep (h : engineStep s = .next t) : KeepsArguments s t := by
  rw [engineStep_frame h]
  exact .refl s

theorem keepsArguments_pollWait (s : State) : KeepsArguments s (pollWait s) := by
  rw [pollWait_eq]
  exact .refl s

theorem keepsArguments_peerMoves (h : PeerMoves s t) : KeepsArguments s t := by
  cases h <;> exact .refl s

/-- While busy, START and the writes of arguments are faults (10_state R35); a reset alone is left to change them. -/
theorem keepsArguments_hostAct {a : HostAction} (hb : busy s = true) (ha : a ≠ .reset) (hact : hostAct a s = .next t) :
    KeepsArguments s t := by
  rcases hostAct_cases hact with ⟨f, rfl⟩ | (rfl | ⟨u, -, rfl⟩) | ⟨v, -, hidle, -, rfl⟩ | ⟨r, v, -, -, hidle, rfl⟩ |
    ⟨r, -, -, rfl⟩ | ⟨-, rfl⟩ | ⟨p, bs, -, -, -, rfl⟩ | ⟨p, bs, -, -, -, rfl⟩ | ⟨p, n, -, -, rfl⟩ |
    ⟨m, u, i, w, -, -, rfl⟩ | ⟨hreset, -⟩ | ⟨-, hm⟩
  · exact .refl s
  · exact .refl s
  · exact .refl s
  · simp [hb] at hidle
  · simp [hb] at hidle
  · exact .refl s
  · exact keepsArguments_pollWait s
  · exact .refl s
  · exact .refl s
  · exact .refl s
  · exact .refl s
  · exact absurd hreset ha
  · exact keepsArguments_peerMoves hm

theorem SeqInv.busy_running (h : SeqInv s) (hp : s.phase ≠ .idle) : busy s = true := by
  simp [busy, h.status_running hp]

theorem SeqInv.not_done_running (h : SeqInv s) (hp : s.phase ≠ .idle) : done s = false := by
  simp [done, h.status_running hp]

/-- Settles O27: the block is busy, and the host's interaction is no reset. -/
theorem runningCommandKeepsArguments : Obligations.RunningCommandKeepsArguments := by
  intro s t h hp hnoreset hstep
  rcases step_cases hstep with ⟨-, hreset, -⟩ | ⟨-, -, he⟩ | ⟨-, -, a, rest, hq, ha⟩ | ⟨-, -, -, rfl⟩
  · exact absurd hreset hnoreset
  · exact keepsArguments_engineStep (s := popSchedule s) he
  · refine keepsArguments_hostAct (s := popHost (popSchedule s)) (h.busy_running hp) ?_ ha
    rintro rfl
    exact hnoreset (congrArg List.head? hq)
  · exact KeepsArguments.refl t

end Sys2Proof.Machine
end

section
/-! The engine of a running command goes on to the end (70_reset_and_hazards R239, 41_dotxf R160). -/

namespace Sys2Proof.Machine

variable {s t : State}

theorem turn_running_silent (hp : s.phase ≠ .idle) (hq : s.hostQueue = []) : turn s = some .engine := by
  simp [turn, hostReady, engineReady, hp, hq]

/-- An engine step answers a next state, a fault being entered as one (60_exceptions R205). -/
theorem exists_engineStep_next (s : State) : ∃ t, engineStep s = .next t := by
  unfold engineStep engineBulk engineRem engineRed
  split
  · exact ⟨s, rfl⟩
  all_goals split <;> exact ⟨_, rfl⟩

theorem stepsLeft_engineStep (h : SeqInv s) (hp : s.phase ≠ .idle) (hstep : engineStep s = .next t) :
    t.faultRec.isSome = true ∨ stepsLeft t + 1 = stepsLeft s := by
  rcases engineStep_cases hstep with ⟨hidle, -⟩ | ⟨-, _, _, _, rfl⟩ | ⟨hph, -, rfl⟩ | ⟨hph, -, rfl⟩ | ⟨hph, -, rfl⟩
  · exact absurd hidle hp
  · exact .inl rfl
  · exact .inr (stepsLeft_bulkNext h hph)
  · exact .inr (stepsLeft_remNext h hph)
  · exact .inr (stepsLeft_redNext h hph)

/-- Settles O21: with a silent host the engine moves, and each of its steps is a fault or one of those counted. -/
theorem engineAlwaysProgresses : Obligations.EngineAlwaysProgresses := by
  intro s h hf hp hq
  obtain ⟨t, hstep⟩ := exists_engineStep_next (popSchedule s)
  exact ⟨t, (step_of_engine_turn hf (turn_running_silent hp hq)).trans hstep,
    stepsLeft_engineStep (s := popSchedule s) (h.of_frame rfl) hp hstep⟩

/-- A block whose command meets the host's duties (70 R233), with a silent host. Peers may be in its way: what they race
is a value, no step. -/
structure AdmittedRun (s : State) : Prop where
  inv : SeqInv s
  healthy : healthy s
  silent : s.hostQueue = []
  admitted : commandAdmitted s s.ff.toNat

/-- `s` as if nothing were raced. -/
def withoutRaces (s : State) : State := { s with peers := [], raced := [] }

theorem AdmittedRun.undisturbed (h : AdmittedRun s) : Undisturbed (withoutRaces s) :=
  ⟨h.healthy, h.silent, rfl, h.admitted, fun _ hp => absurd hp List.not_mem_nil⟩

/-- Races have no part in which accesses are made or admitted (20_memory R64), so the engine's step is no fault. -/
theorem AdmittedRun.engineStep (h : AdmittedRun s) (hp : s.phase ≠ .idle) :
    ∃ t, engineStep s = .next t ∧ AdmittedRun t ∧ stepsLeft t + 1 = stepsLeft s := by
  cases hph : s.phase with
  | idle => exact absurd hph hp
  | bulk =>
    obtain ⟨hn, -, -⟩ := h.inv.in_bulk hph
    exact ⟨_, engineStep_bulk hph (h.undisturbed.bulk_admitted hn),
      ⟨seqInv_bulkNext h.inv hph, h.healthy, h.silent, h.admitted⟩, stepsLeft_bulkNext h.inv hph⟩
  | rem =>
    obtain ⟨hn, -, -⟩ := h.inv.in_rem hph
    exact ⟨_, engineStep_rem hph (h.undisturbed.rem_admitted hn),
      ⟨seqInv_remNext h.inv hph, h.healthy, h.silent, h.admitted⟩, stepsLeft_remNext h.inv hph⟩
  | red =>
    obtain ⟨-, hrow⟩ := h.inv.in_red hph
    exact ⟨_, engineStep_red hph (h.admitted.2 _ hrow),
      ⟨seqInv_redNext h.inv hph, h.healthy, h.silent, h.admitted⟩, stepsLeft_redNext h.inv hph⟩

theorem AdmittedRun.entry_taken (h : AdmittedRun s) : AdmittedRun (popSchedule s) :=
  ⟨h.inv.of_frame rfl, h.healthy, h.silent, h.admitted⟩

theorem AdmittedRun.step (h : AdmittedRun s) (hp : s.phase ≠ .idle) :
    ∃ t, step s = .next t ∧ AdmittedRun t ∧ stepsLeft t + 1 = stepsLeft s := by
  rw [step_of_engine_turn h.healthy.1 (turn_running_silent hp h.silent)]
  exact h.entry_taken.engineStep hp

/-- Until the steps counted are used up, each step of the run is one of them. -/
theorem AdmittedRun.run (h : AdmittedRun s) {m : Nat} (hm : m ≤ stepsLeft s) :
    ∃ t, Host.Core.run Sys2Proof.core m s = .next t ∧ AdmittedRun t ∧ stepsLeft t + m = stepsLeft s := by
  induction m generalizing s with
  | zero => exact ⟨s, rfl, h, rfl⟩
  | succ m ih =>
    have hp : s.phase ≠ .idle := fun hp => by simp [stepsLeft_idle hp] at hm
    obtain ⟨u, hstep, hu, hleft⟩ := h.step hp
    obtain ⟨t, hrun, ht, hleft'⟩ := ih hu (by omega)
    exact ⟨t, (run_succ hstep m).trans hrun, ht, by omega⟩

theorem fusionOf_of_row {i : Instr} {f : Nat} {v : Word} (h : (i, f, v) ∈ dotxfTable) : (fusionOf v).toNat = f := by
  obtain ⟨-, -, -, hfusion⟩ := dotxfTable_row h
  obtain ⟨-, -, hf8⟩ := dotxfTable_opcode h
  rw [hfusion, BitVec.toNat_ofNat]
  omega

theorem admittedRun_started (h : SeqInv s) (hh : healthy s) {v : Word} (hf : startFault v s = none)
    (hq : s.hostQueue = []) (hadm : commandAdmitted s (fusionOf v).toNat) : AdmittedRun (started v s) :=
  ⟨seqInv_started h hf, hh, hq, hadm⟩

/-- Settles O24: START, and then a run that has a step left, so is not in IDLE. -/
theorem commandBusyUntilLastStep : Obligations.CommandBusyUntilLastStep := by
  intro i f v hrow s hinv hh hready hq hadm m hm hlast
  have hv := isDotxfCmd_of_row hrow
  have hff := fusionOf_of_row hrow
  have hstart := step_cmd_starts hh.1 (hinv.idle_iff.mpr hready.1) hready hv hq
  have hnone : startFault v (popHost (popSchedule s)) = none := startFault_none_iff.mpr ⟨hv, hready.2⟩
  have hbegun : AdmittedRun (started v (popHost (popSchedule s))) :=
    admittedRun_started (s := popHost (popSchedule s)) (hinv.of_frame rfl) hh hnone (by simp [hq]) (hff ▸ hadm)
  have hcount : stepsLeft (started v (popHost (popSchedule s))) = s.n.toNat / 8 + s.n.toNat % 8 + f := by
    rw [stepsLeft_started, hff]
    rfl
  obtain ⟨k, rfl⟩ := Nat.exists_eq_add_of_le' hm
  obtain ⟨t, hrun, ht, hleft⟩ := hbegun.run (m := k) (by omega)
  have hp : t.phase ≠ .idle := fun hp => by
    rw [stepsLeft_idle hp] at hleft
    omega
  exact ⟨t, (run_succ hstart k).trans hrun, ht.inv.busy_running hp, ht.inv.not_done_running hp, ht.healthy⟩

end Sys2Proof.Machine
end

section
/-! Memory keeps its canonical form (10_state R42, log 6). Memory is written by byte writes alone: RED's single, a host
write, a peer's single, and the draws of a race. -/

namespace Sys2Proof.Machine

variable {s t : State}

theorem memInv_of_mem_eq (h : memInv s) (e : t.mem = s.mem) : memInv t := by
  rwa [memInv, e]

theorem memInv_engineStep (h : memInv s) (hstep : engineStep s = .next t) : memInv t := by
  rcases engineStep_mem hstep with hmem | ⟨-, hmem⟩
  · exact memInv_of_mem_eq h hmem
  · rw [memInv, hmem]
    exact store32_wf h _ _

theorem memInv_pollWait (h : memInv s) : memInv (pollWait s) := by
  rw [pollWait_eq]
  exact h

theorem memInv_raceStore (h : memInv s) (a : Nat) (bs : List Byte) : memInv (raceStore a bs s) :=
  drawSums_wf a bs.length (plainStore_wf h)

theorem memInv_peerStore (h : memInv s) (p : Peer) : memInv (peerStore p s) :=
  store32_wf h _ _

theorem memInv_peerMoves (h : memInv s) (hm : PeerMoves s t) : memInv t := by
  cases hm with
  | none => exact h
  | starts b f => exact drawSums_wf _ _ (s := addPeer ⟨b, f, 0#3⟩ s) h
  | startsIdle => exact h
  | lastRow i p => exact memInv_peerStore h p
  | row i p => exact memInv_peerStore h p
  | ends => exact h

theorem memInv_hostAct (h : memInv s) {a : HostAction} (hact : hostAct a s = .next t) : memInv t := by
  rcases hostAct_cases hact with ⟨f, rfl⟩ | (rfl | ⟨u, -, rfl⟩) | ⟨v, -, -, -, rfl⟩ | ⟨r, v, -, -, -, rfl⟩ |
    ⟨r, -, -, rfl⟩ | ⟨-, rfl⟩ | ⟨p, bs, -, -, -, rfl⟩ | ⟨p, bs, -, -, -, rfl⟩ | ⟨p, n, -, -, rfl⟩ |
    ⟨m, u, i, w, -, -, rfl⟩ | ⟨-, rfl⟩ | ⟨-, hm⟩
  · exact h
  · exact h
  · exact h
  · exact h
  · exact memInv_of_mem_eq h (storeArg_mem ..)
  · exact h
  · exact memInv_pollWait h
  · exact memInv_raceStore h p bs
  · exact plainStore_wf h
  · exact h
  · exact h
  · exact h
  · exact memInv_peerMoves h hm

/-- Settles O29: whatever a step stores, races included, it stores byte by byte, and a byte write keeps the form. -/
theorem memoryInvariantKept : Obligations.MemoryInvariantKept := by
  intro s t h hstep
  rcases step_cases hstep with ⟨-, -, rfl⟩ | ⟨-, -, he⟩ | ⟨-, -, a, rest, -, ha⟩ | ⟨-, -, -, rfl⟩
  · exact h
  · exact memInv_engineStep (s := popSchedule s) h he
  · exact memInv_hostAct (s := popHost (popSchedule s)) h ha
  · exact h

end Sys2Proof.Machine
end

section
/-! The fault record and the refusal mark (60_exceptions R205 to R207). A step sets one of them and does nothing else, or
leaves both, or is the reset that clears both. -/

namespace Sys2Proof.Machine

variable {s t : State} {a : HostAction} {f : Fault}

/-- Neither the fault record nor the refusal mark is set by getting from `s` to `t`. -/
def SetsNoMark (s t : State) : Prop :=
  (t.faultRec = s.faultRec ∨ t.faultRec = none) ∧ (t.refusalMark = s.refusalMark ∨ t.refusalMark = false)

theorem SetsNoMark.of_kept (hfault : t.faultRec = s.faultRec) (hmark : t.refusalMark = s.refusalMark) :
    SetsNoMark s t := ⟨.inl hfault, .inl hmark⟩

theorem setsNoMark_resetBlock (s : State) : SetsNoMark s (resetBlock s) := ⟨.inr rfl, .inr rfl⟩

theorem setsNoMark_pollWait (s : State) : SetsNoMark s (pollWait s) := by
  rw [pollWait_eq]
  exact .of_kept rfl rfl

theorem setsNoMark_peerMoves (h : PeerMoves s t) : SetsNoMark s t := by
  cases h <;> exact .of_kept rfl rfl

/-- An engine step raises, or sets neither; it never refuses. -/
theorem engineStep_marks (h : engineStep s = .next t) : (∃ f, t = recordFault f s) ∨ SetsNoMark s t := by
  rcases engineStep_cases h with ⟨-, rfl⟩ | ⟨-, _, _, _, rfl⟩ | ⟨-, -, rfl⟩ | ⟨-, -, rfl⟩ | ⟨-, -, rfl⟩
  · exact .inr (.of_kept rfl rfl)
  · exact .inl ⟨_, rfl⟩
  · exact .inr (.of_kept rfl rfl)
  · exact .inr (.of_kept rfl rfl)
  · exact .inr (.of_kept rfl rfl)

/-- A host interaction raises, is refused (with the port driven under mode 11), or sets neither. -/
theorem hostAct_marks (hact : hostAct a s = .next t) :
    (∃ f, t = recordFault f s) ∨
    (t = markRefused s ∨ ∃ u, a = .driveH2s 0b11#2 u ∧ t = markRefused (driveOpen 0b11#2 u s)) ∨
    SetsNoMark s t := by
  rcases hostAct_cases hact with hfault | hrefused | ⟨v, -, -, -, rfl⟩ | ⟨r, v, -, -, -, rfl⟩ |
    ⟨r, -, -, rfl⟩ | ⟨-, rfl⟩ | ⟨p, bs, -, -, -, rfl⟩ | ⟨p, bs, -, -, -, rfl⟩ | ⟨p, n, -, -, rfl⟩ |
    ⟨m, u, i, w, -, -, rfl⟩ | ⟨-, rfl⟩ | ⟨-, hm⟩
  · exact .inl hfault
  · exact .inr (.inl hrefused)
  all_goals refine .inr (.inr ?_)
  · exact .of_kept rfl rfl
  · exact .of_kept (storeArg_faultRec ..) (storeArg_refusalMark ..)
  · exact .of_kept rfl rfl
  · exact setsNoMark_pollWait s
  · exact .of_kept rfl rfl
  · exact .of_kept rfl rfl
  · exact .of_kept rfl rfl
  · exact .of_kept rfl rfl
  · exact setsNoMark_resetBlock s
  · exact setsNoMark_peerMoves hm

/-- The same of a whole step, before which the acting agent's entries are taken. -/
theorem step_marks (hs : s.faultRec = none) (hstep : step s = .next t) :
    (∃ f, t = recordFault f (popSchedule s) ∨ t = recordFault f (popHost (popSchedule s))) ∨
    (t = markRefused (popHost (popSchedule s)) ∨ ∃ u, s.hostQueue.head? = some (.driveH2s 0b11#2 u) ∧
      t = markRefused (driveOpen 0b11#2 u (popHost (popSchedule s)))) ∨
    SetsNoMark s t := by
  rcases step_cases hstep with ⟨hfault, -, -⟩ | ⟨-, -, he⟩ | ⟨-, -, a, rest, hq, ha⟩ | ⟨-, -, -, rfl⟩
  · simp [hs] at hfault
  · rcases engineStep_marks he with ⟨f, rfl⟩ | hkept
    · exact .inl ⟨f, .inl rfl⟩
    · exact .inr (.inr hkept)
  · rcases hostAct_marks ha with ⟨f, rfl⟩ | (rfl | ⟨u, rfl, rfl⟩) | hkept
    · exact .inl ⟨f, .inr rfl⟩
    · exact .inr (.inl (.inl rfl))
    · exact .inr (.inl (.inr ⟨u, congrArg List.head? hq, rfl⟩))
    · exact .inr (.inr hkept)
  · exact .inr (.inr (.of_kept rfl rfl))

/-- Settles O7: raising and refusing keep the state before the step but for the entries taken, and a step that sets
neither is none of those asked about. -/
theorem faultIsPrecise : Obligations.FaultIsPrecise := by
  intro s t hstep hs
  rcases step_marks hs hstep with ⟨f, rfl | rfl⟩ | (rfl | ⟨u, hq, rfl⟩) | ⟨hfault, hmark⟩
  · exact ⟨fun _ => rfl, fun hclear hset => absurd (hclear.symm.trans hset) (by decide)⟩
  · exact ⟨fun _ => rfl, fun hclear hset => absurd (hclear.symm.trans hset) (by decide)⟩
  · exact ⟨fun hset => absurd hs hset, fun _ _ => ⟨rfl, fun _ => ⟨rfl, rfl, rfl, rfl⟩⟩⟩
  · exact ⟨fun hset => absurd hs hset, fun _ _ => ⟨rfl, fun hother => absurd hq (hother u)⟩⟩
  · refine ⟨fun hset => absurd ?_ hset, fun hclear hset => ?_⟩
    · simpa [hs] using hfault
    · simp [hclear, hset] at hmark

/-- Only a reset moves a faulted block (60_exceptions R205, R206). -/
theorem step_of_faulted (hf : s.faultRec = some f) (hnoreset : ¬resetNext s) : step s = .fault f := by
  simp only [step, blockStep, hf, faultedStep]
  split
  · next hq => simp [resetNext, hq] at hnoreset
  · rfl

/-- Settles O6: the faulted block stops, and the reset that moves it clears the record and leaves memory. -/
theorem faultIsTerminal : Obligations.FaultIsTerminal := by
  refine ⟨fun s f hf hnoreset => step_of_faulted hf hnoreset, fun s t f hf hstep => ?_⟩
  rcases step_cases hstep with ⟨-, hreset, rfl⟩ | ⟨hnone, -⟩ | ⟨hnone, -⟩ | ⟨hnone, -⟩
  · exact ⟨hreset, rfl, rfl⟩
  all_goals simp [hf] at hnone

theorem hostAct_window_outside {o : Nat} (ho : 0x40 ≤ o) (w : Nat) (v : Word) (s : State) :
    hostAct (.wreg o w v) s = .next (markRefused s) ∧ hostAct (.rreg o w) s = .next (markRefused s) := by
  simp [hostAct, windowWrite, windowRead, ho]

theorem hostAct_memRead_past_space {p n : Nat} (h : Config.memSize < p + n) (s : State) :
    hostAct (.memRead p n) s = .next (markRefused s) := by
  simp [hostAct, hostLoad, h]

theorem hostAct_memWrite_past_space {p : Nat} {bs : List Byte} (h : Config.memSize < p + bs.length) (s : State) :
    hostAct (.memWrite p bs) s = .next (markRefused s) := by
  simp [hostAct, hostStore, h]

theorem step_eq_hostStep (hf : s.faultRec = none) (ht : turn s = some .host) : step s = hostStep (popSchedule s) := by
  simp [step, blockStep, hf, ht]

theorem step_of_no_turn_marked (hm : s.refusalMark = true) (hf : s.faultRec = none) (ht : turn s = none) :
    step s = .refused .refusalMarked := by
  simp [step, blockStep, hf, ht, restingStep, hm]

/-- Settles O8: each of these interactions is refused, which is to set the mark, and the mark is looked at only where no
agent has a step. -/
theorem refusedInteractions : Obligations.RefusedInteractions := by
  refine ⟨fun s u => ⟨_, s.draws, rfl, rfl⟩, fun s => rfl, fun s o w v ho => hostAct_window_outside ho w v s,
    fun s p n bs hread hwrite => ⟨hostAct_memRead_past_space hread s, hostAct_memWrite_past_space hwrite s⟩,
    fun s => step_of_engine_turn, fun s => step_eq_hostStep, fun s => step_of_no_turn_marked⟩

end Sys2Proof.Machine
end

section
/-! The unfused remainder (41_dotxf R167). -/

namespace Sys2Proof.Machine

/-- The rounded product is FMA32 with a zero of the product's sign, and ADD32 is FMA32 with 1.0 (00_scope R20, log 8). -/
theorem remCore_unfused (x d lane : Single) :
    remCore false x d lane =
      (fmaCore x d (BitVec.ofBool (signBit x ^^ signBit d) ++ 0#31)).bind fun p => fmaCore p 0x3F800000#32 lane := by
  rw [← signedZero_eq]
  rfl

/-- Settles O18: lane 0 of a row takes the rounded product by one rounded add, and nothing else is written. -/
theorem unfusedRemStep : Obligations.UnfusedRemStep := by
  intro s hf ht hp hunfused hxr hyr hx hy
  refine ⟨remNext (popSchedule s), ?_, fun i j => ?_, rfl⟩
  · exact (step_of_engine_turn hf ht).trans
      (engineStep_rem (s := popSchedule s) hp (remReads_admitted (s := s) hx hy))
  · split_ifs with hij
    · obtain ⟨hi, hj⟩ := hij
      obtain rfl : j = 0 := Fin.ext hj
      have hlane := remNext_lane_zero (s := popSchedule s) (r := some s.acc[i][0]) hi (racedIn_of_unraced hxr)
        (racedIn_of_unraced (hyr i hi)) rfl
      rw [popSchedule_params, hunfused, Option.bind_some, remCore_unfused] at hlane
      exact hlane
    · exact remNext_lane_kept (s := popSchedule s) hij

end Sys2Proof.Machine
end

section
/-! The invariants right after reset (10_state R44). -/

namespace Sys2Proof.Machine

/-- Code 0 is `+0` in every lane, and so is a lane above the width. -/
theorem h2sConvert_zero (w : Nat) : h2sConvert w 0#128 = 0#256 := by
  simp [h2sConvert, inLane, decode16_zero, packLanes]

/-- Settles O31: IDLE, an empty memory, a port that converts zeros, and no other instance. -/
theorem invariantsHoldAtReset : Obligations.InvariantsHoldAtReset :=
  ⟨seqInv_resetBlock State.reset, rfl, fun _ _ w _ _ => (h2sConvert_zero w).symm, fun _ hp => absurd hp List.not_mem_nil⟩

end Sys2Proof.Machine
end
